-- ==== Sys2Proof/Word.lean ====
section
/-! DEFINITION. The word types of the machine (00_scope.md R9, R12). -/

namespace Sys2Proof

/-- A register value, operand, result or bus value: a 64-bit pattern (R9: `XLEN = 64`). -/
abbrev Word := BitVec 64

/-- One byte of data memory or of a cache line. -/
abbrev Byte := BitVec 8

/-- One decoded-instruction record as the block receives it: a 64-bit word (R100). -/
abbrev Record := BitVec 64

/-- An instruction index: the width of the pc and of a branch target (R9, R28). -/
abbrev InstrIndex := BitVec 16

/-! A tag is a plain natural number: `1 .. N_UNITS` names a functional unit, 0 means "no producer"
(R110: its width follows from the configuration). -/

end Sys2Proof
end

