-- ==== Sys2Proof/Syntax.lean ====
section
/-! DEFINITION. The instruction set as syntax: register names, opcodes and one constructor of `Instr`
per row of spec/opcode_table.json (30_encoding.md R100 to R104). -/

namespace Sys2Proof

/-- The two register files (R21 to R23, R101): bit 5 of a register field is 0 for `gpr`, 1 for `fpr`. -/
inductive RegFile where
  | gpr
  | fpr
  deriving DecidableEq, Repr

/-- A register name `(file, index)` (R101). The index has the five bits of the register field;
whether the register exists depends on the configuration (R107, `Config.hasRegister`). -/
structure Reg where
  file  : RegFile
  index : BitVec 5
  deriving DecidableEq, Repr

/-- The opcodes (R104); `unknown` stands for 0x00 and for every value from 0x11 to 0xFF (R109). -/
inductive Opcode where
  | unknown
  | dadd
  | dsub
  | daddi
  | dsubi
  | dmul
  | ddiv
  | addD
  | subD
  | mulD
  | divD
  | lw
  | ld
  | sw
  | sd
  | beq
  | bne
  deriving DecidableEq, Repr

/-- An instruction: one constructor per row of the opcode table. The register operands are the ones the
row uses. Every row but UNKNOWN also carries the record's `imm` and `target` fields, because Issue
copies both into the unit whatever the opcode (R143: `unit[t].imm <- I; unit[t].target <- T`); an
opcode that does not use a field does nothing else with it (R106; log entry 6). -/
inductive Instr where
  | unknown
  | dadd  (dest src1 src2 : Reg) (imm : BitVec 16) (target : InstrIndex)
  | dsub  (dest src1 src2 : Reg) (imm : BitVec 16) (target : InstrIndex)
  | daddi (dest src1 : Reg) (imm : BitVec 16) (target : InstrIndex)
  | dsubi (dest src1 : Reg) (imm : BitVec 16) (target : InstrIndex)
  | dmul  (dest src1 src2 : Reg) (imm : BitVec 16) (target : InstrIndex)
  | ddiv  (dest src1 src2 : Reg) (imm : BitVec 16) (target : InstrIndex)
  | addD  (dest src1 src2 : Reg) (imm : BitVec 16) (target : InstrIndex)
  | subD  (dest src1 src2 : Reg) (imm : BitVec 16) (target : InstrIndex)
  | mulD  (dest src1 src2 : Reg) (imm : BitVec 16) (target : InstrIndex)
  | divD  (dest src1 src2 : Reg) (imm : BitVec 16) (target : InstrIndex)
  | lw    (dest base : Reg) (imm : BitVec 16) (target : InstrIndex)
  | ld    (dest base : Reg) (imm : BitVec 16) (target : InstrIndex)
  | sw    (base data : Reg) (imm : BitVec 16) (target : InstrIndex)
  | sd    (base data : Reg) (imm : BitVec 16) (target : InstrIndex)
  | beq   (src1 src2 : Reg) (imm : BitVec 16) (target : InstrIndex)
  | bne   (src1 src2 : Reg) (imm : BitVec 16) (target : InstrIndex)
  deriving DecidableEq, Repr

/-- The opcode of an instruction. -/
def Instr.opcode : Instr → Opcode
  | .unknown => .unknown
  | .dadd .. => .dadd
  | .dsub .. => .dsub
  | .daddi .. => .daddi
  | .dsubi .. => .dsubi
  | .dmul .. => .dmul
  | .ddiv .. => .ddiv
  | .addD .. => .addD
  | .subD .. => .subD
  | .mulD .. => .mulD
  | .divD .. => .divD
  | .lw .. => .lw
  | .ld .. => .ld
  | .sw .. => .sw
  | .sd .. => .sd
  | .beq .. => .beq
  | .bne .. => .bne

/-- The register an instruction renames, if it has one (R104, column "dest"). -/
def Instr.dest : Instr → Option Reg
  | .unknown => none
  | .dadd d .. | .dsub d .. | .daddi d .. | .dsubi d .. | .dmul d .. | .ddiv d ..
  | .addD d .. | .subD d .. | .mulD d .. | .divD d .. | .lw d .. | .ld d .. => some d
  | .sw .. | .sd .. | .beq .. | .bne .. => none

/-- The registers an instruction reads, in the order `src1`, `src2` (R104). -/
def Instr.sources : Instr → List Reg
  | .unknown => []
  | .dadd _ a b .. | .dsub _ a b .. | .dmul _ a b .. | .ddiv _ a b ..
  | .addD _ a b .. | .subD _ a b .. | .mulD _ a b .. | .divD _ a b .. => [a, b]
  | .daddi _ a .. | .dsubi _ a .. | .lw _ a .. | .ld _ a .. => [a]
  | .sw a b .. | .sd a b .. | .beq a b .. | .bne a b .. => [a, b]

end Sys2Proof
end

