-- ==== Sys2Proof/Decode.lean ====
section
/-! DEFINITION. The record word: decoder and encoder (30_encoding.md R100 to R104, R109). The decoder
is total: every one of the 256 opcode values is defined (R109), so no word is refused here; a record
that names a register the configuration does not have is refused where the configuration is known
(`State.admission`, Machine/Admission.lean). -/

namespace Sys2Proof

/-- R104, R109: the opcode a record's low byte selects. -/
def opcodeOfByte (b : BitVec 8) : Opcode :=
  match b.toNat with
  | 0x01 => .dadd
  | 0x02 => .dsub
  | 0x03 => .daddi
  | 0x04 => .dsubi
  | 0x05 => .dmul
  | 0x06 => .ddiv
  | 0x07 => .addD
  | 0x08 => .subD
  | 0x09 => .mulD
  | 0x0A => .divD
  | 0x0B => .lw
  | 0x0C => .ld
  | 0x0D => .sw
  | 0x0E => .sd
  | 0x0F => .beq
  | 0x10 => .bne
  | _ => .unknown

/-- R104: the opcode number an assembler writes. -/
def byteOfOpcode : Opcode → BitVec 8
  | .unknown => 0x00
  | .dadd => 0x01
  | .dsub => 0x02
  | .daddi => 0x03
  | .dsubi => 0x04
  | .dmul => 0x05
  | .ddiv => 0x06
  | .addD => 0x07
  | .subD => 0x08
  | .mulD => 0x09
  | .divD => 0x0A
  | .lw => 0x0B
  | .ld => 0x0C
  | .sw => 0x0D
  | .sd => 0x0E
  | .beq => 0x0F
  | .bne => 0x10

/-- R101: bit 5 of a register field is the file, bits 4..0 are the index. -/
def regOfField (f : BitVec 6) : Reg where
  file := if f.getLsbD 5 then .fpr else .gpr
  index := f.extractLsb' 0 5

/-- R101, the other way. -/
def fieldOfReg (r : Reg) : BitVec 6 :=
  (match r.file with
    | .gpr => 0#1
    | .fpr => 1#1) ++ r.index

/-- R100: the fields of a record word. -/
def destField (w : Record) : Reg := regOfField (w.extractLsb' 8 6)

/-- R100: bits 21..16. -/
def src1Field (w : Record) : Reg := regOfField (w.extractLsb' 16 6)

/-- R100: bits 29..24. -/
def src2Field (w : Record) : Reg := regOfField (w.extractLsb' 24 6)

/-- R100, R102: bits 47..32. -/
def immField (w : Record) : BitVec 16 := w.extractLsb' 32 16

/-- R100, R103: bits 63..48. -/
def targetField (w : Record) : InstrIndex := w.extractLsb' 48 16

/-- The decoder (R104, R141): total on every word. -/
def decode (w : Record) : Instr :=
  let d := destField w
  let a := src1Field w
  let b := src2Field w
  let imm := immField w
  let tgt := targetField w
  match opcodeOfByte (w.extractLsb' 0 8) with
  | .unknown => .unknown
  | .dadd => .dadd d a b imm tgt
  | .dsub => .dsub d a b imm tgt
  | .daddi => .daddi d a imm tgt
  | .dsubi => .dsubi d a imm tgt
  | .dmul => .dmul d a b imm tgt
  | .ddiv => .ddiv d a b imm tgt
  | .addD => .addD d a b imm tgt
  | .subD => .subD d a b imm tgt
  | .mulD => .mulD d a b imm tgt
  | .divD => .divD d a b imm tgt
  | .lw => .lw d a imm tgt
  | .ld => .ld d a imm tgt
  | .sw => .sw a b imm tgt
  | .sd => .sd a b imm tgt
  | .beq => .beq a b imm tgt
  | .bne => .bne a b imm tgt

/-- R100: the record word of its six fields, the three reserved pairs written 0. -/
def recordWord (op : Opcode) (dest src1 src2 : BitVec 6) (imm : BitVec 16) (target : InstrIndex) :
    Record :=
  target ++ imm ++ 0#2 ++ src2 ++ 0#2 ++ src1 ++ 0#2 ++ dest ++ byteOfOpcode op

/-- The encoder: the word an assembler writes, every field the opcode does not use and the instruction
does not carry written 0 (R106). -/
def encode (i : Instr) : Record :=
  match i with
  | .unknown => recordWord .unknown 0 0 0 0 0
  | .dadd d a b imm tgt => recordWord .dadd (fieldOfReg d) (fieldOfReg a) (fieldOfReg b) imm tgt
  | .dsub d a b imm tgt => recordWord .dsub (fieldOfReg d) (fieldOfReg a) (fieldOfReg b) imm tgt
  | .daddi d a imm tgt => recordWord .daddi (fieldOfReg d) (fieldOfReg a) 0 imm tgt
  | .dsubi d a imm tgt => recordWord .dsubi (fieldOfReg d) (fieldOfReg a) 0 imm tgt
  | .dmul d a b imm tgt => recordWord .dmul (fieldOfReg d) (fieldOfReg a) (fieldOfReg b) imm tgt
  | .ddiv d a b imm tgt => recordWord .ddiv (fieldOfReg d) (fieldOfReg a) (fieldOfReg b) imm tgt
  | .addD d a b imm tgt => recordWord .addD (fieldOfReg d) (fieldOfReg a) (fieldOfReg b) imm tgt
  | .subD d a b imm tgt => recordWord .subD (fieldOfReg d) (fieldOfReg a) (fieldOfReg b) imm tgt
  | .mulD d a b imm tgt => recordWord .mulD (fieldOfReg d) (fieldOfReg a) (fieldOfReg b) imm tgt
  | .divD d a b imm tgt => recordWord .divD (fieldOfReg d) (fieldOfReg a) (fieldOfReg b) imm tgt
  | .lw d a imm tgt => recordWord .lw (fieldOfReg d) (fieldOfReg a) 0 imm tgt
  | .ld d a imm tgt => recordWord .ld (fieldOfReg d) (fieldOfReg a) 0 imm tgt
  | .sw a b imm tgt => recordWord .sw 0 (fieldOfReg a) (fieldOfReg b) imm tgt
  | .sd a b imm tgt => recordWord .sd 0 (fieldOfReg a) (fieldOfReg b) imm tgt
  | .beq a b imm tgt => recordWord .beq 0 (fieldOfReg a) (fieldOfReg b) imm tgt
  | .bne a b imm tgt => recordWord .bne 0 (fieldOfReg a) (fieldOfReg b) imm tgt

/-- The record whose low `nbits` bits are those of `w` and whose other bits are 0. A record is one
64-bit word, so there is one layout and no byte order (R71: `IMEM` is addressed by whole records). -/
def recordOfBits (nbits w : Nat) : Record := BitVec.ofNat 64 (w % 2 ^ nbits)

/-- What the decoder reads from a table word. The decoder is total, so the answer is never `none`. -/
def decodeTableWord (nbits w : Nat) : Option Instr := some (decode (recordOfBits nbits w))

end Sys2Proof
end

