-- ==== Sys2Proof/Config.lean ====
section
/-! DEFINITION. What an implementation fixes: the parameters of 00_scope.md R7 (the spec's `CFG`),
the spec's reference assignment `CFG_REF`, and the free functions that stand for the parameters the
spec leaves open (`NUM`, `int_div`). -/

namespace Sys2Proof

/-- Parameter `ENDIAN` (R7, R71): the byte order of a multi-byte access. -/
inductive Endian where
  | little
  | big
  deriving DecidableEq, Repr

/-- Parameter `NUM` (R7, R220). `ieee754` is the reference instantiation `NUM_IEEE` of R226. `custom`
is any other instantiation: its five functions are the free functions `Config.customAdd` … below. -/
inductive Numerics where
  | ieee754
  | custom
  deriving DecidableEq, Repr

/-- Parameter `int_div` (R206, D20). `truncating` is the signed quotient rounded toward zero that R206
states. `custom` is any replacement of it: the free function `Config.customIntDiv`. -/
inductive IntDivision where
  | truncating
  | custom
  deriving DecidableEq, Repr

/-- The configuration `CFG` (R7). `PROG_LEN` is not a field: it is the length of the loaded program
(`State.imem`). State carries `CFG` because the step takes no second argument (log entry 1). -/
structure Config where
  /-- `LAT_INT_ADD`: DADD, DSUB, DADDI, DSUBI, BEQ, BNE. -/
  latIntAdd : Nat
  /-- `LAT_INT_MULDIV`: DMUL, DDIV. -/
  latIntMulDiv : Nat
  /-- `LAT_FP_ADD`: ADD.D, SUB.D. -/
  latFpAdd : Nat
  /-- `LAT_FP_MUL`: MUL.D. -/
  latFpMul : Nat
  /-- `LAT_FP_DIV`: DIV.D. -/
  latFpDiv : Nat
  /-- `LAT_LOAD`: base latency of LW, LD. -/
  latLoad : Nat
  /-- `LAT_STORE`: base latency of SW, SD. -/
  latStore : Nat
  /-- `HIT_LAT`: added to a load or store that hits at dispatch. -/
  hitLat : Nat
  /-- `MISS_PENALTY`: added to a load or store that misses at dispatch. -/
  missPenalty : Nat
  /-- `N_INTADD`: integer add/sub stations (they also execute branches). -/
  nIntAdd : Nat
  /-- `N_INTMUL`: integer mul/div stations. -/
  nIntMul : Nat
  /-- `N_FPADD`: FP add/sub stations. -/
  nFpAdd : Nat
  /-- `N_FPMUL`: FP mul/div stations. -/
  nFpMul : Nat
  /-- `N_LOAD`: load buffers. -/
  nLoad : Nat
  /-- `N_STORE`: store buffers. -/
  nStore : Nat
  /-- `N_GPR`: general registers. -/
  nGpr : Nat
  /-- `N_FPR`: floating-point registers. -/
  nFpr : Nat
  /-- `CACHE_SIZE`: cache data capacity in bytes. -/
  cacheSize : Nat
  /-- `BLOCK_SIZE`: bytes per cache line. -/
  blockSize : Nat
  /-- `MEM_SIZE`: bytes of backing memory. -/
  memSize : Nat
  /-- `ENDIAN`. -/
  endian : Endian
  /-- `NUM`. -/
  num : Numerics
  /-- `int_div`. -/
  intDiv : IntDivision
  deriving DecidableEq, Repr

/-- `CFG_REF` (R7, last column): the assignment the spec's vectors use. That the machine's
`State.reset` carries it is a DESIGN CHOICE (log entry 2). -/
def Config.ref : Config where
  latIntAdd := 1
  latIntMulDiv := 4
  latFpAdd := 2
  latFpMul := 4
  latFpDiv := 8
  latLoad := 1
  latStore := 1
  hitLat := 1
  missPenalty := 4
  nIntAdd := 2
  nIntMul := 1
  nFpAdd := 2
  nFpMul := 2
  nLoad := 2
  nStore := 2
  nGpr := 32
  nFpr := 32
  cacheSize := 32
  blockSize := 8
  memSize := 256
  endian := .little
  num := .ieee754
  intDiv := .truncating

/-- The four arithmetic functions of `NUM` (R220); used to index the free NaN pattern. -/
inductive NumOp where
  | add
  | sub
  | mul
  | div
  deriving DecidableEq, Repr

/-! Free functions: constants with no body, so nothing can be proved of their values (log entries 3, 4, 5). -/

/-- `NUM.add` of an instantiation other than `NUM_IEEE` (R220: the machine assumes nothing of it). -/
opaque Config.customAdd : Word → Word → Word

/-- `NUM.sub` of an instantiation other than `NUM_IEEE` (R220). -/
opaque Config.customSub : Word → Word → Word

/-- `NUM.mul` of an instantiation other than `NUM_IEEE` (R220). -/
opaque Config.customMul : Word → Word → Word

/-- `NUM.div` of an instantiation other than `NUM_IEEE` (R220). -/
opaque Config.customDiv : Word → Word → Word

/-- `NUM.is_zero` of an instantiation other than `NUM_IEEE` (R220). -/
opaque Config.customIsZero : Word → Bool

/-- A replacement of `int_div` (R206, D20: "a model should hold DDIV's function as a replaceable
`int_div`"). -/
opaque Config.customIntDiv : Word → Word → Word

/-- Sign and fraction of the NaN that an operation of `NUM_IEEE` produces (R226: "The NaN pattern an
operation produces is left to the instantiation"). Bit 52 is the sign, bits 51..0 the fraction. -/
opaque Config.nanBits : NumOp → Word → Word → BitVec 53

end Sys2Proof
end

