-- ==== Sys2Proof/Machine/State.lean ====
section
/-! DEFINITION. The machine's state as plain data (10_state.md R20 to R35), its value after reset (R37,
R310), and the reasons a step can stop. -/

namespace Sys2Proof.Machine

/-- A register (R21): a value and the tag of the unit that will produce its next value, 0 for none.
While the producer is not 0 the value is stale. -/
structure Register where
  value    : Word
  producer : Nat
  deriving DecidableEq, Repr

/-- R37: value 0, no producer. -/
def Register.reset : Register where
  value := 0
  producer := 0

/-- An operand slot (R14): a captured value, or the tag whose broadcast it waits for. A pending slot
holds no value (D31). -/
inductive Operand where
  | resolved (v : Word)
  | pending (t : Nat)
  deriving DecidableEq, Repr

/-- A reservation station, load buffer or store buffer (R24, R26). Its tag is its place in
`State.units` and is not stored. -/
structure FunctionalUnit where
  busy      : Bool
  op        : Opcode
  /-- First operand: `src1`, or the base register (slot `j`). -/
  j         : Operand
  /-- Second operand: `src2`, or the immediate of DADDI and DSUBI (slot `k`). -/
  k         : Operand
  /-- Store-data operand (slot `s`, R26). -/
  data      : Operand
  /-- The record's immediate, sign-extended: the offset of a load or store. -/
  imm       : Word
  /-- The branch target. -/
  target    : InstrIndex
  /-- Remaining latency. -/
  remaining : Nat
  result    : Option Word
  /-- The model's own bit (log entry 7): set when the defensive check of R176 turned this store into a
  no-operation, so that its service writes nothing. No reachable state sets it. -/
  squashed  : Bool
  deriving DecidableEq, Repr

/-- R37: a free unit with every field at its reset value (D24). -/
def FunctionalUnit.reset : FunctionalUnit where
  busy := false
  op := .unknown
  j := .resolved 0
  k := .resolved 0
  data := .resolved 0
  imm := 0
  target := 0
  remaining := 0
  result := none
  squashed := false

/-- A cache line (R33). The tag has `TAG_BITS` bits, a width the configuration fixes, so it is a
number; the data are `BLOCK_SIZE` bytes. -/
structure CacheLine where
  valid : Bool
  tag   : Nat
  data  : List Byte
  deriving DecidableEq, Repr

/-- R37: an invalid line with tag 0 and data 0. -/
def CacheLine.reset (c : Config) : CacheLine where
  valid := false
  tag := 0
  data := List.replicate c.blockSize 0

/-- The five anomaly classes of R282, in the order of their codes 1 to 5. -/
inductive Anomaly where
  /-- Code 1: resource exhaustion (no free unit). -/
  | exhaustion
  /-- Code 2: unresolved-dependency misuse. -/
  | unresolved
  /-- Code 3: out-of-range memory access. -/
  | outOfRange
  /-- Code 4: arithmetic fault (divide by zero). -/
  | arithmetic
  /-- Code 5: unknown instruction. -/
  | unknownInstr
  deriving DecidableEq, Repr

/-- The five sticky warning flags `WARN[1..5]` (R31), in the order of their codes. -/
structure Warnings where
  exhaustion   : Bool
  unresolved   : Bool
  outOfRange   : Bool
  arithmetic   : Bool
  unknownInstr : Bool
  deriving DecidableEq, Repr

/-- R37: no flag is set. -/
def Warnings.reset : Warnings where
  exhaustion := false
  unresolved := false
  outOfRange := false
  arithmetic := false
  unknownInstr := false

/-- The data memory `MEM` (R34): the bytes that are not 0, by rising address. An address that is not
listed reads as 0, the byte's reset value (R37). `Memory.wf` (Machine/Memory.lean) is the form. -/
abbrev Memory := List Host.Cell

/-- The complete state (R20), and the two inputs of the step, `CFG` and `IMEM`, which nothing writes
(log entry 1). -/
structure State where
  /-- `CFG` (R7): fixed before the first cycle. -/
  cfg         : Config
  /-- `IMEM` (R29): the loaded program; its length is `PROG_LEN`. -/
  imem        : List Record
  /-- The general file, `N_GPR` registers (R22). -/
  gpr         : List Register
  /-- The floating-point file, `N_FPR` registers (R23). -/
  fpr         : List Register
  /-- The functional-unit pool; the unit with tag `t` stands at place `t - 1` (R24, R25). -/
  units       : List FunctionalUnit
  /-- To-be-executed (R27). -/
  qTbe        : List Nat
  /-- Waiting on operands (R27). -/
  qWait       : List Nat
  /-- Execute, timer running (R27). -/
  qExec       : List Nat
  /-- Result, awaiting service (R27). -/
  qResult     : List Nat
  /-- Clear, to be freed (R27). -/
  qClear      : List Nat
  /-- The index of the next record to issue (R28). -/
  pc          : InstrIndex
  /-- Set from the issue of a branch to its completion (R30). -/
  branchStall : Bool
  /-- `WARN[1..5]` (R31). -/
  warn        : Warnings
  /-- What the last Writeback published (R32). -/
  busEvent    : Option (Nat × Word)
  /-- The cache, `CACHE_LINES` lines by set index (R33). -/
  lines       : List CacheLine
  /-- The data memory (R34). -/
  mem         : Memory
  /-- Completed cycles: bookkeeping (R35). -/
  cycle       : Nat
  deriving DecidableEq, Repr

/-- Nothing traps and nothing is fatal (R280: "the machine itself always has a next state"), so the
hardware has no fault and this type has no constructor: a step never ends in a fault. -/
inductive Fault where
  deriving DecidableEq, Repr

/-- Why the model refuses to go on. Each is an input the spec says is not admitted. -/
inductive Refusal where
  /-- An arm of `exec` that has no meaning yet. No arm of this model answers it. Safe. -/
  | notModelled (mnemonic : String)
  /-- The configuration breaks a constraint of R7 (U6, D18, D27: "refuse the configuration"). Raised by
  a step and by the host's reset. Safe: the spec gives such a machine no behaviour. -/
  | inadmissibleConfig
  /-- The program has more than 65535 records (R7, R29). Raised by a step and by the host's reset. Safe. -/
  | programTooLong
  /-- A record names a register the configuration does not have (R107, U8: "the model refuses the
  program before the first cycle"). Raised by a step, by the host's reset, by an instruction's meaning
  given such a register, and by a preload of such a register. Safe. -/
  | noSuchRegister
  /-- A preload names a byte outside `MEM` (R34, R312). Raised by the host's preload only. Safe. -/
  | noSuchByte
  /-- The host tries to write state after the first cycle (R304, U21). Raised by a preload only. Safe. -/
  | hostWriteDuringRun
  deriving DecidableEq, Repr

/-- `CACHE_LINES` (R8). -/
def cacheLineCount (c : Config) : Nat := c.cacheSize / c.blockSize

/-- `N_UNITS` (R8). -/
def unitCount (c : Config) : Nat :=
  c.nIntAdd + c.nIntMul + c.nFpAdd + c.nFpMul + c.nLoad + c.nStore

/-- The machine right after a full reset with configuration `c` and program `program` (R37, R310):
registers 0 with no producer, units free, queues empty, pc 0, flags clear, cache cold, memory 0. -/
def State.resetWith (c : Config) (program : List Record) : State where
  cfg := c
  imem := program
  gpr := List.replicate c.nGpr Register.reset
  fpr := List.replicate c.nFpr Register.reset
  units := List.replicate (unitCount c) FunctionalUnit.reset
  qTbe := []
  qWait := []
  qExec := []
  qResult := []
  qClear := []
  pc := 0
  branchStall := false
  warn := Warnings.reset
  busEvent := none
  lines := List.replicate (cacheLineCount c) (CacheLine.reset c)
  mem := []
  cycle := 0

/-- The machine right after reset, before the host's preload (R37), in the spec's reference
configuration with no program loaded (log entry 2). -/
def State.reset : State := State.resetWith Config.ref []

end Sys2Proof.Machine
end

