-- ==== Sys2Proof/WellFormed.lean ====
section
/-! DEFINITION. Which instructions a configuration admits (30_encoding.md R107): every register field
that the opcode uses names an existing register. -/

namespace Sys2Proof

/-- R107: `index < N_GPR` when the file bit is 0, `index < N_FPR` when it is 1. -/
def Config.hasRegister (c : Config) (r : Reg) : Bool :=
  match r.file with
  | .gpr => decide (r.index.toNat < c.nGpr)
  | .fpr => decide (r.index.toNat < c.nFpr)

/-- R107 for a whole instruction: its destination (if any) and its sources exist. Registers of either
file may stand in every place (R108). -/
def Instr.wellFormed (c : Config) (i : Instr) : Bool :=
  i.dest.all c.hasRegister && i.sources.all c.hasRegister

end Sys2Proof
end

