-- ==== Sys2Proof/Machine/Admission.lean ====
section
/-! DEFINITION. What may be run at all: the constraints on the configuration (00_scope.md R7, U6) and on the
program (30_encoding.md R107, U8). -/

namespace Sys2Proof.Machine

/-- A power of two. -/
def isPowerOfTwo (n : Nat) : Bool := decide (2 ^ n.log2 = n)

/-- R7: every unit count is 1 or more. -/
def countsAdmissible (c : Config) : Bool :=
  decide (1 ≤ c.nIntAdd) && decide (1 ≤ c.nIntMul) && decide (1 ≤ c.nFpAdd) &&
    decide (1 ≤ c.nFpMul) && decide (1 ≤ c.nLoad) && decide (1 ≤ c.nStore)

/-- R7: each register file has 1 to 32 registers. -/
def filesAdmissible (c : Config) : Bool :=
  decide (1 ≤ c.nGpr) && decide (c.nGpr ≤ 32) && decide (1 ≤ c.nFpr) && decide (c.nFpr ≤ 32)

/-- R7, D18: the three sizes are powers of two, `BLOCK_SIZE <= CACHE_SIZE <= MEM_SIZE <= 2^62`. -/
def sizesAdmissible (c : Config) : Bool :=
  isPowerOfTwo c.blockSize && isPowerOfTwo c.cacheSize && isPowerOfTwo c.memSize &&
    decide (c.blockSize ≤ c.cacheSize) && decide (c.cacheSize ≤ c.memSize) &&
    decide (c.memSize ≤ 2 ^ 62)

/-- R7: all constraints. Every latency is any natural number. -/
def configAdmissible (c : Config) : Bool :=
  countsAdmissible c && filesAdmissible c && sizesAdmissible c

/-- R7: `PROG_LEN` is at most 65535. -/
def programFits (program : List Record) : Bool := decide (program.length ≤ 65535)

/-- R107: every record of the program names existing registers only. -/
def programWellFormed (c : Config) (program : List Record) : Bool :=
  program.all fun w => (decode w).wellFormed c

/-- Why a configuration and a program are not admitted; `none` when they are. -/
def admission (c : Config) (program : List Record) : Option Refusal :=
  if !configAdmissible c then some .inadmissibleConfig
  else if !programFits program then some .programTooLong
  else if !programWellFormed c program then some .noSuchRegister
  else none

/-- The same for a state. -/
def State.admission (s : State) : Option Refusal := Machine.admission s.cfg s.imem

end Sys2Proof.Machine
end

