-- ==== Sys2Proof/Machine/Flags.lean ====
section
/-! DEFINITION. The warning flags (10_state.md R31, 60_exceptions.md R281, R282). They are the only flags
the hardware has: no instruction computes a condition code, carry or overflow (R31, R207, R227). -/

namespace Sys2Proof.Machine

/-- The code `1 .. 5` of an anomaly class (R282). -/
def Anomaly.code : Anomaly → Nat
  | .exhaustion => 1
  | .unresolved => 2
  | .outOfRange => 3
  | .arithmetic => 4
  | .unknownInstr => 5

/-- `WARN[c] <- 1` (R281). -/
def Warnings.raise (w : Warnings) : Anomaly → Warnings
  | .exhaustion => { w with exhaustion := true }
  | .unresolved => { w with unresolved := true }
  | .outOfRange => { w with outOfRange := true }
  | .arithmetic => { w with arithmetic := true }
  | .unknownInstr => { w with unknownInstr := true }

/-- Whether `WARN[c]` is set. -/
def Warnings.isSet (w : Warnings) : Anomaly → Bool
  | .exhaustion => w.exhaustion
  | .unresolved => w.unresolved
  | .outOfRange => w.outOfRange
  | .arithmetic => w.arithmetic
  | .unknownInstr => w.unknownInstr

/-- `warn(c)` (R281): set the sticky flag and go on. This is all an anomaly does: there is no exception
entry and no return (R280, R290, R291). -/
def State.warnOn (s : State) (a : Anomaly) : State := { s with warn := s.warn.raise a }

end Sys2Proof.Machine
end

