-- ==== Sys2Proof/Machine/Memory.lean ====
section
/-! DEFINITION. The data memory as a canonical list of the bytes that are not 0 (10_state.md R34). -/

namespace Sys2Proof.Machine

/-- What an unlisted address reads as: 0, the reset value of every byte of `MEM` (R37). -/
def unlistedByte : Byte := 0

/-- Read one byte. -/
def Memory.read (m : Memory) (a : Nat) : Byte :=
  match m with
  | [] => unlistedByte
  | c :: rest => if c.1 = a then c.2 else Memory.read rest a

/-- Write one byte, keeping the canonical form: writing 0 removes the entry. -/
def Memory.write (m : Memory) (a : Nat) (b : Byte) : Memory :=
  match m with
  | [] => if b = unlistedByte then [] else [(a, b)]
  | c :: rest =>
    if a < c.1 then (if b = unlistedByte then c :: rest else (a, b) :: c :: rest)
    else if a = c.1 then (if b = unlistedByte then rest else (a, b) :: rest)
    else c :: Memory.write rest a b

/-- The canonical form from address `lo` on: addresses rise strictly from `lo`, and no listed byte is
the unlisted one. -/
def Memory.wfFrom (lo : Nat) (m : Memory) : Bool :=
  match m with
  | [] => true
  | c :: rest => decide (lo ≤ c.1) && decide (c.2 ≠ unlistedByte) && Memory.wfFrom (c.1 + 1) rest

/-- The canonical form of a memory. -/
def Memory.wf (m : Memory) : Bool := Memory.wfFrom 0 m

/-- Every listed address is below `n` (R34: `MEM` is addressed `0 .. MEM_SIZE-1`). -/
def Memory.below (n : Nat) (m : Memory) : Bool := m.all fun c => decide (c.1 < n)

end Sys2Proof.Machine
end

