-- ==== Sys2Proof/Machine/Cache.lean ====
section
/-! DEFINITION. The cache subsystem (20_memory.md): address decomposition, lookup, line fill, byte select
and merge. The functions here act on the line array and the memory alone; what a whole access does to
the state is in Machine/Ops.lean. -/

namespace Sys2Proof.Machine

/-- The two access widths (R81): 4 bytes (LW, SW) and 8 bytes (LD, SD). -/
inductive Width where
  | four
  | eight
  deriving DecidableEq, Repr

/-- The number of bytes of a width. -/
def Width.bytes : Width → Nat
  | .four => 4
  | .eight => 8

/-! R8: the derived constants. -/

/-- `ADDRESS_BITS`. -/
def addressBits (c : Config) : Nat := c.memSize.log2

/-- `INDEX_BITS`. -/
def indexBits (c : Config) : Nat := (cacheLineCount c).log2

/-- `OFFSET_BITS`. -/
def offsetBits (c : Config) : Nat := c.blockSize.log2

/-- `TAG_BITS`. -/
def tagBits (c : Config) : Nat := addressBits c - indexBits c - offsetBits c

/-! R63: the three fields of an address. `p` is the unsigned reading of the address's pattern. -/

/-- R63: `offset = p mod BLOCK_SIZE`. -/
def offsetOf (c : Config) (p : Nat) : Nat := p % c.blockSize

/-- R63: `index = (p div BLOCK_SIZE) mod CACHE_LINES`. -/
def indexOf (c : Config) (p : Nat) : Nat := (p / c.blockSize) % cacheLineCount c

/-- R63: `tag = (p div (BLOCK_SIZE*CACHE_LINES)) mod 2^TAG_BITS`. -/
def tagOf (c : Config) (p : Nat) : Nat := (p / (c.blockSize * cacheLineCount c)) % 2 ^ tagBits c

/-- R64: the address with its offset bits cleared. -/
def blockBase (c : Config) (p : Nat) : Nat := p - p % c.blockSize

/-- R61, R62: every byte of the access lies in `MEM`. The address is read as a signed integer; the
comparison is on integers without wrap. -/
def inBounds (c : Config) (ea : Word) (n : Nat) : Bool :=
  decide (0 ≤ ea.toInt) && decide (ea.toInt + (n : Int) ≤ (c.memSize : Int))

/-- The line at a set index. -/
def lineAt (c : Config) (lines : List CacheLine) (i : Nat) : CacheLine :=
  lines.getD i (CacheLine.reset c)

/-- R66: `hit` iff the line of the address's set is valid and holds the address's tag. -/
def lookup (c : Config) (lines : List CacheLine) (p : Nat) : Bool :=
  let l := lineAt c lines (indexOf c p)
  l.valid && decide (l.tag = tagOf c p)

/-- R66, R67: `Lookup` of an effective address: a miss when the address is not in `0 .. MEM_SIZE-1`. -/
def lookupAddress (c : Config) (lines : List CacheLine) (ea : Word) : Bool :=
  inBounds c ea 1 && lookup c lines ea.toNat

/-- R68: the bytes a fill of the block of `p` loads; a byte past the end of `MEM` is 0. -/
def blockImage (c : Config) (m : Memory) (p : Nat) : List Byte :=
  (List.range c.blockSize).map fun o =>
    if blockBase c p + o < c.memSize then m.read (blockBase c p + o) else 0

/-- R68: `Fill`. The old content of the line is discarded (write-through: nothing to write back). -/
def fill (c : Config) (m : Memory) (lines : List CacheLine) (p : Nat) : List CacheLine :=
  lines.set (indexOf c p) { valid := true, tag := tagOf c p, data := blockImage c m p }

/-- The lines after making the block of `p` resident: filled on a miss (R70, R75). -/
def ensureLine (c : Config) (m : Memory) (lines : List CacheLine) (p : Nat) : List CacheLine :=
  if lookup c lines p then lines else fill c m lines p

/-- R70: `CacheByte`: the byte, and the lines after a possible fill. -/
def cacheByte (c : Config) (m : Memory) (lines : List CacheLine) (p : Nat) :
    Byte × List CacheLine :=
  let ls := ensureLine c m lines p
  ((lineAt c ls (indexOf c p)).data.getD (offsetOf c p) 0, ls)

/-- R72: `n` bytes at ascending addresses from `p`, each through its own line (R78). -/
def readBytes (c : Config) (m : Memory) (lines : List CacheLine) (p n : Nat) :
    List Byte × List CacheLine :=
  match n with
  | 0 => ([], lines)
  | n + 1 =>
    let first := cacheByte c m lines p
    let others := readBytes c m first.2 (p + 1) n
    (first.1 :: others.1, others.2)

/-- The number whose bytes, least significant first, are `bs`. -/
def littleValue (bs : List Byte) : Nat :=
  match bs with
  | [] => 0
  | b :: rest => b.toNat + 256 * littleValue rest

/-- R71: the value of bytes read at ascending addresses. -/
def valueOfBytes (e : Endian) (bs : List Byte) : Nat :=
  match e with
  | .little => littleValue bs
  | .big => littleValue bs.reverse

/-- R72: an `n`-byte value sign-extended to 64 bits. -/
def extendValue (n v : Nat) : Word := (BitVec.ofNat (8 * n) v).signExtend 64

/-- R71: the byte of `v` that an `n`-byte access holds at offset `k`. -/
def byteOfValue (e : Endian) (n k : Nat) (v : Word) : Byte :=
  match e with
  | .little => v.extractLsb' (8 * k) 8
  | .big => v.extractLsb' (8 * (n - 1 - k)) 8

/-- R75: one byte written through: memory first, then the line (filled from the updated memory on a
miss). -/
def writeByte (c : Config) (m : Memory) (lines : List CacheLine) (p : Nat) (b : Byte) :
    Memory × List CacheLine :=
  let m' := m.write p b
  let ls := ensureLine c m' lines p
  let l := lineAt c ls (indexOf c p)
  (m', ls.set (indexOf c p) { l with data := l.data.set (offsetOf c p) b })

/-- R75: bytes written at ascending addresses from `p`, each through its own line (R78). -/
def writeBytes (c : Config) (m : Memory) (lines : List CacheLine) (p : Nat) (bs : List Byte) :
    Memory × List CacheLine :=
  match bs with
  | [] => (m, lines)
  | b :: rest =>
    let first := writeByte c m lines p b
    writeBytes c first.1 first.2 (p + 1) rest

/-- R75: the bytes of an `n`-byte store of `v`, by ascending address; only `v[8n-1:0]` is used. -/
def bytesOfValue (e : Endian) (n : Nat) (v : Word) : List Byte :=
  (List.range n).map fun k => byteOfValue e n k v

end Sys2Proof.Machine
end

