-- ==== Sys2Proof/Machine/Operands.lean ====
section
/-! DEFINITION. What an opcode is (30_encoding.md R105), what an operand is (00_scope.md R14), and the
questions the scheduler asks of a unit's operand slots (41_scheduler_and_cdb.md R171, R173, R176). -/

namespace Sys2Proof.Machine

/-- The six unit classes (R25), in tag order. -/
inductive UnitClass where
  | intAdd
  | intMul
  | fpAdd
  | fpMul
  | load
  | store
  deriving DecidableEq, Repr

/-- R105: the class that executes an opcode; UNKNOWN has none. -/
def opcodeClass : Opcode → Option UnitClass
  | .unknown => none
  | .dadd | .dsub | .daddi | .dsubi | .beq | .bne => some .intAdd
  | .dmul | .ddiv => some .intMul
  | .addD | .subD => some .fpAdd
  | .mulD | .divD => some .fpMul
  | .lw | .ld => some .load
  | .sw | .sd => some .store

/-- R105: whether an opcode renames and publishes to a destination register. -/
def hasDest : Opcode → Bool
  | .dadd | .dsub | .daddi | .dsubi | .dmul | .ddiv | .addD | .subD | .mulD | .divD | .lw | .ld => true
  | .unknown | .sw | .sd | .beq | .bne => false

/-- BEQ and BNE. -/
def isBranch : Opcode → Bool
  | .beq | .bne => true
  | _ => false

/-- R7: how many units a class has. -/
def classCount (c : Config) : UnitClass → Nat
  | .intAdd => c.nIntAdd
  | .intMul => c.nIntMul
  | .fpAdd => c.nFpAdd
  | .fpMul => c.nFpMul
  | .load => c.nLoad
  | .store => c.nStore

/-- R25: `base(class)`, the tag of the class's first unit minus 1. -/
def classBase (c : Config) : UnitClass → Nat
  | .intAdd => 0
  | .intMul => c.nIntAdd
  | .fpAdd => c.nIntAdd + c.nIntMul
  | .fpMul => c.nIntAdd + c.nIntMul + c.nFpAdd
  | .load => c.nIntAdd + c.nIntMul + c.nFpAdd + c.nFpMul
  | .store => c.nIntAdd + c.nIntMul + c.nFpAdd + c.nFpMul + c.nLoad

/-- R25: the tags of a class, ascending. -/
def classTags (c : Config) (k : UnitClass) : List Nat :=
  List.range' (classBase c k + 1) (classCount c k)

/-- R102: the 16-bit immediate sign-extended to 64 bits. -/
def sext64 (imm : BitVec 16) : Word := imm.signExtend 64

/-- R171: a slot that holds its value. -/
def Operand.isResolved : Operand → Bool
  | .resolved _ => true
  | .pending _ => false

/-- The value of a slot, if it has one. -/
def Operand.value? : Operand → Option Word
  | .resolved v => some v
  | .pending _ => none

/-- R166: what the broadcast of `(t, v)` does to a slot. -/
def Operand.deliver (t : Nat) (v : Word) (o : Operand) : Operand :=
  if o = .pending t then .resolved v else o

/-- R171: the operand-ready check: all three slots are resolved. -/
def FunctionalUnit.ready (u : FunctionalUnit) : Bool :=
  u.j.isResolved && u.k.isResolved && u.data.isResolved

/-- R173: `EA = Vj + imm` modulo 2^64, defined once `j` is resolved. -/
def FunctionalUnit.address? (u : FunctionalUnit) : Option Word :=
  u.j.value?.map (· + u.imm)

/-- R105, R172: the hit or miss term of a load or store, from the lookup made at dispatch. -/
def cacheTerm (c : Config) (lines : List CacheLine) (u : FunctionalUnit) : Nat :=
  match u.address? with
  | some ea => if lookupAddress c lines ea then c.hitLat else c.missPenalty
  | none => c.missPenalty

/-- R172: the latency a unit is dispatched with. No unit that reaches dispatch has the opcode UNKNOWN
or an unresolved base (log entry 8). -/
def latency (c : Config) (lines : List CacheLine) (u : FunctionalUnit) : Nat :=
  match u.op with
  | .dadd | .dsub | .daddi | .dsubi | .beq | .bne => c.latIntAdd
  | .dmul | .ddiv => c.latIntMulDiv
  | .addD | .subD => c.latFpAdd
  | .mulD => c.latFpMul
  | .divD => c.latFpDiv
  | .lw | .ld => c.latLoad + cacheTerm c lines u
  | .sw | .sd => c.latStore + cacheTerm c lines u
  | .unknown => 0

/-- Where the Issue phase takes an operand slot from (R143): a register, or a value that needs none. -/
inductive Source where
  | reg (r : Reg)
  | value (v : Word)
  deriving DecidableEq, Repr

/-- The registers a source names. -/
def Source.regs : Source → List Reg
  | .reg r => [r]
  | .value _ => []

end Sys2Proof.Machine
end

