-- ==== Sys2Proof/Machine/Ops.lean ====
section
/-! DEFINITION. The shared operations over the state: registers and the register-alias table
(40_issue_and_rename.md R130 to R132), the unit pool and its allocator (R135), the broadcast fan-out
(41_scheduler_and_cdb.md R165, R166), the two memory accesses (20_memory.md R72, R75), the issue of a
record (R143 to R147) and the completion of a unit (R175, R176). The hardware takes no exception (R280):
`State.warnOn` of Machine/Flags.lean is all that an anomaly does. -/

namespace Sys2Proof.Machine

/-! ### Registers -/

/-- R130: `read(r)`: value and producer. -/
def State.reg (s : State) (r : Reg) : Register :=
  match r.file with
  | .gpr => s.gpr.getD r.index.toNat Register.reset
  | .fpr => s.fpr.getD r.index.toNat Register.reset

/-- Store a register. A register the configuration does not have is never reached (R107). -/
def State.setReg (s : State) (r : Reg) (x : Register) : State :=
  match r.file with
  | .gpr => { s with gpr := s.gpr.set r.index.toNat x }
  | .fpr => { s with fpr := s.fpr.set r.index.toNat x }

/-- R131: `rename(r, t)`: the producer becomes `t`, the value field stays. -/
def State.rename (s : State) (r : Reg) (t : Nat) : State :=
  s.setReg r { s.reg r with producer := t }

/-- R132: `resolve` on one register: it takes the value only if it still waits for this tag. -/
def Register.resolve (t : Nat) (v : Word) (x : Register) : Register :=
  if x.producer = t then { value := v, producer := 0 } else x

/-- R144: `Capture(r)`. -/
def State.capture (s : State) (r : Reg) : Operand :=
  if (s.reg r).producer = 0 then .resolved (s.reg r).value else .pending (s.reg r).producer

/-- R143: an operand slot from its source. -/
def State.captureSource (s : State) : Source → Operand
  | .reg r => s.capture r
  | .value v => .resolved v

/-! ### Functional units -/

/-- The unit with tag `t`. Tag 0 names no unit. -/
def State.unit (s : State) (t : Nat) : FunctionalUnit :=
  match t with
  | 0 => FunctionalUnit.reset
  | n + 1 => s.units.getD n FunctionalUnit.reset

/-- Store the unit with tag `t`. -/
def State.setUnit (s : State) (t : Nat) (u : FunctionalUnit) : State :=
  match t with
  | 0 => s
  | n + 1 => { s with units := s.units.set n u }

/-- R135: `allocate(c)`: the lowest-numbered free unit of the class, or none. -/
def State.allocate (s : State) (k : UnitClass) : Option Nat :=
  (classTags s.cfg k).find? fun t => !(s.unit t).busy

/-- R166: what the broadcast of `(t, v)` does to one unit. -/
def FunctionalUnit.deliver (t : Nat) (v : Word) (u : FunctionalUnit) : FunctionalUnit :=
  if u.busy then
    { u with j := u.j.deliver t v, k := u.k.deliver t v, data := u.data.deliver t v }
  else u

/-- R166: the fan-out of `(t, v)` to every register of both files and every busy unit. -/
def State.fanOut (s : State) (t : Nat) (v : Word) : State :=
  { s with
    gpr := s.gpr.map (Register.resolve t v)
    fpr := s.fpr.map (Register.resolve t v)
    units := s.units.map (FunctionalUnit.deliver t v) }

/-- R165: publish a unit's result on the common bus. A unit in `Q_RESULT` whose opcode has a
destination always has a result (R36 item 7; log entry 9). -/
def State.publish (s : State) (t : Nat) : State :=
  match (s.unit t).result with
  | some v => { s.fanOut t v with busEvent := some (t, v) }
  | none => s

/-! ### Memory accesses -/

/-- R72, R73: `MemRead`: the value and the state after. Out of bounds: 0, `WARN[3]`, nothing else. -/
def State.memRead (s : State) (ea : Word) (w : Width) : Word × State :=
  if inBounds s.cfg ea w.bytes then
    let r := readBytes s.cfg s.mem s.lines ea.toNat w.bytes
    (extendValue w.bytes (valueOfBytes s.cfg.endian r.1), { s with lines := r.2 })
  else (0, s.warnOn .outOfRange)

/-- R75, R76: `MemWrite`. Out of bounds: `WARN[3]`, nothing else. -/
def State.memWrite (s : State) (ea : Word) (w : Width) (v : Word) : State :=
  if inBounds s.cfg ea w.bytes then
    let r := writeBytes s.cfg s.mem s.lines ea.toNat (bytesOfValue s.cfg.endian w.bytes v)
    { s with mem := r.1, lines := r.2 }
  else s.warnOn .outOfRange

/-! ### Issue -/

/-- What the Issue phase needs to know of a record (R141, R143). -/
structure IssueRequest where
  op     : Opcode
  cls    : UnitClass
  dest   : Option Reg
  j      : Source
  k      : Source
  data   : Source
  imm    : BitVec 16
  target : InstrIndex
  deriving DecidableEq, Repr

/-- The registers a request names. -/
def IssueRequest.regs (q : IssueRequest) : List Reg :=
  q.dest.toList ++ q.j.regs ++ q.k.regs ++ q.data.regs

/-- R143: a unit's fields when it is taken, before its operands are captured. -/
def FunctionalUnit.claim (u : FunctionalUnit) (q : IssueRequest) : FunctionalUnit :=
  { u with
    busy := true, op := q.op, imm := sext64 q.imm, target := q.target,
    remaining := 0, result := none, squashed := false }

/-- R143, first half: take the unit and rename the destination. -/
def State.claimUnit (s : State) (q : IssueRequest) (t : Nat) : State :=
  let s1 := s.setUnit t ((s.unit t).claim q)
  match q.dest with
  | some d => s1.rename d t
  | none => s1

/-- R143, second half: capture the operands, after the rename (R148). -/
def State.captureOperands (s : State) (q : IssueRequest) (t : Nat) : State :=
  s.setUnit t
    { s.unit t with
      j := s.captureSource q.j, k := s.captureSource q.k, data := s.captureSource q.data }

/-- R147: the record is consumed. -/
def State.enqueueIssued (s : State) (q : IssueRequest) (t : Nat) : State :=
  { s with
    qTbe := s.qTbe ++ [t]
    branchStall := s.branchStall || isBranch q.op
    pc := s.pc + 1 }

/-- R143, R146, R147: issue a record that has a class: into the lowest free unit of its class, or, when
none is free, a structural stall that only sets `WARN[1]`. A record that names a register the
configuration does not have is refused (R107). -/
def State.issue (s : State) (q : IssueRequest) : Host.Outcome State Fault Refusal :=
  if q.regs.all s.cfg.hasRegister then
    match s.allocate q.cls with
    | none => .next (s.warnOn .exhaustion)
    | some t => .next (((s.claimUnit q t).captureOperands q t).enqueueIssued q t)
  else .refused .noSuchRegister

/-! ### Completion -/

/-- Put a result into a unit. -/
def State.setResult (s : State) (t : Nat) (v : Word) : State :=
  s.setUnit t { s.unit t with result := some v }

/-- R175, R176: an arithmetic unit computes its result from its two operands; `warns` says on which
operands it raises `WARN[4]`. With an unresolved operand: `WARN[2]` and result 0. -/
def State.completeArith (s : State) (t : Nat) (warns : Word → Word → Bool)
    (f : Word → Word → Word) : State :=
  match (s.unit t).j, (s.unit t).k with
  | .resolved a, .resolved b =>
    (if warns a b then s.warnOn .arithmetic else s).setResult t (f a b)
  | _, _ => (s.warnOn .unresolved).setResult t 0

/-- R175, R176: a load reads memory. With an unresolved base: `WARN[2]` and result 0. -/
def State.completeLoad (s : State) (t : Nat) (w : Width) : State :=
  match (s.unit t).address? with
  | some ea => (s.memRead ea w).2.setResult t (s.memRead ea w).1
  | none => (s.warnOn .unresolved).setResult t 0

/-- R175, R176: a store does nothing at completion. With an unresolved base or data: `WARN[2]`, and its
service will write nothing. -/
def State.completeStore (s : State) (t : Nat) : State :=
  if (s.unit t).j.isResolved && (s.unit t).data.isResolved then s
  else (s.warnOn .unresolved).setUnit t { s.unit t with squashed := true }

/-- R167, R176: a store's deferred write, at its service. -/
def State.serviceStore (s : State) (t : Nat) (w : Width) : State :=
  match (s.unit t).squashed, (s.unit t).address?, (s.unit t).data.value? with
  | false, some ea, some v => s.memWrite ea w v
  | _, _, _ => s

/-- R175, R176, R262: a branch sets the pc if taken and always releases the front end. With an
unresolved operand: `WARN[2]`, not taken. -/
def State.completeBranch (s : State) (t : Nat) (taken : Word → Word → Bool) : State :=
  match (s.unit t).j, (s.unit t).k with
  | .resolved a, .resolved b =>
    { s with
      pc := if taken a b then (s.unit t).target else s.pc
      branchStall := false }
  | _, _ => { s.warnOn .unresolved with branchStall := false }

end Sys2Proof.Machine
end

