-- ==== Sys2Proof/Machine/Branch.lean ====
section
/-! DEFINITION. The branches (45_branch.md): BEQ and BNE. A branch stalls the front end from its issue to its
completion (R261, R262) and takes effect at its completion; its service does nothing (R168, R265). -/

namespace Sys2Proof.Machine

/-- R263: taken iff all 64 bits are equal. -/
def takenBeq (vj vk : Word) : Bool := vj == vk

/-- R264: taken iff some bit differs. -/
def takenBne (vj vk : Word) : Bool := vj != vk

/-- BEQ at issue (R263, R261, R143): into an IntAdd station; the front end stalls. -/
def execBeq (src1 src2 : Reg) (imm : BitVec 16) (target : InstrIndex) (s : State) :
    Host.Outcome State Fault Refusal :=
  s.issue
    { op := .beq, cls := .intAdd, dest := none, j := .reg src1, k := .reg src2,
      data := .value 0, imm := imm, target := target }

/-- BEQ at completion (R263, R262). -/
def completeBeq (t : Nat) (s : State) : State := s.completeBranch t takenBeq

/-- BNE at issue (R264, R261, R143): into an IntAdd station; the front end stalls. -/
def execBne (src1 src2 : Reg) (imm : BitVec 16) (target : InstrIndex) (s : State) :
    Host.Outcome State Fault Refusal :=
  s.issue
    { op := .bne, cls := .intAdd, dest := none, j := .reg src1, k := .reg src2,
      data := .value 0, imm := imm, target := target }

/-- BNE at completion (R264, R262). -/
def completeBne (t : Nat) (s : State) : State := s.completeBranch t takenBne

end Sys2Proof.Machine
end

