-- ==== Sys2Proof/Machine/Float64.lean ====
section
/-! DEFINITION. The reference numerics `NUM_IEEE` (43_fp_arith.md R226): IEEE 754 binary64, rounded to
nearest, ties to even, with subnormals. Operands are converted to exact numbers, the operation is done
exactly, and the result is rounded once. R226 marks the paragraph as general knowledge (log entry 4). -/

namespace Sys2Proof.Machine

/-- What a binary64 pattern stands for. A finite value is `(-1)^neg * m * 2^e`. -/
inductive FpValue where
  | nan
  | infinity (neg : Bool)
  | finite (neg : Bool) (m : Nat) (e : Int)
  deriving DecidableEq, Repr

/-- R226: bit 63 is the sign, bits 62..52 the exponent, bits 51..0 the fraction. -/
def fpUnpack (w : Word) : FpValue :=
  let neg := w.getLsbD 63
  let ex := (w.extractLsb' 52 11).toNat
  let fr := (w.extractLsb' 0 52).toNat
  if ex = 2047 then (if fr = 0 then .infinity neg else .nan)
  else if ex = 0 then .finite neg fr (-1074)
  else .finite neg (2 ^ 52 + fr) ((ex : Int) - 1075)

/-- The sign bit alone: a signed zero. -/
def fpZero (neg : Bool) : Word := if neg then 0x8000000000000000#64 else 0#64

/-- A signed infinity. -/
def fpInfinity (neg : Bool) : Word := fpZero neg ||| 0x7FF0000000000000#64

/-- The NaN an operation produces: exponent all ones, fraction not 0, sign and fraction free (R226). -/
def fpNan (op : NumOp) (a b : Word) : Word :=
  let bits := Config.nanBits op a b
  let fr := bits.extractLsb' 0 52
  fpZero (bits.getLsbD 52) ||| 0x7FF0000000000000#64
    ||| (if fr = 0 then 0x0008000000000000#64 else fr.setWidth 64)

/-- `n / 2^k` rounded to nearest, ties to even; `sticky` says that the exact value lies strictly between
`n` and `n + 1`. -/
def roundShift (n k : Nat) (sticky : Bool) : Nat :=
  let q := n / 2 ^ k
  let r := n % 2 ^ k
  let half := 2 ^ (k - 1)
  if half < r || (r == half && (sticky || q % 2 == 1)) then q + 1 else q

/-- The binary64 pattern nearest to `(-1)^neg * n * 2^e` (plus less than `2^e` when `sticky`), ties to
even; overflow gives an infinity. -/
def fpRound (neg : Bool) (n : Nat) (e : Int) (sticky : Bool) : Word :=
  if n = 0 then fpZero neg
  else
    let q : Int := max (e + (n.log2 : Int) - 52) (-1074)
    let m := if q ≤ e then n * 2 ^ (e - q).toNat else roundShift n (q - e).toNat sticky
    let magnitude := (q + 1074).toNat * 2 ^ 52 + m
    if 2047 * 2 ^ 52 ≤ magnitude then fpInfinity neg
    else fpZero neg ||| BitVec.ofNat 64 magnitude

/-- A signed significand as an integer. -/
def signedInt (neg : Bool) (m : Nat) : Int := if neg then -(m : Int) else (m : Int)

/-- The sum of two values; `op`, `a`, `b` select the NaN pattern. -/
def fpAddValues (op : NumOp) (a b : Word) (x y : FpValue) : Word :=
  match x, y with
  | .nan, _ => fpNan op a b
  | _, .nan => fpNan op a b
  | .infinity s, .infinity t => if s = t then fpInfinity s else fpNan op a b
  | .infinity s, .finite .. => fpInfinity s
  | .finite .., .infinity t => fpInfinity t
  | .finite s m e, .finite t n f =>
    let g := min e f
    let sum := signedInt s (m * 2 ^ (e - g).toNat) + signedInt t (n * 2 ^ (f - g).toNat)
    let neg := if sum = 0 then s && t else decide (sum < 0)
    fpRound neg sum.natAbs g false

/-- The value with its sign changed. -/
def FpValue.negate : FpValue → FpValue
  | .nan => .nan
  | .infinity s => .infinity (!s)
  | .finite s m e => .finite (!s) m e

/-- `NUM_IEEE.add`. -/
def ieeeAdd (a b : Word) : Word := fpAddValues .add a b (fpUnpack a) (fpUnpack b)

/-- `NUM_IEEE.sub`: `a` minus `b`. -/
def ieeeSub (a b : Word) : Word := fpAddValues .sub a b (fpUnpack a) (fpUnpack b).negate

/-- `NUM_IEEE.mul`. -/
def ieeeMul (a b : Word) : Word :=
  match fpUnpack a, fpUnpack b with
  | .nan, _ => fpNan .mul a b
  | _, .nan => fpNan .mul a b
  | .infinity s, .infinity t => fpInfinity (s != t)
  | .infinity s, .finite t n _ => if n = 0 then fpNan .mul a b else fpInfinity (s != t)
  | .finite s m _, .infinity t => if m = 0 then fpNan .mul a b else fpInfinity (s != t)
  | .finite s m e, .finite t n f => fpRound (s != t) (m * n) (e + f) false

/-- `NUM_IEEE.div`: `a` divided by `b`. The quotient is taken to at least 55 bits; the remainder only
matters as "not exact". DIV.D never calls it with a zero divisor (R224). -/
def ieeeDiv (a b : Word) : Word :=
  match fpUnpack a, fpUnpack b with
  | .nan, _ => fpNan .div a b
  | _, .nan => fpNan .div a b
  | .infinity _, .infinity _ => fpNan .div a b
  | .infinity s, .finite t _ _ => fpInfinity (s != t)
  | .finite s _ _, .infinity t => fpZero (s != t)
  | .finite s m e, .finite t n f =>
    if n = 0 then (if m = 0 then fpNan .div a b else fpInfinity (s != t))
    else
      let scaled := m * 2 ^ 110
      fpRound (s != t) (scaled / n) (e - f - 110) (scaled % n != 0)

/-- `NUM_IEEE.is_zero`: `b[62:0] = 0`, both signs (R226). -/
def ieeeIsZero (b : Word) : Bool := b.extractLsb' 0 63 == 0

end Sys2Proof.Machine
end

