-- ==== Sys2Proof/Machine/FpArith.lean ====
section
/-! DEFINITION. The floating-point instructions (43_fp_arith.md): ADD.D, SUB.D, MUL.D, DIV.D, over the numerics
parameter `NUM` (R220). There is no FP status register and no FP flag (R227); the only anomaly is
`WARN[4]` on DIV.D with a zero divisor. -/

namespace Sys2Proof.Machine

/-- `NUM.add` (R220). -/
def numAdd (c : Config) (a b : Word) : Word :=
  match c.num with
  | .ieee754 => ieeeAdd a b
  | .custom => Config.customAdd a b

/-- `NUM.sub` (R220). -/
def numSub (c : Config) (a b : Word) : Word :=
  match c.num with
  | .ieee754 => ieeeSub a b
  | .custom => Config.customSub a b

/-- `NUM.mul` (R220). -/
def numMul (c : Config) (a b : Word) : Word :=
  match c.num with
  | .ieee754 => ieeeMul a b
  | .custom => Config.customMul a b

/-- `NUM.div` (R220). -/
def numDiv (c : Config) (a b : Word) : Word :=
  match c.num with
  | .ieee754 => ieeeDiv a b
  | .custom => Config.customDiv a b

/-- `NUM.is_zero` (R220). -/
def numIsZero (c : Config) (b : Word) : Bool :=
  match c.num with
  | .ieee754 => ieeeIsZero b
  | .custom => Config.customIsZero b

/-- R221. -/
def resultAddD (c : Config) (vj vk : Word) : Word := numAdd c vj vk

/-- R222: `Vj` minus `Vk`. -/
def resultSubD (c : Config) (vj vk : Word) : Word := numSub c vj vk

/-- R223. -/
def resultMulD (c : Config) (vj vk : Word) : Word := numMul c vj vk

/-- R224: the all-zero pattern for a zero divisor, `Vj` divided by `Vk` otherwise. -/
def resultDivD (c : Config) (vj vk : Word) : Word := if numIsZero c vk then 0 else numDiv c vj vk

/-- R224: DIV.D raises `WARN[4]` exactly on a zero divisor. -/
def divDWarns (c : Config) (_vj vk : Word) : Bool := numIsZero c vk

/-- ADD.D at issue (R221, R228, R143): into an FpAdd station. -/
def execAddD (dest src1 src2 : Reg) (imm : BitVec 16) (target : InstrIndex) (s : State) :
    Host.Outcome State Fault Refusal :=
  s.issue
    { op := .addD, cls := .fpAdd, dest := some dest, j := .reg src1, k := .reg src2,
      data := .value 0, imm := imm, target := target }

/-- ADD.D at completion (R221, R175). -/
def completeAddD (t : Nat) (s : State) : State :=
  s.completeArith t (fun _ _ => false) (resultAddD s.cfg)

/-- SUB.D at issue (R222, R228, R143): into an FpAdd station. -/
def execSubD (dest src1 src2 : Reg) (imm : BitVec 16) (target : InstrIndex) (s : State) :
    Host.Outcome State Fault Refusal :=
  s.issue
    { op := .subD, cls := .fpAdd, dest := some dest, j := .reg src1, k := .reg src2,
      data := .value 0, imm := imm, target := target }

/-- SUB.D at completion (R222, R175). -/
def completeSubD (t : Nat) (s : State) : State :=
  s.completeArith t (fun _ _ => false) (resultSubD s.cfg)

/-- MUL.D at issue (R223, R228, R143): into an FpMul station. -/
def execMulD (dest src1 src2 : Reg) (imm : BitVec 16) (target : InstrIndex) (s : State) :
    Host.Outcome State Fault Refusal :=
  s.issue
    { op := .mulD, cls := .fpMul, dest := some dest, j := .reg src1, k := .reg src2,
      data := .value 0, imm := imm, target := target }

/-- MUL.D at completion (R223, R175). -/
def completeMulD (t : Nat) (s : State) : State :=
  s.completeArith t (fun _ _ => false) (resultMulD s.cfg)

/-- DIV.D at issue (R224, R228, R143): into an FpMul station. -/
def execDivD (dest src1 src2 : Reg) (imm : BitVec 16) (target : InstrIndex) (s : State) :
    Host.Outcome State Fault Refusal :=
  s.issue
    { op := .divD, cls := .fpMul, dest := some dest, j := .reg src1, k := .reg src2,
      data := .value 0, imm := imm, target := target }

/-- DIV.D at completion (R224, R175). -/
def completeDivD (t : Nat) (s : State) : State :=
  s.completeArith t (divDWarns s.cfg) (resultDivD s.cfg)

end Sys2Proof.Machine
end

