-- ==== Sys2Proof/Machine/IntArith.lean ====
section
/-! DEFINITION. The integer arithmetic instructions (42_int_arith.md): DADD, DSUB, DADDI, DSUBI, DMUL, DDIV.
Each has its issue (`exec…`, R200: a station is taken, the destination renamed, the operands captured),
its function of the two operand values (`result…`) and its completion (`complete…`). Dispatch and
service are common to all opcodes (Machine/Scheduler.lean). No instruction here writes a flag but
`WARN[4]`, which DDIV sets on a zero divisor (R207). -/

namespace Sys2Proof.Machine

/-- R201: `Vj + Vk` modulo 2^64. -/
def resultDadd (vj vk : Word) : Word := vj + vk

/-- R202: `Vj - Vk` modulo 2^64. -/
def resultDsub (vj vk : Word) : Word := vj - vk

/-- R203: `Vj + sext_64(imm)` modulo 2^64; slot `k` holds the extended immediate. -/
def resultDaddi (vj vk : Word) : Word := vj + vk

/-- R204: `Vj - sext_64(imm)` modulo 2^64; slot `k` holds the extended immediate. -/
def resultDsubi (vj vk : Word) : Word := vj - vk

/-- R205: the low 64 bits of the product. -/
def resultDmul (vj vk : Word) : Word := vj * vk

/-- The configuration's `int_div` (R206, D20): the signed quotient rounded toward zero, as a 64-bit
pattern, or a replacement of it (log entry 5). -/
def intDivide (c : Config) (vj vk : Word) : Word :=
  match c.intDiv with
  | .truncating => vj.sdiv vk
  | .custom => Config.customIntDiv vj vk

/-- R206: 0 for a zero divisor, the quotient otherwise. -/
def resultDdiv (c : Config) (vj vk : Word) : Word := if vk = 0 then 0 else intDivide c vj vk

/-- R206: DDIV raises `WARN[4]` exactly on a zero divisor. -/
def ddivWarns (_vj vk : Word) : Bool := decide (vk = 0)

/-- DADD at issue (R201, R143): into an IntAdd station. -/
def execDadd (dest src1 src2 : Reg) (imm : BitVec 16) (target : InstrIndex) (s : State) :
    Host.Outcome State Fault Refusal :=
  s.issue
    { op := .dadd, cls := .intAdd, dest := some dest, j := .reg src1, k := .reg src2,
      data := .value 0, imm := imm, target := target }

/-- DADD at completion (R201, R175). -/
def completeDadd (t : Nat) (s : State) : State :=
  s.completeArith t (fun _ _ => false) resultDadd

/-- DSUB at issue (R202, R143): into an IntAdd station. -/
def execDsub (dest src1 src2 : Reg) (imm : BitVec 16) (target : InstrIndex) (s : State) :
    Host.Outcome State Fault Refusal :=
  s.issue
    { op := .dsub, cls := .intAdd, dest := some dest, j := .reg src1, k := .reg src2,
      data := .value 0, imm := imm, target := target }

/-- DSUB at completion (R202, R175). -/
def completeDsub (t : Nat) (s : State) : State :=
  s.completeArith t (fun _ _ => false) resultDsub

/-- DADDI at issue (R203, R143): into an IntAdd station. -/
def execDaddi (dest src1 : Reg) (imm : BitVec 16) (target : InstrIndex) (s : State) :
    Host.Outcome State Fault Refusal :=
  s.issue
    { op := .daddi, cls := .intAdd, dest := some dest, j := .reg src1, k := .value (sext64 imm),
      data := .value 0, imm := imm, target := target }

/-- DADDI at completion (R203, R175). -/
def completeDaddi (t : Nat) (s : State) : State :=
  s.completeArith t (fun _ _ => false) resultDaddi

/-- DSUBI at issue (R204, R143): into an IntAdd station. -/
def execDsubi (dest src1 : Reg) (imm : BitVec 16) (target : InstrIndex) (s : State) :
    Host.Outcome State Fault Refusal :=
  s.issue
    { op := .dsubi, cls := .intAdd, dest := some dest, j := .reg src1, k := .value (sext64 imm),
      data := .value 0, imm := imm, target := target }

/-- DSUBI at completion (R204, R175). -/
def completeDsubi (t : Nat) (s : State) : State :=
  s.completeArith t (fun _ _ => false) resultDsubi

/-- DMUL at issue (R205, R143): into an IntMul station. -/
def execDmul (dest src1 src2 : Reg) (imm : BitVec 16) (target : InstrIndex) (s : State) :
    Host.Outcome State Fault Refusal :=
  s.issue
    { op := .dmul, cls := .intMul, dest := some dest, j := .reg src1, k := .reg src2,
      data := .value 0, imm := imm, target := target }

/-- DMUL at completion (R205, R175). -/
def completeDmul (t : Nat) (s : State) : State :=
  s.completeArith t (fun _ _ => false) resultDmul

/-- DDIV at issue (R206, R143): into an IntMul station. -/
def execDdiv (dest src1 src2 : Reg) (imm : BitVec 16) (target : InstrIndex) (s : State) :
    Host.Outcome State Fault Refusal :=
  s.issue
    { op := .ddiv, cls := .intMul, dest := some dest, j := .reg src1, k := .reg src2,
      data := .value 0, imm := imm, target := target }

/-- DDIV at completion (R206, R175). -/
def completeDdiv (t : Nat) (s : State) : State :=
  s.completeArith t ddivWarns (resultDdiv s.cfg)

end Sys2Proof.Machine
end

