-- ==== Sys2Proof/Machine/LoadStore.lean ====
section
/-! DEFINITION. The loads and stores (44_load_store.md): LW, LD, SW, SD (with the assembler aliases L.D and S.D,
which are LD and SD, R114, R247). A load reads memory at its completion (R248), a store writes memory
at its service (R249); both form the address from the base captured in slot `j` (R240). -/

namespace Sys2Proof.Machine

/-- LW at issue (R241, R143): into a load buffer. -/
def execLw (dest base : Reg) (imm : BitVec 16) (target : InstrIndex) (s : State) :
    Host.Outcome State Fault Refusal :=
  s.issue
    { op := .lw, cls := .load, dest := some dest, j := .reg base, k := .value 0,
      data := .value 0, imm := imm, target := target }

/-- LW at completion (R241, R175): a 4-byte `MemRead`. -/
def completeLw (t : Nat) (s : State) : State := s.completeLoad t .four

/-- LD at issue (R242, R143): into a load buffer. -/
def execLd (dest base : Reg) (imm : BitVec 16) (target : InstrIndex) (s : State) :
    Host.Outcome State Fault Refusal :=
  s.issue
    { op := .ld, cls := .load, dest := some dest, j := .reg base, k := .value 0,
      data := .value 0, imm := imm, target := target }

/-- LD at completion (R242, R175): a 8-byte `MemRead`. -/
def completeLd (t : Nat) (s : State) : State := s.completeLoad t .eight

/-- SW at issue (R243, R143): into a store buffer. -/
def execSw (base data : Reg) (imm : BitVec 16) (target : InstrIndex) (s : State) :
    Host.Outcome State Fault Refusal :=
  s.issue
    { op := .sw, cls := .store, dest := none, j := .reg base, k := .value 0,
      data := .reg data, imm := imm, target := target }

/-- SW at completion (R243, R175): nothing. -/
def completeSw (t : Nat) (s : State) : State := s.completeStore t

/-- SW at service (R243, R167): a 4-byte `MemWrite`; nothing is published. -/
def serviceSw (t : Nat) (s : State) : State := s.serviceStore t .four

/-- SD at issue (R244, R143): into a store buffer. -/
def execSd (base data : Reg) (imm : BitVec 16) (target : InstrIndex) (s : State) :
    Host.Outcome State Fault Refusal :=
  s.issue
    { op := .sd, cls := .store, dest := none, j := .reg base, k := .value 0,
      data := .reg data, imm := imm, target := target }

/-- SD at completion (R244, R175): nothing. -/
def completeSd (t : Nat) (s : State) : State := s.completeStore t

/-- SD at service (R244, R167): a 8-byte `MemWrite`; nothing is published. -/
def serviceSd (t : Nat) (s : State) : State := s.serviceStore t .eight

end Sys2Proof.Machine
end

