-- ==== Sys2Proof/Machine/Unknown.lean ====
section
/-! DEFINITION. The UNKNOWN record (46_unknown.md R270). The hardware has no system instruction (R271). -/

namespace Sys2Proof.Machine

/-- UNKNOWN (R142, R270): a no-operation that sets `WARN[5]` and is consumed. -/
def execUnknown (s : State) : Host.Outcome State Fault Refusal :=
  .next { s.warnOn .unknownInstr with pc := s.pc + 1 }

end Sys2Proof.Machine
end

