-- ==== Sys2Proof/Machine/Dispatch.lean ====
section
/-! DEFINITION. The meaning of a record when the Issue phase consumes it (40_issue_and_rename.md R141 to
R149), one arm per instruction. What its unit does afterwards is in Machine/Scheduler.lean, which calls
the instruction's own completion and service. -/

namespace Sys2Proof.Machine

def exec (i : Instr) (s : State) : Host.Outcome State Fault Refusal :=
  match i with
  | .unknown => Sys2Proof.Machine.execUnknown s
  | .dadd d a b imm tgt => Sys2Proof.Machine.execDadd d a b imm tgt s
  | .dsub d a b imm tgt => Sys2Proof.Machine.execDsub d a b imm tgt s
  | .daddi d a imm tgt => Sys2Proof.Machine.execDaddi d a imm tgt s
  | .dsubi d a imm tgt => Sys2Proof.Machine.execDsubi d a imm tgt s
  | .dmul d a b imm tgt => Sys2Proof.Machine.execDmul d a b imm tgt s
  | .ddiv d a b imm tgt => Sys2Proof.Machine.execDdiv d a b imm tgt s
  | .addD d a b imm tgt => Sys2Proof.Machine.execAddD d a b imm tgt s
  | .subD d a b imm tgt => Sys2Proof.Machine.execSubD d a b imm tgt s
  | .mulD d a b imm tgt => Sys2Proof.Machine.execMulD d a b imm tgt s
  | .divD d a b imm tgt => Sys2Proof.Machine.execDivD d a b imm tgt s
  | .lw d a imm tgt => Sys2Proof.Machine.execLw d a imm tgt s
  | .ld d a imm tgt => Sys2Proof.Machine.execLd d a imm tgt s
  | .sw a b imm tgt => Sys2Proof.Machine.execSw a b imm tgt s
  | .sd a b imm tgt => Sys2Proof.Machine.execSd a b imm tgt s
  | .beq a b imm tgt => Sys2Proof.Machine.execBeq a b imm tgt s
  | .bne a b imm tgt => Sys2Proof.Machine.execBne a b imm tgt s

end Sys2Proof.Machine
end

