-- ==== Sys2Proof/Machine/Scheduler.lean ====
section
/-! DEFINITION. The back half of a cycle (41_scheduler_and_cdb.md): the Writeback phase (free, arbitrate and
service), the Execute phase (classify, wake, dispatch, count down and complete), the fetch that the
Issue phase begins with, and the end of a run. -/

namespace Sys2Proof.Machine

/-! ### Writeback -/

/-- W0 (R162). -/
def State.clearBus (s : State) : State := { s with busEvent := none }

/-- W1 (R163) for one unit: every field returns to its reset value. -/
def State.freeUnit (s : State) (t : Nat) : State := s.setUnit t FunctionalUnit.reset

/-- W1 (R163): free every unit that was in `Q_CLEAR` when the phase started. -/
def State.freeCleared (s : State) : State :=
  s.qClear.foldl State.freeUnit { s with qClear := [] }

/-- W2 (R165, R167, R168): what the service of a unit does. An opcode with a destination publishes, a
store writes memory, a branch does nothing. -/
def State.service (s : State) (t : Nat) : State :=
  match (s.unit t).op with
  | .dadd | .dsub | .daddi | .dsubi | .dmul | .ddiv
  | .addD | .subD | .mulD | .divD | .lw | .ld => s.publish t
  | .sw => serviceSw t s
  | .sd => serviceSd t s
  | .beq | .bne | .unknown => s

/-- W2 (R164): service exactly one entry of `Q_RESULT`, the oldest. -/
def State.serviceOldest (s : State) : State :=
  match s.qResult with
  | [] => s
  | t :: rest =>
    let s1 := State.service { s with qResult := rest } t
    { s1 with qClear := s1.qClear ++ [t] }

/-- The Writeback phase (R162 to R168). -/
def State.writeback (s : State) : State := s.clearBus.freeCleared.serviceOldest

/-! ### Execute -/

/-- R171 for a tag. -/
def State.isReady (s : State) (t : Nat) : Bool := (s.unit t).ready

/-- E1 (R169): the ready units of `Q_TBE`, in order. -/
def State.readyIssued (s : State) : List Nat := s.qTbe.filter s.isReady

/-- E1 (R169): `Q_TBE` is emptied; its units that are not ready join `Q_WAIT`. -/
def State.classify (s : State) : State :=
  { s with qTbe := [], qWait := s.qWait ++ s.qTbe.filter fun t => !s.isReady t }

/-- E2 (R170): the waiters that are ready, in the order they entered `Q_WAIT`. -/
def State.readyWaiters (s : State) : List Nat := s.qWait.filter s.isReady

/-- E2 (R170): the woken waiters leave `Q_WAIT`. -/
def State.wake (s : State) : State :=
  { s with qWait := s.qWait.filter fun t => !s.isReady t }

/-- E3 (R172) for one unit. -/
def State.dispatchUnit (s : State) (t : Nat) : State :=
  let s1 := s.setUnit t { s.unit t with remaining := latency s.cfg s.lines (s.unit t) }
  { s1 with qExec := s1.qExec ++ [t] }

/-- R175: what a unit does when its latency has run out, by opcode. No unit in `Q_EXEC` has the opcode
UNKNOWN (log entry 8). -/
def State.complete (s : State) (t : Nat) : State :=
  match (s.unit t).op with
  | .dadd => completeDadd t s
  | .dsub => completeDsub t s
  | .daddi => completeDaddi t s
  | .dsubi => completeDsubi t s
  | .dmul => completeDmul t s
  | .ddiv => completeDdiv t s
  | .addD => completeAddD t s
  | .subD => completeSubD t s
  | .mulD => completeMulD t s
  | .divD => completeDivD t s
  | .lw => completeLw t s
  | .ld => completeLd t s
  | .sw => completeSw t s
  | .sd => completeSd t s
  | .beq => completeBeq t s
  | .bne => completeBne t s
  | .unknown => s

/-- E4 (R174), first half: one cycle of latency; a latency of 0 stays 0 (R178). -/
def State.tick (s : State) (t : Nat) : State :=
  s.setUnit t { s.unit t with remaining := (s.unit t).remaining - 1 }

/-- E4 (R174), second half: complete, then move from `Q_EXEC` to `Q_RESULT`. -/
def State.retire (s : State) (t : Nat) : State :=
  let s1 := s.complete t
  { s1 with qExec := s1.qExec.erase t, qResult := s1.qResult ++ [t] }

/-- E4 (R174) for one unit. -/
def State.countDown (s : State) (t : Nat) : State :=
  let s1 := s.tick t
  if (s1.unit t).remaining = 0 then s1.retire t else s1

/-- E3 (R172): dispatch the units of `READY` in order. -/
def State.dispatchAll (s : State) (ready : List Nat) : State := ready.foldl State.dispatchUnit s

/-- E4 (R174): every unit of `Q_EXEC`, head to tail, those just dispatched included. -/
def State.countDownAll (s : State) : State := s.qExec.foldl State.countDown s

/-- E1 to E3 (R169 to R172): classify, wake, dispatch. `READY` is local to the phase (R169): the unit of
`Q_TBE` first, then the woken waiters (R170). -/
def State.dispatched (s : State) : State :=
  s.classify.wake.dispatchAll (s.readyIssued ++ s.classify.readyWaiters)

/-- The Execute phase (R169 to R178). -/
def State.execute (s : State) : State := s.dispatched.countDownAll

/-! ### The Issue phase's condition and fetch; the end of a cycle -/

/-- R140, R141: the record the Issue phase consumes: `IMEM[pc]`, if the front end was not stalled when
the cycle started and the pc lies in the program. -/
def State.fetch (s : State) (stalledAtStart : Bool) : Option Record :=
  if stalledAtStart then none else s.imem[s.pc.toNat]?

/-- R160: `cycle <- cycle + 1`. -/
def State.endCycle (s : State) : State := { s with cycle := s.cycle + 1 }

/-- R180: `is_finished()`. -/
def State.isFinished (s : State) : Bool :=
  decide (s.imem.length ≤ s.pc.toNat) && s.units.all (fun u => !u.busy) &&
    s.qTbe.isEmpty && s.qWait.isEmpty && s.qExec.isEmpty && s.qResult.isEmpty && s.qClear.isEmpty

/-- The state with record `w` at the place where the next cycle's Issue phase will fetch, and with the
front end not stalled, so that the very next cycle issues `w` (log entry 10). The Writeback and Execute
phases read neither `IMEM` nor the stall bit, so the place is the pc they leave. -/
def State.placeRecord (s : State) (w : Record) : State :=
  let unstalled := { s with branchStall := false }
  let fetchIndex := unstalled.writeback.execute.pc.toNat
  let padded := unstalled.imem ++ List.replicate (fetchIndex + 1 - unstalled.imem.length) (0 : Record)
  { unstalled with imem := padded.set fetchIndex w }

end Sys2Proof.Machine
end

