-- ==== Sys2Proof/Machine/Step.lean ====
section
/-! DEFINITION. One cycle (41_scheduler_and_cdb.md R160). -/

namespace Sys2Proof.Machine

/-- The Issue phase (R149): nothing when there is no record to consume, else the record's meaning; then
the cycle is counted (R160). -/
def State.issuePhase (s : State) (stalledAtStart : Bool) : Host.Outcome State Fault Refusal :=
  match s.fetch stalledAtStart with
  | none => .next s.endCycle
  | some w =>
    match exec (decode w) s with
    | .next s' => .next s'.endCycle
    | .fault r => .fault r
    | .refused r => .refused r

/-- `advance_cycle()` (R160, R301): Writeback, then Execute, then Issue with the stall bit as it was at
the start of the cycle. A configuration or program that is not admitted is refused (U6, U8). -/
def step (s : State) : Host.Outcome State Fault Refusal :=
  match s.admission with
  | some r => .refused r
  | none => s.writeback.execute.issuePhase s.branchStall

/-- `s` with the record whose low `nbits` bits are those of `w` placed where the next step fetches. -/
def State.withFetchWord (s : State) (nbits w : Nat) : State := s.placeRecord (recordOfBits nbits w)

end Sys2Proof.Machine
end

