-- ==== Sys2Proof/Machine/HostInterface.lean ====
section
/-! DEFINITION. What the host does to the block (60_exceptions.md R300 to R305, 70_reset_and_hazards.md R310,
R312): configure and reset, preload, observe. `advance_cycle()` is `step` (Machine/Step.lean). -/

namespace Sys2Proof.Machine

/-- R310, R312 (1) to (3): reset with a configuration and a program, refused when they are not admitted
(U6, U8). -/
def bootWith (c : Config) (program : List Record) : Host.Outcome State Fault Refusal :=
  match admission c program with
  | some r => .refused r
  | none => .next (State.resetWith c program)

/-- R312 (4): write the value field of a register before the first cycle. -/
def State.preloadRegister (s : State) (r : Reg) (v : Word) : Host.Outcome State Fault Refusal :=
  if s.cycle ≠ 0 then .refused .hostWriteDuringRun
  else if !s.cfg.hasRegister r then .refused .noSuchRegister
  else .next (s.setReg r { s.reg r with value := v })

/-- R312 (4): write a byte of `MEM` before the first cycle. The cache is cold and stays so. -/
def State.preloadByte (s : State) (a : Nat) (b : Byte) : Host.Outcome State Fault Refusal :=
  if s.cycle ≠ 0 then .refused .hostWriteDuringRun
  else if s.cfg.memSize ≤ a then .refused .noSuchByte
  else .next { s with mem := s.mem.write a b }

/-- R303: a snapshot is a copy of all of the state, and taking it changes nothing. -/
def State.snapshot (s : State) : State := s

/-- The stage of a unit (R27, R181), derived from the queues: never a field of its own (C10). -/
inductive Stage where
  | free
  | tbe
  | wait
  | exec
  | result
  | clear
  deriving DecidableEq, Repr

/-- R27: the stage of the unit with tag `t`. -/
def State.stage (s : State) (t : Nat) : Stage :=
  if s.qTbe.contains t then .tbe
  else if s.qWait.contains t then .wait
  else if s.qExec.contains t then .exec
  else if s.qResult.contains t then .result
  else if s.qClear.contains t then .clear
  else .free

/-- The outputs of the wrapper that R305 suggests (no rule depends on it). `clk` is a step and `rst` is
`bootWith`. -/
structure Ports where
  imemAddr : InstrIndex
  imemData : Option Record
  progLen  : Nat
  finished : Bool
  /-- `warn[5:1]`: bit `c - 1` is `WARN[c]`. -/
  warn     : BitVec 5
  cdbValid : Bool
  cdbTag   : Nat
  cdbValue : Word
  deriving DecidableEq, Repr

/-- R305: the suggested outputs as a function of the state. When nothing was published, `cdb_valid` is
0 and the two bus values are shown as 0 (log entry 11). -/
def State.ports (s : State) : Ports where
  imemAddr := s.pc
  imemData := s.imem[s.pc.toNat]?
  progLen := s.imem.length
  finished := s.isFinished
  warn := BitVec.ofBool s.warn.unknownInstr ++ BitVec.ofBool s.warn.arithmetic ++
    BitVec.ofBool s.warn.outOfRange ++ BitVec.ofBool s.warn.unresolved ++
    BitVec.ofBool s.warn.exhaustion
  cdbValid := s.busEvent.isSome
  cdbTag := (s.busEvent.map Prod.fst).getD 0
  cdbValue := (s.busEvent.map Prod.snd).getD 0

end Sys2Proof.Machine
end

