-- ==== Sys2Proof/Safety.lean ====
section
/-! DEFINITION. The terms that claims about the machine use: the invariants of 10_state.md R36 and
20_memory.md R79, what an issue leaves (R143 to R148), an idle machine, and a run without anomalies
(60_exceptions.md R280). -/

namespace Sys2Proof.Machine

/-! ### Shape -/

/-- The arrays have the sizes R20 gives them. -/
structure State.Shaped (s : State) : Prop where
  gprSize : s.gpr.length = s.cfg.nGpr
  fprSize : s.fpr.length = s.cfg.nFpr
  unitsSize : s.units.length = unitCount s.cfg
  linesSize : s.lines.length = cacheLineCount s.cfg

/-! ### Cache and memory (R33, R34, R79) -/

/-- `{tag, index, offset}` as an address (R63): the number whose three fields these are. -/
def composeAddress (c : Config) (tag index offset : Nat) : Nat :=
  (tag * cacheLineCount c + index) * c.blockSize + offset

/-- One line has the form of R33. -/
structure LineWf (c : Config) (l : CacheLine) : Prop where
  dataSize : l.data.length = c.blockSize
  tagFits : l.tag < 2 ^ tagBits c

/-- R79, R36 item 8: every valid line equals its block of memory. -/
def Coherent (c : Config) (m : Memory) (lines : List CacheLine) : Prop :=
  ∀ i o, i < cacheLineCount c → o < c.blockSize → (lineAt c lines i).valid = true →
    (lineAt c lines i).data.getD o 0 = m.read (composeAddress c (lineAt c lines i).tag i o)

/-- The line array has the form of R33, the memory that of R34, and they agree (R79). -/
structure CacheOk (c : Config) (m : Memory) (lines : List CacheLine) : Prop where
  linesSize : lines.length = cacheLineCount c
  linesWf : ∀ l ∈ lines, LineWf c l
  memWf : m.wf = true
  memBelow : m.below c.memSize = true
  coherent : Coherent c m lines

/-- The cache and memory of a state are as R33, R34 and R79 say. -/
def State.CacheInv (s : State) : Prop := CacheOk s.cfg s.mem s.lines

/-! ### Scheduler (R36) -/

/-- The five queues joined (R27). -/
def State.queued (s : State) : List Nat := s.qTbe ++ s.qWait ++ s.qExec ++ s.qResult ++ s.qClear

/-- R36 items 1, 2, 3 and 6: a unit is busy exactly when its tag is in one queue, once; at most one tag
is in `Q_TBE`; a free unit has every field at its reset value (D24). -/
structure State.QueueInv (s : State) : Prop where
  once : s.queued.Nodup
  busyIff : ∀ t, (s.unit t).busy = true ↔ t ∈ s.queued
  freeReset : ∀ t, (s.unit t).busy = false → s.unit t = FunctionalUnit.reset
  oneIssued : s.qTbe.length ≤ 1

/-- R36 item 4: a tag that something may wait on: its unit's opcode has a destination and it has not been
serviced. -/
def State.Outstanding (s : State) (t : Nat) : Prop :=
  hasDest (s.unit t).op = true ∧ t ∈ s.qTbe ++ s.qWait ++ s.qExec ++ s.qResult

/-- Whether one of a unit's three slots is `Pending(t)`. -/
def FunctionalUnit.waitsOn (u : FunctionalUnit) (t : Nat) : Prop :=
  u.j = .pending t ∨ u.k = .pending t ∨ u.data = .pending t

/-- R36 items 4, 5 and 7, with R25: a queued unit holds an opcode of its own class. -/
structure State.DependencyInv (s : State) : Prop where
  ownClass : ∀ t ∈ s.queued, ∃ k, opcodeClass (s.unit t).op = some k ∧ t ∈ classTags s.cfg k
  producers : ∀ r, (s.reg r).producer ≠ 0 → s.Outstanding (s.reg r).producer
  slots : ∀ u t, (s.unit u).waitsOn t → u ∈ s.qTbe ++ s.qWait ∧ s.Outstanding t
  results : ∀ t ∈ s.qResult, hasDest (s.unit t).op = true → (s.unit t).result ≠ none
  unsquashed : ∀ t, (s.unit t).squashed = false

/-- R30: the stall bit is set exactly while a branch is in flight before its completion, and at most one
is. -/
def State.BranchInv (s : State) : Prop :=
  ((s.qTbe ++ s.qWait ++ s.qExec).filter fun t => isBranch (s.unit t).op).length =
    if s.branchStall then 1 else 0

/-- Everything that holds at every cycle boundary of a run (R36, R79, R30). -/
structure State.Inv (s : State) : Prop where
  admitted : s.admission = none
  shaped : s.Shaped
  cache : s.CacheInv
  queue : s.QueueInv
  dependency : s.DependencyInv
  branch : s.BranchInv

/-- A state the host may start from (R310, R312): the reset state of an admitted configuration and program
in which register values and memory bytes have been preloaded. -/
structure State.Fresh (s : State) : Prop where
  admitted : s.admission = none
  gprSize : s.gpr.length = s.cfg.nGpr
  fprSize : s.fpr.length = s.cfg.nFpr
  noProducer : ∀ r, (s.reg r).producer = 0
  memWf : s.mem.wf = true
  memBelow : s.mem.below s.cfg.memSize = true
  restReset : s =
    { State.resetWith s.cfg s.imem with gpr := s.gpr, fpr := s.fpr, mem := s.mem }

/-! ### Issue -/

/-- R144, R148: what a slot holds after the destination was renamed to `t`: the unit's own tag when the
source is the destination, else the capture of the register as it was. -/
def State.slotFor (s : State) (dest : Option Reg) (t : Nat) (r : Reg) : Operand :=
  if dest = some r then .pending t else s.capture r

/-- What a successful issue into unit `t` leaves (R143, R147): the unit's fields, the renamed destination,
the queue, the pc and the stall bit; everything else is unchanged. -/
structure IssuedAs (s s' : State) (t : Nat) (op : Opcode) (dest : Option Reg)
    (j k data : Operand) (imm : BitVec 16) (target : InstrIndex) : Prop where
  unitTaken : s'.unit t =
    { busy := true, op := op, j := j, k := k, data := data, imm := sext64 imm, target := target,
      remaining := 0, result := none, squashed := false }
  otherUnits : ∀ u, u ≠ t → s'.unit u = s.unit u
  registers : ∀ r, s'.reg r =
    if dest = some r then { s.reg r with producer := t } else s.reg r
  tbe : s'.qTbe = s.qTbe ++ [t]
  pc : s'.pc = s.pc + 1
  stall : s'.branchStall = (s.branchStall || isBranch op)
  cfg : s'.cfg = s.cfg
  imem : s'.imem = s.imem
  wait : s'.qWait = s.qWait
  exec : s'.qExec = s.qExec
  result : s'.qResult = s.qResult
  clear : s'.qClear = s.qClear
  warn : s'.warn = s.warn
  busEvent : s'.busEvent = s.busEvent
  lines : s'.lines = s.lines
  mem : s'.mem = s.mem
  cycle : s'.cycle = s.cycle

/-- What completing a unit may not touch: everything but the named unit, the flags, the lines, the pc and
the stall bit. -/
structure SameOutsideUnit (s s' : State) (t : Nat) : Prop where
  cfg : s'.cfg = s.cfg
  imem : s'.imem = s.imem
  gpr : s'.gpr = s.gpr
  fpr : s'.fpr = s.fpr
  otherUnits : ∀ u, u ≠ t → s'.unit u = s.unit u
  tbe : s'.qTbe = s.qTbe
  wait : s'.qWait = s.qWait
  exec : s'.qExec = s.qExec
  result : s'.qResult = s.qResult
  clear : s'.qClear = s.qClear
  busEvent : s'.busEvent = s.busEvent
  mem : s'.mem = s.mem
  cycle : s'.cycle = s.cycle

/-! ### An instruction alone in the machine -/

/-- No unit is busy, every queue is empty and the front end is not stalled. -/
structure State.Idle (s : State) : Prop where
  unitsFree : ∀ t, s.unit t = FunctionalUnit.reset
  queuesEmpty : s.queued = []
  noProducer : ∀ r, (s.reg r).producer = 0
  running : s.branchStall = false

/-- The function of the two operand values that an arithmetic opcode computes (R201 to R206, R221 to
R224); `none` for the other opcodes. -/
def arithmeticResult (c : Config) (op : Opcode) (a b : Word) : Option Word :=
  match op with
  | .dadd => some (resultDadd a b)
  | .dsub => some (resultDsub a b)
  | .daddi => some (resultDaddi a b)
  | .dsubi => some (resultDsubi a b)
  | .dmul => some (resultDmul a b)
  | .ddiv => some (resultDdiv c a b)
  | .addD => some (resultAddD c a b)
  | .subD => some (resultSubD c a b)
  | .mulD => some (resultMulD c a b)
  | .divD => some (resultDivD c a b)
  | .unknown | .lw | .ld | .sw | .sd | .beq | .bne => none

/-- Whether an arithmetic opcode raises `WARN[4]` on these operands (R206, R224). -/
def arithmeticWarns (c : Config) (op : Opcode) (a b : Word) : Bool :=
  match op with
  | .ddiv => ddivWarns a b
  | .divD => divDWarns c a b
  | _ => false

/-- R62 as the spec writes it: the `n` bytes at `ea`, read as a signed integer, lie in `MEM`. -/
def State.accessInBounds (s : State) (ea : Word) (n : Nat) : Prop :=
  0 ≤ ea.toInt ∧ ea.toInt + (n : Int) ≤ (s.cfg.memSize : Int)

/-- R63, R78: some byte of the `n` bytes at `ea` lies in a block whose line is the one with index `i`. -/
def touchesLine (c : Config) (ea : Word) (n i : Nat) : Prop :=
  ∃ k, k < n ∧ indexOf c (ea.toNat + k) = i

/-- The value of the memory bytes at `p .. p + n - 1` (R71), sign-extended (R72): what a load of `n` bytes
returns when it is in bounds (R79). -/
def State.memoryValue (s : State) (p n : Nat) : Word :=
  extendValue n
    (valueOfBytes s.cfg.endian ((List.range n).map fun k => s.mem.read (p + k)))

/-- The values an arithmetic instruction works on when every register it reads is resolved: its two source
registers, or its source register and its extended immediate (R200, R203). -/
def State.operandValues (s : State) : Instr → Option (Word × Word)
  | .dadd _ a b .. | .dsub _ a b .. | .dmul _ a b .. | .ddiv _ a b ..
  | .addD _ a b .. | .subD _ a b .. | .mulD _ a b .. | .divD _ a b .. =>
    some ((s.reg a).value, (s.reg b).value)
  | .daddi _ a imm _ | .dsubi _ a imm _ => some ((s.reg a).value, sext64 imm)
  | .unknown | .lw .. | .ld .. | .sw .. | .sd .. | .beq .. | .bne .. => none

/-- R174, R175: what the completion of a unit `u` makes of it (`u'`) in an Execute phase from `s` to `s'`,
when its operands are resolved: an arithmetic unit takes its result, and `WARN[4]` is set if it must be; a
load takes the memory value, or 0 with `WARN[3]` set out of bounds; a store takes nothing; a branch releases
the front end. -/
structure RetiredAs (s s' : State) (u u' : FunctionalUnit) : Prop where
  arithmetic : ∀ a b v, u.j = .resolved a → u.k = .resolved b →
    arithmeticResult s.cfg u.op a b = some v →
    u' = { u with remaining := 0, result := some v } ∧
    (arithmeticWarns s.cfg u.op a b = true → s'.warn.arithmetic = true)
  load : ∀ base n, configAdmissible s.cfg = true → s.CacheInv → u.j = .resolved base →
    (u.op = .lw ∧ n = 4 ∨ u.op = .ld ∧ n = 8) →
    (s.accessInBounds (base + u.imm) n →
      u' = { u with
        remaining := 0, result := some (s.memoryValue (base + u.imm).toNat n) }) ∧
    (¬ s.accessInBounds (base + u.imm) n →
      u' = { u with remaining := 0, result := some 0 } ∧ s'.warn.outOfRange = true)
  store : ∀ base v, u.j = .resolved base → u.data = .resolved v →
    (u.op = .sw ∨ u.op = .sd) → u' = { u with remaining := 0 }
  branch : ∀ a b, u.j = .resolved a → u.k = .resolved b → isBranch u.op = true →
    u' = { u with remaining := 0 } ∧ s'.branchStall = false

/-- R172: the latency of an arithmetic opcode. -/
def arithmeticLatency (c : Config) : Opcode → Nat
  | .dadd | .dsub | .daddi | .dsubi => c.latIntAdd
  | .dmul | .ddiv => c.latIntMulDiv
  | .addD | .subD => c.latFpAdd
  | .mulD => c.latFpMul
  | .divD => c.latFpDiv
  | .unknown | .lw | .ld | .sw | .sd | .beq | .bne => 0

/-- R172: the hit or miss term at an address: a hit needs an address of `MEM` whose line is valid and
holds its tag (R66, R67). -/
def State.accessTerm (s : State) (ea : Word) : Nat :=
  if 0 ≤ ea.toInt ∧ ea.toInt < (s.cfg.memSize : Int) ∧
      (lineAt s.cfg s.lines (indexOf s.cfg ea.toNat)).valid = true ∧
      (lineAt s.cfg s.lines (indexOf s.cfg ea.toNat)).tag = tagOf s.cfg ea.toNat
  then s.cfg.hitLat else s.cfg.missPenalty

/-- What one instruction leaves when it has run alone to its end on an idle machine: idle again, at `pc`,
`n` cycles later, with flags `warn`; the program and the configuration as they were. -/
structure EndsAlone (s s' : State) (n : Nat) (pc : InstrIndex) (warn : Warnings) : Prop where
  idle : s'.Idle
  pc : s'.pc = pc
  warn : s'.warn = warn
  busEvent : s'.busEvent = none
  cycle : s'.cycle = s.cycle + n
  cfg : s'.cfg = s.cfg
  imem : s'.imem = s.imem

/-! ### Runs -/

/-- R320: an instruction does not name its own destination as a source. -/
def selfDependent (i : Instr) : Bool :=
  match i.dest with
  | some d => i.sources.contains d
  | none => false

/-- R280: what a caller that wants a fault outcome looks at: no flag of code 2 to 5 is set. `WARN[1]` is a
status, not an error (R31). -/
def State.anomalyFree (s : State) : Bool :=
  !s.warn.unresolved && !s.warn.outOfRange && !s.warn.arithmetic && !s.warn.unknownInstr

/-! ### Ignored fields -/

/-- An instruction with the fields its row of R104 marks as ignored set to 0. -/
def eraseIgnoredFields : Instr → Instr
  | .unknown => .unknown
  | .dadd d a b _ _ => .dadd d a b 0 0
  | .dsub d a b _ _ => .dsub d a b 0 0
  | .daddi d a imm _ => .daddi d a imm 0
  | .dsubi d a imm _ => .dsubi d a imm 0
  | .dmul d a b _ _ => .dmul d a b 0 0
  | .ddiv d a b _ _ => .ddiv d a b 0 0
  | .addD d a b _ _ => .addD d a b 0 0
  | .subD d a b _ _ => .subD d a b 0 0
  | .mulD d a b _ _ => .mulD d a b 0 0
  | .divD d a b _ _ => .divD d a b 0 0
  | .lw d a imm _ => .lw d a imm 0
  | .ld d a imm _ => .ld d a imm 0
  | .sw a b imm _ => .sw a b imm 0
  | .sd a b imm _ => .sd a b imm 0
  | .beq a b _ target => .beq a b 0 target
  | .bne a b _ target => .bne a b 0 target

/-- A unit without the copies of the record fields that its opcode does not use (R106): the immediate
matters to loads and stores only, the target to branches only. -/
def FunctionalUnit.eraseIgnored (u : FunctionalUnit) : FunctionalUnit :=
  { u with
    imm := match opcodeClass u.op with
      | some .load | some .store => u.imm
      | _ => 0
    target := if isBranch u.op then u.target else 0 }

/-- The state without those copies. -/
def State.eraseIgnored (s : State) : State :=
  { s with units := s.units.map FunctionalUnit.eraseIgnored }

/-- Two states that differ at most in ignored fields: of the records of the program, and of the copies the
units hold. -/
structure SameButIgnored (s s' : State) : Prop where
  program : s.imem.map (fun w => eraseIgnoredFields (decode w)) =
    s'.imem.map (fun w => eraseIgnoredFields (decode w))
  rest : { s.eraseIgnored with imem := [] } = { s'.eraseIgnored with imem := [] }

/-- An outcome with its next state changed by `f`. -/
def mapNext (f : State → State) (o : Host.Outcome State Fault Refusal) :
    Host.Outcome State Fault Refusal :=
  match o with
  | .next s => .next (f s)
  | .fault r => .fault r
  | .refused r => .refused r

end Sys2Proof.Machine
end

