-- ==== Sys2Proof/Certificates/Slice0/Obligations.lean ====
section
/-! DEFINITION. The statements about the machine, for the provers. Each docstring names the rules of spec/ that
the statement formalises. -/

open Sys2Proof Sys2Proof.Machine

/-! ### The record word -/

/-- R100, R101, R104: decoding what the encoder writes gives the instruction back, whatever its operands. -/
def Obligations.DecodeOfEncode : Prop := ∀ i : Instr, decode (encode i) = i

/-- R100, R101, R104: where each field of a record stands, what a register field names, and which opcode number
selects which instruction. The three reserved pairs, and the register fields an opcode does not use, are
read by nothing (R106). That every instruction but UNKNOWN carries the `imm` and `target` fields, also where
R104 marks them as ignored, is the model's own (log entry 6). The encoder writes the reserved pairs 0. -/
def Obligations.DecodeReadsEveryField : Prop :=
  (∀ (d a b : BitVec 6) (x y z : BitVec 2) (imm : BitVec 16) (target : InstrIndex),
    let reg : BitVec 6 → Reg := fun f => ⟨if f.getLsbD 5 then .fpr else .gpr, f.setWidth 5⟩
    let word : BitVec 8 → Record := fun op => target ++ imm ++ z ++ b ++ y ++ a ++ x ++ d ++ op
    decode (word 0x01) = .dadd (reg d) (reg a) (reg b) imm target ∧
    decode (word 0x02) = .dsub (reg d) (reg a) (reg b) imm target ∧
    decode (word 0x03) = .daddi (reg d) (reg a) imm target ∧
    decode (word 0x04) = .dsubi (reg d) (reg a) imm target ∧
    decode (word 0x05) = .dmul (reg d) (reg a) (reg b) imm target ∧
    decode (word 0x06) = .ddiv (reg d) (reg a) (reg b) imm target ∧
    decode (word 0x07) = .addD (reg d) (reg a) (reg b) imm target ∧
    decode (word 0x08) = .subD (reg d) (reg a) (reg b) imm target ∧
    decode (word 0x09) = .mulD (reg d) (reg a) (reg b) imm target ∧
    decode (word 0x0A) = .divD (reg d) (reg a) (reg b) imm target ∧
    decode (word 0x0B) = .lw (reg d) (reg a) imm target ∧
    decode (word 0x0C) = .ld (reg d) (reg a) imm target ∧
    decode (word 0x0D) = .sw (reg a) (reg b) imm target ∧
    decode (word 0x0E) = .sd (reg a) (reg b) imm target ∧
    decode (word 0x0F) = .beq (reg a) (reg b) imm target ∧
    decode (word 0x10) = .bne (reg a) (reg b) imm target) ∧
  ∀ i : Instr, encode i &&& 0x00000000C0C0C000#64 = 0#64

/-- R109: the decoder is total, and exactly the opcode values outside `0x01 .. 0x10` are UNKNOWN: a
no-operation with `WARN[5]`, in every state. -/
def Obligations.UndefinedOpcodesAreUnknown : Prop :=
  ∀ w : Record,
    (decode w = .unknown ↔
      (w.extractLsb' 0 8).toNat = 0 ∨ 0x11 ≤ (w.extractLsb' 0 8).toNat) ∧
    ((w.extractLsb' 0 8).toNat = 0 ∨ 0x11 ≤ (w.extractLsb' 0 8).toNat →
      ∀ s : State, exec (decode w) s =
        .next { s with warn := { s.warn with unknownInstr := true }, pc := s.pc + 1 })

/-- R116: the seven worked encodings. -/
def Obligations.SampleRecordsDecode : Prop :=
  decode 0x0000000500010203#64 = .daddi ⟨.gpr, 2⟩ ⟨.gpr, 1⟩ 5 0 ∧
  decode 0x0000000023222107#64 = .addD ⟨.fpr, 1⟩ ⟨.fpr, 2⟩ ⟨.fpr, 3⟩ 0 0 ∧
  decode 0x0000000025242108#64 = .subD ⟨.fpr, 1⟩ ⟨.fpr, 4⟩ ⟨.fpr, 5⟩ 0 0 ∧
  decode 0x000000000101000F#64 = .beq ⟨.gpr, 1⟩ ⟨.gpr, 1⟩ 0 0 ∧
  decode 0x0000FFF80003040C#64 = .ld ⟨.gpr, 4⟩ ⟨.gpr, 3⟩ 0xFFF8 0 ∧
  decode 0x000000102201000E#64 = .sd ⟨.gpr, 1⟩ ⟨.fpr, 2⟩ 16 0 ∧
  decode 0x0003000000050010#64 = .bne ⟨.gpr, 5⟩ ⟨.gpr, 0⟩ 0 3

/-! ### The allocator and the Issue phase -/

/-- R25, R136: the tags `1 .. N_UNITS` are shared out among the classes, each tag to exactly one. -/
def Obligations.UnitClassesPartitionTags : Prop :=
  ∀ (c : Config) (t : Nat),
    (1 ≤ t ∧ t ≤ unitCount c ↔ ∃ k, t ∈ classTags c k) ∧
    ∀ k k', t ∈ classTags c k → t ∈ classTags c k' → k = k'

/-- R135: the allocator answers the lowest-numbered free unit of the class, `Busy` if there is none; a unit
freed in phase W is free in phase I of the same cycle. -/
def Obligations.AllocatorTakesLowestFree : Prop :=
  (∀ (s : State) (k : UnitClass),
    (∀ t, s.allocate k = some t ↔
      t ∈ classTags s.cfg k ∧ (s.unit t).busy = false ∧
        ∀ u ∈ classTags s.cfg k, u < t → (s.unit u).busy = true) ∧
    (s.allocate k = none ↔ ∀ u ∈ classTags s.cfg k, (s.unit u).busy = true)) ∧
  ∀ (s : State) (t : Nat), t ∈ s.qClear → (s.writeback.execute.unit t).busy = false

/-- R143, R144, R147, R148 for DADD and DSUB: with a free IntAdd station the instruction issues into the one
the allocator names. `IssuedAs` is the whole next state: the station, the renamed destination, the two
captured slots, `Q_TBE`, the pc; everything else as before. -/
def Obligations.IntAddIssues : Prop :=
  ∀ (s : State) (d a b : Reg) (imm : BitVec 16) (target : InstrIndex) (t : Nat),
    s.Shaped → s.cfg.hasRegister d = true → s.cfg.hasRegister a = true → s.cfg.hasRegister b = true →
    s.allocate .intAdd = some t →
    (∃ s', exec (.dadd d a b imm target) s = .next s' ∧
      IssuedAs s s' t .dadd (some d) (s.slotFor (some d) t a) (s.slotFor (some d) t b)
        (.resolved 0) imm target) ∧
    ∃ s', exec (.dsub d a b imm target) s = .next s' ∧
      IssuedAs s s' t .dsub (some d) (s.slotFor (some d) t a) (s.slotFor (some d) t b)
        (.resolved 0) imm target

/-- R143, R144, R147, R148 for DADDI and DSUBI: slot `k` takes the sign-extended immediate (R102, R203,
R204). -/
def Obligations.ImmediateArithmeticIssues : Prop :=
  ∀ (s : State) (d a : Reg) (imm : BitVec 16) (target : InstrIndex) (t : Nat),
    s.Shaped → s.cfg.hasRegister d = true → s.cfg.hasRegister a = true →
    s.allocate .intAdd = some t →
    (∃ s', exec (.daddi d a imm target) s = .next s' ∧
      IssuedAs s s' t .daddi (some d) (s.slotFor (some d) t a) (.resolved (imm.signExtend 64))
        (.resolved 0) imm target) ∧
    ∃ s', exec (.dsubi d a imm target) s = .next s' ∧
      IssuedAs s s' t .dsubi (some d) (s.slotFor (some d) t a) (.resolved (imm.signExtend 64))
        (.resolved 0) imm target

/-- R143, R144, R147, R148 for DMUL and DDIV: into an IntMul station. -/
def Obligations.IntMulIssues : Prop :=
  ∀ (s : State) (d a b : Reg) (imm : BitVec 16) (target : InstrIndex) (t : Nat),
    s.Shaped → s.cfg.hasRegister d = true → s.cfg.hasRegister a = true → s.cfg.hasRegister b = true →
    s.allocate .intMul = some t →
    (∃ s', exec (.dmul d a b imm target) s = .next s' ∧
      IssuedAs s s' t .dmul (some d) (s.slotFor (some d) t a) (s.slotFor (some d) t b)
        (.resolved 0) imm target) ∧
    ∃ s', exec (.ddiv d a b imm target) s = .next s' ∧
      IssuedAs s s' t .ddiv (some d) (s.slotFor (some d) t a) (s.slotFor (some d) t b)
        (.resolved 0) imm target

/-- R143, R144, R147, R148, R228 for ADD.D, SUB.D (an FpAdd station) and MUL.D, DIV.D (an FpMul station). -/
def Obligations.FpArithmeticIssues : Prop :=
  ∀ (s : State) (d a b : Reg) (imm : BitVec 16) (target : InstrIndex) (t : Nat),
    s.Shaped → s.cfg.hasRegister d = true → s.cfg.hasRegister a = true → s.cfg.hasRegister b = true →
    (s.allocate .fpAdd = some t →
      (∃ s', exec (.addD d a b imm target) s = .next s' ∧
        IssuedAs s s' t .addD (some d) (s.slotFor (some d) t a) (s.slotFor (some d) t b)
          (.resolved 0) imm target) ∧
      ∃ s', exec (.subD d a b imm target) s = .next s' ∧
        IssuedAs s s' t .subD (some d) (s.slotFor (some d) t a) (s.slotFor (some d) t b)
          (.resolved 0) imm target) ∧
    (s.allocate .fpMul = some t →
      (∃ s', exec (.mulD d a b imm target) s = .next s' ∧
        IssuedAs s s' t .mulD (some d) (s.slotFor (some d) t a) (s.slotFor (some d) t b)
          (.resolved 0) imm target) ∧
      ∃ s', exec (.divD d a b imm target) s = .next s' ∧
        IssuedAs s s' t .divD (some d) (s.slotFor (some d) t a) (s.slotFor (some d) t b)
          (.resolved 0) imm target)

/-- R143, R144, R147, R148, R241, R242 for LW and LD: into a load buffer; slot `j` is the base. -/
def Obligations.LoadIssues : Prop :=
  ∀ (s : State) (d base : Reg) (imm : BitVec 16) (target : InstrIndex) (t : Nat),
    s.Shaped → s.cfg.hasRegister d = true → s.cfg.hasRegister base = true →
    s.allocate .load = some t →
    (∃ s', exec (.lw d base imm target) s = .next s' ∧
      IssuedAs s s' t .lw (some d) (s.slotFor (some d) t base) (.resolved 0) (.resolved 0)
        imm target) ∧
    ∃ s', exec (.ld d base imm target) s = .next s' ∧
      IssuedAs s s' t .ld (some d) (s.slotFor (some d) t base) (.resolved 0) (.resolved 0)
        imm target

/-- R143, R144, R147, R243, R244 for SW and SD: into a store buffer; nothing is renamed; slot `j` is the base,
the data slot the data register. -/
def Obligations.StoreIssues : Prop :=
  ∀ (s : State) (base data : Reg) (imm : BitVec 16) (target : InstrIndex) (t : Nat),
    s.Shaped → s.cfg.hasRegister base = true → s.cfg.hasRegister data = true →
    s.allocate .store = some t →
    (∃ s', exec (.sw base data imm target) s = .next s' ∧
      IssuedAs s s' t .sw none (s.capture base) (.resolved 0) (s.capture data) imm target) ∧
    ∃ s', exec (.sd base data imm target) s = .next s' ∧
      IssuedAs s s' t .sd none (s.capture base) (.resolved 0) (s.capture data) imm target

/-- R143, R144, R147, R261 for BEQ and BNE: into an IntAdd station; nothing is renamed; the stall bit is
set. -/
def Obligations.BranchIssues : Prop :=
  ∀ (s : State) (a b : Reg) (imm : BitVec 16) (target : InstrIndex) (t : Nat),
    s.Shaped → s.cfg.hasRegister a = true → s.cfg.hasRegister b = true →
    s.allocate .intAdd = some t →
    (∃ s', exec (.beq a b imm target) s = .next s' ∧ s'.branchStall = true ∧
      IssuedAs s s' t .beq none (s.capture a) (s.capture b) (.resolved 0) imm target) ∧
    ∃ s', exec (.bne a b imm target) s = .next s' ∧ s'.branchStall = true ∧
      IssuedAs s s' t .bne none (s.capture a) (s.capture b) (.resolved 0) imm target

/-- R142: UNKNOWN sets `WARN[5]`, moves the pc on and changes nothing else, in every state. -/
def Obligations.UnknownIsNoOperation : Prop :=
  ∀ s : State, exec .unknown s =
    .next { s with warn := { s.warn with unknownInstr := true }, pc := s.pc + 1 }

/-- R146: when every unit of the class is busy, the record is not consumed: `WARN[1]` is set and nothing else
changes, so the same record is at the pc in the next cycle. -/
def Obligations.NoFreeUnitStalls : Prop :=
  ∀ (s : State) (i : Instr) (k : UnitClass),
    opcodeClass i.opcode = some k → i.wellFormed s.cfg = true →
    (∀ u ∈ classTags s.cfg k, (s.unit u).busy = true) →
    exec i s = .next { s with warn := { s.warn with exhaustion := true } }

/-- R107: which registers exist, which of them an instruction uses, and that a program with a record that uses
an absent one is refused before the first cycle. -/
def Obligations.AbsentRegisterIsRefused : Prop :=
  (∀ (c : Config) (r : Reg), c.hasRegister r = true ↔
    r.index.toNat < (match r.file with | .gpr => c.nGpr | .fpr => c.nFpr)) ∧
  (∀ (c : Config) (i : Instr), i.wellFormed c = true ↔
    (∀ r, i.dest = some r → c.hasRegister r = true) ∧ ∀ r ∈ i.sources, c.hasRegister r = true) ∧
  ∀ (c : Config) (p : List Record), bootWith c p = .refused .noSuchRegister ↔
    configAdmissible c = true ∧ p.length ≤ 65535 ∧ ∃ w ∈ p, (decode w).wellFormed c = false

/-- The model's own (log entry 12): an instruction's meaning is refused exactly when it uses a register the
configuration does not have; in every other case it answers a next state. -/
def Obligations.OnlyAbsentRegistersAreRefusedAtIssue : Prop :=
  ∀ (i : Instr) (s : State),
    (∀ r : Refusal, exec i s = .refused r ↔ r = .noSuchRegister ∧ i.wellFormed s.cfg = false) ∧
    ((∃ s', exec i s = .next s') ↔ i.wellFormed s.cfg = true)

/-! ### One cycle -/

/-- R141, R160: when the front end is not stalled and a record stands at the pc, a step is the Writeback and
Execute phases, then the decoded instruction's own meaning, then the count of the cycle. -/
def Obligations.StepRunsDecodedInstruction : Prop :=
  ∀ (s : State) (w : Record) (i : Instr),
    s.admission = none → s.branchStall = false →
    s.imem[s.writeback.execute.pc.toNat]? = some w → decode w = i →
    step s = mapNext State.endCycle (exec i s.writeback.execute)

/-- R140: when the front end was stalled at the start of the cycle, or no record stands at the pc, the Issue
phase changes nothing; and it consumes at most one record: the pc moves by at most one and at most one unit
is taken. -/
def Obligations.IssueNeedsARunningFrontEnd : Prop :=
  (∀ s : State, s.admission = none →
    (s.branchStall = true ∨ s.imem.length ≤ s.writeback.execute.pc.toNat) →
    step s = .next s.writeback.execute.endCycle) ∧
  ∀ s s' : State, step s = .next s' →
    (s'.pc = s.writeback.execute.pc ∨ s'.pc = s.writeback.execute.pc + 1) ∧
    (s'.qTbe = [] ∨ ∃ t, s'.qTbe = [t])

/-- R280, R301: every step of an admitted machine answers a next state. That a step refuses a configuration or
program that is not admitted is the model's own (log entry 12): the spec refuses such inputs before the
first cycle (R107, U6, U8). -/
def Obligations.AdmittedStepAnswers : Prop :=
  ∀ s : State,
    ((∃ s', step s = .next s') ↔ s.admission = none) ∧
    ∀ r, step s = .refused r ↔ s.admission = some r

/-- R20, R35, R86: a step writes neither the configuration nor the program, and counts one cycle. -/
def Obligations.StepKeepsItsInputs : Prop :=
  ∀ s s' : State, step s = .next s' →
    s'.cfg = s.cfg ∧ s'.imem = s.imem ∧ s'.cycle = s.cycle + 1

/-- The model's own (log entry 10): a record placed by `withFetchWord` is the record the very next step
consumes. -/
def Obligations.PlacedRecordIsConsumedNext : Prop :=
  ∀ (s : State) (nbits w : Nat),
    (s.withFetchWord nbits w).admission = none →
    step (s.withFetchWord nbits w) =
      mapNext State.endCycle
        (exec (decode (recordOfBits nbits w)) (s.withFetchWord nbits w).writeback.execute)

/-! ### Completion -/

/-- R201 to R205: what the integer additions, subtractions and the multiplication put into their unit, and
that their completion does nothing else. -/
def Obligations.IntegerResults : Prop :=
  ∀ (s : State) (t : Nat) (a b : Word),
    (s.unit t).j = .resolved a → (s.unit t).k = .resolved b →
    ((s.unit t).op = .dadd → s.complete t = s.setResult t (BitVec.ofNat 64 (a.toNat + b.toNat))) ∧
    ((s.unit t).op = .daddi → s.complete t = s.setResult t (BitVec.ofNat 64 (a.toNat + b.toNat))) ∧
    ((s.unit t).op = .dsub → s.complete t = s.setResult t (BitVec.ofInt 64 (a.toInt - b.toInt))) ∧
    ((s.unit t).op = .dsubi → s.complete t = s.setResult t (BitVec.ofInt 64 (a.toInt - b.toInt))) ∧
    ((s.unit t).op = .dmul → s.complete t = s.setResult t (BitVec.ofNat 64 (a.toNat * b.toNat))) ∧
    ((s.unit t).op = .dmul → s.complete t = s.setResult t (BitVec.ofInt 64 (a.toInt * b.toInt)))

/-- R206: DDIV. A zero divisor sets `WARN[4]` and gives 0; otherwise the signed quotient rounded toward zero,
as a 64-bit pattern, or the configuration's replacement of it. -/
def Obligations.DivideResult : Prop :=
  ∀ (s : State) (t : Nat) (a b : Word),
    (s.unit t).j = .resolved a → (s.unit t).k = .resolved b → (s.unit t).op = .ddiv →
    (b = 0 → s.complete t = (s.warnOn .arithmetic).setResult t 0) ∧
    (b ≠ 0 → s.cfg.intDiv = .truncating →
      s.complete t = s.setResult t (BitVec.ofInt 64 (a.toInt.tdiv b.toInt))) ∧
    (b ≠ 0 → s.cfg.intDiv = .custom → s.complete t = s.setResult t (Config.customIntDiv a b))

/-- R220 to R224, R226: each FP result is one application of the configuration's `NUM`; DIV.D by a zero sets
`WARN[4]` and gives the all-zero pattern. Each function of `NUM` is that of `NUM_IEEE` in the reference
configuration's choice (log entry 4), and the free function of its own name in any other (log entry 3). -/
def Obligations.FpResults : Prop :=
  (∀ (c : Config) (a b : Word),
    (c.num = .ieee754 →
      numAdd c a b = ieeeAdd a b ∧ numSub c a b = ieeeSub a b ∧ numMul c a b = ieeeMul a b ∧
      numDiv c a b = ieeeDiv a b ∧ numIsZero c b = ieeeIsZero b) ∧
    (c.num = .custom →
      numAdd c a b = Config.customAdd a b ∧ numSub c a b = Config.customSub a b ∧
      numMul c a b = Config.customMul a b ∧ numDiv c a b = Config.customDiv a b ∧
      numIsZero c b = Config.customIsZero b)) ∧
  ∀ (s : State) (t : Nat) (a b : Word),
    (s.unit t).j = .resolved a → (s.unit t).k = .resolved b →
    ((s.unit t).op = .addD → s.complete t = s.setResult t (numAdd s.cfg a b)) ∧
    ((s.unit t).op = .subD → s.complete t = s.setResult t (numSub s.cfg a b)) ∧
    ((s.unit t).op = .mulD → s.complete t = s.setResult t (numMul s.cfg a b)) ∧
    ((s.unit t).op = .divD → numIsZero s.cfg b = false →
      s.complete t = s.setResult t (numDiv s.cfg a b)) ∧
    ((s.unit t).op = .divD → numIsZero s.cfg b = true →
      s.complete t = (s.warnOn .arithmetic).setResult t 0)

/-- R226 (general knowledge, log entry 4): the rounding of `NUM_IEEE` goes to the nearest multiple of the
last place, and to the even one of two that are equally near; with `sticky`, to the multiple that is nearest
to every value strictly between `n` and `n + 1`, which has no tie. A number `n * 2^e` that is not 0 is rounded
so at the place `q`, 52 below its leading bit but not below -1074, and packed: exponent and fraction of the
rounded value, or the infinity from `2^1024` on. The pattern stands for exactly the rounded value. An exact 0
keeps its sign, and a finite value that a pattern stands for rounds to that pattern. -/
def Obligations.ReferenceRoundsToNearestEven : Prop :=
  (∀ n k : Nat, 1 ≤ k →
    2 * (n - roundShift n k false * 2 ^ k) ≤ 2 ^ k ∧
    2 * (roundShift n k false * 2 ^ k - n) ≤ 2 ^ k ∧
    (2 * (n - roundShift n k false * 2 ^ k) = 2 ^ k ∨
      2 * (roundShift n k false * 2 ^ k - n) = 2 ^ k → roundShift n k false % 2 = 0) ∧
    2 * (n + 1 - roundShift n k true * 2 ^ k) ≤ 2 ^ k ∧
    2 * (roundShift n k true * 2 ^ k - n) ≤ 2 ^ k) ∧
  (∀ (neg : Bool) (n : Nat) (e : Int) (sticky : Bool), n ≠ 0 →
    let q : Int := max (e + (n.log2 : Int) - 52) (-1074)
    let m := if q ≤ e then n * 2 ^ (e - q).toNat else roundShift n (q - e).toNat sticky
    let magnitude := (q + 1074).toNat * 2 ^ 52 + m
    (q ≤ e → sticky = false) →
    (fpRound neg n e sticky).toNat = neg.toNat * 2 ^ 63 + min magnitude (2047 * 2 ^ 52) ∧
    (2047 * 2 ^ 52 ≤ magnitude ↔ 971 < q ∨ q = 971 ∧ m = 2 ^ 53) ∧
    (2047 * 2 ^ 52 ≤ magnitude → fpUnpack (fpRound neg n e sticky) = .infinity neg) ∧
    (magnitude < 2047 * 2 ^ 52 →
      ∃ m' f, fpUnpack (fpRound neg n e sticky) = .finite neg m' f ∧
        (m' = m ∧ f = q ∨ 2 * m' = m ∧ f = q + 1))) ∧
  (∀ (neg : Bool) (e : Int) (sticky : Bool), fpRound neg 0 e sticky = fpZero neg) ∧
  ∀ (w : Word) (neg : Bool) (m : Nat) (e : Int),
    fpUnpack w = .finite neg m e → fpRound neg m e false = w

/-- R226 (general knowledge, log entry 4): the results of `NUM_IEEE` on finite operands. Each is the exact result
rounded once: the product; the quotient by a number that is not 0, cut to any `k >= 110` binary places with the
remainder as `sticky`; the sum and the difference, taken over any common exponent `g`, an exact 0 having the
sign both operands agree on and being plus otherwise. The product does not depend on the order of its
operands, unless it is a NaN, whose pattern is left open. `is_zero` holds of the two zeros only. -/
def Obligations.ReferenceProductCommutes : Prop :=
  (∀ (a b : Word) (s t : Bool) (m n : Nat) (e f : Int),
    fpUnpack a = .finite s m e → fpUnpack b = .finite t n f →
    ieeeMul a b = fpRound (s != t) (m * n) (e + f) false ∧
    (n ≠ 0 → ∀ k : Nat, 110 ≤ k →
      ieeeDiv a b = fpRound (s != t) (m * 2 ^ k / n) (e - f - k) (decide (m * 2 ^ k % n ≠ 0))) ∧
    ∀ g : Int, g ≤ e → g ≤ f →
      let x := signedInt s (m * 2 ^ (e - g).toNat)
      let y := signedInt t (n * 2 ^ (f - g).toNat)
      ieeeAdd a b =
        (if x + y = 0 then fpZero (s && t) else fpRound (decide (x + y < 0)) (x + y).natAbs g false) ∧
      ieeeSub a b =
        (if x - y = 0 then fpZero (s && !t)
          else fpRound (decide (x - y < 0)) (x - y).natAbs g false)) ∧
  (∀ a b : Word, fpUnpack (ieeeMul a b) ≠ .nan → ieeeMul a b = ieeeMul b a) ∧
  ∀ b : Word, ieeeIsZero b = true ↔ b = 0 ∨ b = 0x8000000000000000#64

/-- R72, R73, R79, R175, R241, R242: the completion of a load. In bounds, its unit takes the sign-extended
value of the memory bytes at base plus offset, cache hit or not; no flag, no register, no byte of memory,
no other unit changes, the cache stays coherent, and a line in which no byte of the access lies is as before
(R68, R70). Out of bounds: result 0, `WARN[3]`, nothing else. -/
def Obligations.LoadCompletes : Prop :=
  ∀ (s : State) (t : Nat) (base : Word),
    configAdmissible s.cfg = true → s.CacheInv → t ≠ 0 → t ≤ s.units.length →
    (s.unit t).j = .resolved base →
    ∀ (op : Opcode) (n : Nat), (op = .lw ∧ n = 4 ∨ op = .ld ∧ n = 8) → (s.unit t).op = op →
      let ea := base + (s.unit t).imm
      (s.accessInBounds ea n →
        SameOutsideUnit s (s.complete t) t ∧ (s.complete t).CacheInv ∧
        (s.complete t).pc = s.pc ∧ (s.complete t).branchStall = s.branchStall ∧
        (s.complete t).warn = s.warn ∧
        (s.complete t).unit t = { s.unit t with result := some (s.memoryValue ea.toNat n) } ∧
        ∀ i, ¬ touchesLine s.cfg ea n i →
          lineAt s.cfg (s.complete t).lines i = lineAt s.cfg s.lines i) ∧
      (¬ s.accessInBounds ea n → s.complete t = (s.warnOn .outOfRange).setResult t 0)

/-- R75, R76, R167, R175, R243, R244: a store does nothing at its completion; its service writes the low bytes
of its data at base plus offset and no other byte, leaves registers, units, queues, flags, pc as they are,
the cache coherent and every line in which no byte of the access lies as it was. Out of bounds: `WARN[3]`,
nothing else. -/
def Obligations.StoreCompletesAndIsServiced : Prop :=
  ∀ (s : State) (t : Nat) (base v : Word),
    configAdmissible s.cfg = true → s.CacheInv →
    (s.unit t).j = .resolved base → (s.unit t).data = .resolved v → (s.unit t).squashed = false →
    ∀ (op : Opcode) (n : Nat), (op = .sw ∧ n = 4 ∨ op = .sd ∧ n = 8) → (s.unit t).op = op →
      let ea := base + (s.unit t).imm
      s.complete t = s ∧
      (s.accessInBounds ea n →
        (∀ p, (s.service t).mem.read p =
          if ea.toNat ≤ p ∧ p < ea.toNat + n
          then (match s.cfg.endian with
            | .little => v.extractLsb' (8 * (p - ea.toNat)) 8
            | .big => v.extractLsb' (8 * (n - 1 - (p - ea.toNat))) 8)
          else s.mem.read p) ∧
        s.service t = { s with mem := (s.service t).mem, lines := (s.service t).lines } ∧
        (s.service t).CacheInv ∧
        ∀ i, ¬ touchesLine s.cfg ea n i →
          lineAt s.cfg (s.service t).lines i = lineAt s.cfg s.lines i) ∧
      (¬ s.accessInBounds ea n → s.service t = s.warnOn .outOfRange)

/-- R77, R80: at every in-bounds address, aligned or not, reading what was just written gives it back,
sign-extended from the access width, and raises nothing. -/
def Obligations.StoreThenLoadGivesTheValue : Prop :=
  ∀ (s : State) (ea v : Word), configAdmissible s.cfg = true → s.CacheInv →
    (s.accessInBounds ea 4 →
      ((s.memWrite ea .four v).memRead ea .four).1 = (v.setWidth 32).signExtend 64 ∧
      ((s.memWrite ea .four v).memRead ea .four).2.warn = s.warn) ∧
    (s.accessInBounds ea 8 →
      ((s.memWrite ea .eight v).memRead ea .eight).1 = v ∧
      ((s.memWrite ea .eight v).memRead ea .eight).2.warn = s.warn)

/-- R71: a 4-byte read at the address of an 8-byte datum sees its low half when `little`, its high half when
`big`. -/
def Obligations.HalfOfADatumFollowsByteOrder : Prop :=
  ∀ (s : State) (ea v : Word), configAdmissible s.cfg = true → s.CacheInv →
    s.accessInBounds ea 8 →
    ((s.memWrite ea .eight v).memRead ea .four).1 =
      match s.cfg.endian with
      | .little => (v.extractLsb' 0 32).signExtend 64
      | .big => (v.extractLsb' 32 32).signExtend 64

/-- R79, R81: the cache is invisible to values: two machines with the same memory and different coherent
lines read the same and raise the same flags. -/
def Obligations.CacheIsInvisibleToValues : Prop :=
  ∀ (s : State) (lines : List CacheLine) (ea : Word) (w : Width),
    configAdmissible s.cfg = true → s.CacheInv → State.CacheInv { s with lines := lines } →
    (s.memRead ea w).1 = (State.memRead { s with lines := lines } ea w).1 ∧
    (s.memRead ea w).2.warn = (State.memRead { s with lines := lines } ea w).2.warn

/-- R75, R80: after an in-bounds read, and after an in-bounds write (write-allocate), a lookup of its address
hits, if the blocks it touches number at most `CACHE_LINES`. Whatever their number, a lookup of its byte `k`
hits if the blocks from that byte's on number at most `CACHE_LINES`, as those of the last byte always do. An
access of more blocks than there are lines evicts its own first block (R78): that R80 is read with this
bound is the model's inference (log entry 18). -/
def Obligations.ReadMakesItsBlockResident : Prop :=
  ∀ (s : State) (ea v : Word) (w : Width), configAdmissible s.cfg = true → s.CacheInv →
    s.accessInBounds ea w.bytes →
    (ea.toNat % s.cfg.blockSize + w.bytes ≤ cacheLineCount s.cfg * s.cfg.blockSize →
      lookupAddress s.cfg (s.memRead ea w).2.lines ea = true ∧
      lookupAddress s.cfg (s.memWrite ea w v).lines ea = true) ∧
    ∀ k, k < w.bytes →
      (ea.toNat + k) % s.cfg.blockSize + (w.bytes - k) ≤ cacheLineCount s.cfg * s.cfg.blockSize →
      lookup s.cfg (s.memRead ea w).2.lines (ea.toNat + k) = true ∧
      lookup s.cfg (s.memWrite ea w v).lines (ea.toNat + k) = true

/-- R175, R262, R263, R264: a branch sets the pc to its target if taken, keeps it otherwise, and releases the
front end either way; nothing else changes. -/
def Obligations.BranchCompletes : Prop :=
  ∀ (s : State) (t : Nat) (a b : Word),
    (s.unit t).j = .resolved a → (s.unit t).k = .resolved b →
    ((s.unit t).op = .beq → s.complete t =
      { s with pc := if a = b then (s.unit t).target else s.pc, branchStall := false }) ∧
    ((s.unit t).op = .bne → s.complete t =
      { s with pc := if a = b then s.pc else (s.unit t).target, branchStall := false })

/-! ### Writeback -/

/-- R163: every unit that was in `Q_CLEAR` returns to its reset value and leaves it; the unit serviced in this
cycle takes its place and stays busy. -/
def Obligations.ClearedUnitsAreFreed : Prop :=
  ∀ s : State,
    (∀ t ∈ s.qClear, s.writeback.unit t = FunctionalUnit.reset) ∧
    s.writeback.qClear = s.qResult.take 1 ∧
    ∀ t, t ∉ s.qClear → (s.writeback.unit t).busy = (s.unit t).busy

/-- R162, R164, R165, R167, R168: the Writeback phase services the oldest entry of `Q_RESULT` and no other, and
the bus shows exactly what that entry published. What the registers, the units that are not freed, memory,
lines and flags hold afterwards is what the service of that entry leaves of them, and the rest of the cycle
writes no memory. With nothing to service they are unchanged. -/
def Obligations.OneServicePerCycle : Prop :=
  ∀ s : State, s.QueueInv →
    s.writeback.qResult = s.qResult.drop 1 ∧
    (s.qResult = [] → s.writeback.busEvent = none ∧ (∀ r, s.writeback.reg r = s.reg r) ∧
      (∀ u, s.writeback.unit u = if u ∈ s.qClear then FunctionalUnit.reset else s.unit u) ∧
      s.writeback.mem = s.mem ∧ s.writeback.lines = s.lines ∧ s.writeback.warn = s.warn) ∧
    ∀ t rest, s.qResult = t :: rest →
      (hasDest (s.unit t).op = true → ∀ v, (s.unit t).result = some v →
        s.writeback.busEvent = some (t, v)) ∧
      (hasDest (s.unit t).op = false → s.writeback.busEvent = none) ∧
      (∀ r, s.writeback.reg r = (s.service t).reg r) ∧
      (∀ u, s.writeback.unit u =
        if u ∈ s.qClear then FunctionalUnit.reset else (s.service t).unit u) ∧
      s.writeback.mem = (s.service t).mem ∧ s.writeback.lines = (s.service t).lines ∧
      s.writeback.warn = (s.service t).warn ∧
      ∀ s', step s = .next s' → s'.mem = (s.service t).mem

/-- R132, R166: the service of a unit with a destination publishes its result: every register that waits for
this tag takes the value, every other register is unchanged whatever it waits for; so for the slots of
busy units; no unit moves between queues and nothing else changes. -/
def Obligations.BroadcastReachesEveryWaiter : Prop :=
  ∀ (s : State) (t : Nat) (v : Word),
    t ≠ 0 → hasDest (s.unit t).op = true → (s.unit t).result = some v →
    (∀ r, (s.service t).reg r =
      if (s.reg r).producer = t then { value := v, producer := 0 } else s.reg r) ∧
    (∀ u, (s.service t).unit u =
      if (s.unit u).busy = true then
        { s.unit u with
          j := if (s.unit u).j = .pending t then .resolved v else (s.unit u).j
          k := if (s.unit u).k = .pending t then .resolved v else (s.unit u).k
          data := if (s.unit u).data = .pending t then .resolved v else (s.unit u).data }
      else s.unit u) ∧
    s.service t =
      { s with gpr := (s.service t).gpr, fpr := (s.service t).fpr, units := (s.service t).units,
               busEvent := some (t, v) }

/-- R325, R36: when a unit is about to be freed, no register and no operand slot holds its tag. -/
def Obligations.FreedTagIsHeldByNothing : Prop :=
  ∀ s : State, s.QueueInv → s.DependencyInv → ∀ t ∈ s.qClear,
    (∀ r, (s.reg r).producer ≠ t) ∧ ∀ u, ¬ (s.unit u).waitsOn t

/-! ### Execute -/

/-- R169, R170, R171: the Execute phase empties `Q_TBE`; the units of `Q_TBE` and `Q_WAIT` that are not ready
wait, in order; the ready ones are dispatched, the newly issued first; ready means all three slots hold
values. -/
def Obligations.ReadyUnitsAreDispatched : Prop :=
  (∀ (s : State) (t : Nat), s.isReady t = true ↔
    ∃ a b c, (s.unit t).j = .resolved a ∧ (s.unit t).k = .resolved b ∧
      (s.unit t).data = .resolved c) ∧
  ∀ s : State,
    s.dispatched.qExec = s.qExec ++ s.qTbe.filter s.isReady ++ s.qWait.filter s.isReady ∧
    s.execute.qTbe = [] ∧
    s.execute.qWait = (s.qWait ++ s.qTbe).filter fun t => !s.isReady t

/-- R172: the remaining latency of every unit that is dispatched, by opcode; a load or store adds the hit or the
miss term, looked up at base plus offset in the lines as they are; a unit that is not dispatched is
unchanged; the dispatched units join `Q_EXEC` in order. -/
def Obligations.DispatchSetsLatency : Prop :=
  (∀ s : State,
    s.dispatched.qExec = s.qExec ++ s.qTbe.filter s.isReady ++ s.qWait.filter s.isReady) ∧
  ∀ (s : State) (t : Nat), t ≠ 0 → t ≤ s.units.length →
    (t ∈ s.qTbe ++ s.qWait → s.isReady t = true → ∀ base, (s.unit t).j = .resolved base →
      ∃ n, s.dispatched.unit t = { s.unit t with remaining := n } ∧
        match (s.unit t).op with
        | .dadd | .dsub | .daddi | .dsubi | .beq | .bne => n = s.cfg.latIntAdd
        | .dmul | .ddiv => n = s.cfg.latIntMulDiv
        | .addD | .subD => n = s.cfg.latFpAdd
        | .mulD => n = s.cfg.latFpMul
        | .divD => n = s.cfg.latFpDiv
        | .lw | .ld => n = s.cfg.latLoad + s.accessTerm (base + (s.unit t).imm)
        | .sw | .sd => n = s.cfg.latStore + s.accessTerm (base + (s.unit t).imm)
        | .unknown => True) ∧
    (¬ (t ∈ s.qTbe ++ s.qWait ∧ s.isReady t = true) → s.dispatched.unit t = s.unit t)

/-- R174, R175, R177, R178: in the Execute phase every unit of `Q_EXEC`, those just dispatched included, counts
one cycle; those with at most one cycle left complete and enter `Q_RESULT` in `Q_EXEC` order, the others keep
all but their counter. However many complete together, each takes its own result (`RetiredAs`). No register
and no byte of memory changes. The pc stays unless a branch that is taken completes, and is then the target of
one that does. -/
def Obligations.LatencyCountsDown : Prop :=
  ∀ s : State, s.dispatched.qExec.Nodup → (∀ t ∈ s.dispatched.qExec, t ≠ 0 ∧ t ≤ s.units.length) →
    s.execute.qExec =
      s.dispatched.qExec.filter (fun t => decide (2 ≤ (s.dispatched.unit t).remaining)) ∧
    s.execute.qResult = s.qResult ++
      s.dispatched.qExec.filter (fun t => decide ((s.dispatched.unit t).remaining ≤ 1)) ∧
    (∀ t ∈ s.execute.qExec, s.execute.unit t =
      { s.dispatched.unit t with remaining := (s.dispatched.unit t).remaining - 1 }) ∧
    (∀ r, s.execute.reg r = s.reg r) ∧ s.execute.mem = s.mem ∧
    (s.execute.pc = s.pc ∨
      ∃ t ∈ s.dispatched.qExec, (s.dispatched.unit t).remaining ≤ 1 ∧
        s.execute.pc = (s.dispatched.unit t).target ∧
        ∃ a b, (s.dispatched.unit t).j = .resolved a ∧ (s.dispatched.unit t).k = .resolved b ∧
          ((s.dispatched.unit t).op = .beq ∧ a = b ∨ (s.dispatched.unit t).op = .bne ∧ a ≠ b)) ∧
    ((∀ t ∈ s.dispatched.qExec, (s.dispatched.unit t).remaining ≤ 1 →
      isBranch (s.dispatched.unit t).op = false) → s.execute.pc = s.pc) ∧
    ∀ t ∈ s.dispatched.qExec, (s.dispatched.unit t).remaining ≤ 1 →
      RetiredAs s s.execute (s.dispatched.unit t) (s.execute.unit t) ∧
      ∀ a b, (s.dispatched.unit t).j = .resolved a → (s.dispatched.unit t).k = .resolved b →
        (∀ u ∈ s.dispatched.qExec, isBranch (s.dispatched.unit u).op = true → u = t) →
        s.execute.pc =
          if (s.dispatched.unit t).op = .beq ∧ a = b ∨ (s.dispatched.unit t).op = .bne ∧ a ≠ b
          then (s.dispatched.unit t).target else s.pc

/-- R182: a unit whose blocking operands all wait for the unit that is published in this cycle begins to
execute in this same cycle. -/
def Obligations.WaiterWakesInTheSameCycle : Prop :=
  ∀ (s s' : State) (p t : Nat) (rest : List Nat),
    s.Inv → s.qResult = p :: rest → hasDest (s.unit p).op = true → t ∈ s.qWait →
    (∀ x, (s.unit t).waitsOn x → x = p) → step s = .next s' →
    t ∉ s'.qWait ∧ (t ∈ s'.qExec ∨ t ∈ s'.qResult)

/-! ### Invariants -/

/-- R36, R37: the machine right after reset meets the invariant (in the reference configuration, the model's
choice of log entry 2). -/
def Obligations.ResetMeetsInvariant : Prop := State.reset.Inv

/-- R36, R304, R312: every admitted machine meets the invariant after reset and any preload. `Fresh` is what the
host can reach before the first cycle: a reset state is fresh, and so is a fresh state after the preload of a
register value or a memory byte, which writes that value field or byte and changes nothing else. That a
preload of an absent register or byte, or after the first cycle, is a refusal is the
model's form of R304 (log entry 16). -/
def Obligations.PreloadedResetMeetsInvariant : Prop :=
  (∀ s : State, s.Fresh → s.Inv) ∧
  (∀ (c : Config) (p : List Record) (s : State), bootWith c p = .next s → s.Fresh) ∧
  (∀ (s : State) (r : Reg) (v : Word), s.Fresh →
    ((∃ s', s.preloadRegister r v = .next s') ↔ s.cfg.hasRegister r = true) ∧
    ∀ s', s.preloadRegister r v = .next s' →
      s'.Fresh ∧ s'.cfg = s.cfg ∧ s'.imem = s.imem ∧ s'.mem = s.mem ∧
      ∀ r', s'.reg r' = if r' = r then { value := v, producer := 0 } else s.reg r') ∧
  (∀ (s : State) (a : Nat) (b : Byte), s.Fresh →
    ((∃ s', s.preloadByte a b = .next s') ↔ a < s.cfg.memSize) ∧
    ∀ s', s.preloadByte a b = .next s' →
      s'.Fresh ∧ s'.cfg = s.cfg ∧ s'.imem = s.imem ∧ (∀ r, s'.reg r = s.reg r) ∧
      ∀ p, s'.mem.read p = if p = a then b else s.mem.read p) ∧
  ∀ (s : State) (r : Reg) (v : Word) (a : Nat) (b : Byte), s.cycle ≠ 0 →
    s.preloadRegister r v = .refused .hostWriteDuringRun ∧
    s.preloadByte a b = .refused .hostWriteDuringRun

/-- R36, R79, R30, R176: every step keeps the invariant: sizes, coherence of cache and memory and the memory's
canonical form, queue exclusivity, dependency tags, the stall bit; and the defensive check of R176 never fires:
no step sets `WARN[2]`. -/
def Obligations.StepKeepsInvariant : Prop :=
  ∀ s s' : State, s.Inv → step s = .next s' →
    s'.Inv ∧ s'.warn.unresolved = s.warn.unresolved

/-- R36, R176, R280: from a preloaded reset state the machine runs for ever, keeps the invariant at every cycle
boundary, and never sets `WARN[2]`. -/
def Obligations.RunsNeverStopAndKeepInvariant : Prop :=
  ∀ (s : State) (n : Nat), s.Fresh →
    ∃ s', core.run n s = .next s' ∧ s'.Inv ∧ s'.warn.unresolved = false

/-- R181: the only moves of a unit's stage from one cycle boundary to the next. -/
def Obligations.StagesMoveAsListed : Prop :=
  ∀ (s s' : State) (t : Nat), s.Inv → step s = .next s' →
    match s.stage t with
    | .free => s'.stage t = .free ∨ s'.stage t = .tbe
    | .tbe => s'.stage t = .wait ∨ s'.stage t = .exec ∨ s'.stage t = .result
    | .wait => s'.stage t = .wait ∨ s'.stage t = .exec ∨ s'.stage t = .result
    | .exec => s'.stage t = .exec ∨ s'.stage t = .result
    | .result => s'.stage t = .result ∨ s'.stage t = .clear
    | .clear => s'.stage t = .free ∨ s'.stage t = .tbe

/-- R148, R320: an instruction that names its destination as a source issues into a unit that waits on its own
tag; such a unit waits for ever and the run never finishes. -/
def Obligations.SelfDependentUnitWaitsForEver : Prop :=
  (∀ (s s' : State) (i : Instr) (k : UnitClass) (t : Nat),
    s.Shaped → selfDependent i = true → opcodeClass i.opcode = some k → s.allocate k = some t →
    exec i s = .next s' → (s'.unit t).waitsOn t) ∧
  ∀ (s s' : State) (t n : Nat), s.Inv → (s.unit t).waitsOn t → core.run n s = .next s' →
    (s'.unit t).waitsOn t ∧ (s'.unit t).busy = true ∧ s'.isFinished = false

/-- R180: what a finished state is, and that a step on it changes nothing but the cycle count and the bus
event. -/
def Obligations.FinishedStateIsStable : Prop :=
  ∀ s : State,
    (s.isFinished = true ↔
      s.imem.length ≤ s.pc.toNat ∧ (∀ t, (s.unit t).busy = false) ∧ s.queued = []) ∧
    (s.isFinished = true → s.admission = none →
      step s = .next { s with busEvent := none, cycle := s.cycle + 1 })

/-! ### What each kind of state can be changed by -/

/-- R21, R38, R133: over a step, a register's value changes only by the broadcast of the very unit it waits
for. -/
def Obligations.RegisterChangesOnlyByItsProducer : Prop :=
  ∀ (s s' : State) (r : Reg), step s = .next s' → (s'.reg r).value ≠ (s.reg r).value →
    (s.reg r).producer ≠ 0 ∧ s'.busEvent = some ((s.reg r).producer, (s'.reg r).value)

/-- R38, R83, R84: over a step, a byte of memory changes only by the service of a store, the oldest entry of
`Q_RESULT`, whose in-bounds access covers that byte; a cache line changes only by such a service or by the
completion of a load, whose in-bounds access has a byte in that line. -/
def Obligations.MemoryChangesOnlyByAStoreService : Prop :=
  (∀ (s s' : State) (p : Nat), step s = .next s' → s'.mem.read p ≠ s.mem.read p →
    ∃ t rest ea n, s.qResult = t :: rest ∧ (s.unit t).address? = some ea ∧
      ((s.unit t).op = .sw ∧ n = 4 ∨ (s.unit t).op = .sd ∧ n = 8) ∧
      s.accessInBounds ea n ∧ ea.toNat ≤ p ∧ p < ea.toNat + n) ∧
  ∀ (s s' : State) (i : Nat), s.Inv → step s = .next s' →
    lineAt s.cfg s'.lines i ≠ lineAt s.cfg s.lines i →
    ∃ t ea n, s.accessInBounds ea n ∧ touchesLine s.cfg ea n i ∧
      ((∃ rest, s.qResult = t :: rest ∧ (s.unit t).address? = some ea ∧
          ((s.unit t).op = .sw ∧ n = 4 ∨ (s.unit t).op = .sd ∧ n = 8)) ∨
        let u := s.writeback.dispatched.unit t
        t ∈ s.writeback.dispatched.qExec ∧ u.remaining ≤ 1 ∧ u.address? = some ea ∧
          (u.op = .lw ∧ n = 4 ∨ u.op = .ld ∧ n = 8))

/-- R28, R280: over a step, the pc stays, moves on by one record, or becomes the target of the one branch in
flight, whose completion also releases the front end. -/
def Obligations.PcChangesOnlyByIssueOrBranch : Prop :=
  ∀ s s' : State, s.Inv → step s = .next s' →
    s'.pc = s.pc ∨ (s.branchStall = false ∧ s'.pc = s.pc + 1) ∨
    (s.branchStall = true ∧ s'.branchStall = false ∧
      ∃ t, t ∈ s.qTbe ++ s.qWait ++ s.qExec ∧ isBranch (s.unit t).op = true ∧
        s'.pc = (s.unit t).target)

/-- R281, R31: a warning flag that is set stays set over a step. -/
def Obligations.WarningsAreSticky : Prop :=
  ∀ (s s' : State) (a : Anomaly), step s = .next s' →
    s.warn.isSet a = true → s'.warn.isSet a = true

/-- R106: the fields an opcode does not use change nothing: two machines that differ at most in such fields of
the program's records (and in the units' copies of them) still differ at most so after a step. -/
def Obligations.IgnoredFieldsChangeNothing : Prop :=
  ∀ s s' t : State, SameButIgnored s s' → step s = .next t →
    ∃ t', step s' = .next t' ∧ SameButIgnored t t'

/-! ### An instruction alone in the machine -/

/-- R190, R200, R228: an arithmetic instruction that is the last record of the program, on an idle machine:
after `max(L, 1) + 3` cycles its destination holds the result, no other register, no line and no byte of
memory has changed, `WARN[4]` is set exactly on a zero divisor, and the machine is idle again. -/
def Obligations.ArithmeticRunsToItsResult : Prop :=
  ∀ (s : State) (w : Record) (i : Instr) (d : Reg) (a b v : Word),
    s.Idle → s.Shaped → s.admission = none → s.imem[s.pc.toNat]? = some w → decode w = i →
    s.imem.length = s.pc.toNat + 1 → selfDependent i = false → i.dest = some d →
    s.operandValues i = some (a, b) → arithmeticResult s.cfg i.opcode a b = some v →
    ∃ s', core.run (max (arithmeticLatency s.cfg i.opcode) 1 + 3) s = .next s' ∧
      EndsAlone s s' (max (arithmeticLatency s.cfg i.opcode) 1 + 3) (s.pc + 1)
        (if arithmeticWarns s.cfg i.opcode a b then s.warn.raise .arithmetic else s.warn) ∧
      (∀ r, s'.reg r = if r = d then { value := v, producer := 0 } else s.reg r) ∧
      s'.mem = s.mem ∧ s'.lines = s.lines

/-- R190, R241, R242, R245, R248: a load that is the last record of the program, on an idle machine: after
`max(L, 1) + 3` cycles its destination holds the sign-extended memory bytes, or 0 with `WARN[3]` set when
the access is out of bounds; no other register and no byte of memory has changed. -/
def Obligations.LoadRunsToItsResult : Prop :=
  ∀ (s : State) (w : Record) (d base : Reg) (imm : BitVec 16) (target : InstrIndex) (n : Nat),
    s.Idle → s.Shaped → s.CacheInv → s.admission = none → s.imem[s.pc.toNat]? = some w →
    (decode w = .lw d base imm target ∧ n = 4 ∨ decode w = .ld d base imm target ∧ n = 8) →
    s.imem.length = s.pc.toNat + 1 → d ≠ base →
    let ea := (s.reg base).value + sext64 imm
    let cycles := max (s.cfg.latLoad + s.accessTerm ea) 1 + 3
    (s.accessInBounds ea n →
      ∃ s', core.run cycles s = .next s' ∧ EndsAlone s s' cycles (s.pc + 1) s.warn ∧
        (∀ r, s'.reg r =
          if r = d then { value := s.memoryValue ea.toNat n, producer := 0 } else s.reg r) ∧
        s'.mem = s.mem ∧ s'.CacheInv) ∧
    (¬ s.accessInBounds ea n →
      ∃ s', core.run cycles s = .next s' ∧
        EndsAlone s s' cycles (s.pc + 1) (s.warn.raise .outOfRange) ∧
        (∀ r, s'.reg r = if r = d then { value := 0, producer := 0 } else s.reg r) ∧
        s'.mem = s.mem ∧ s'.lines = s.lines)

/-- R190, R243, R244, R245, R249: a store that is the last record of the program, on an idle machine: after
`max(L, 1) + 3` cycles the addressed bytes hold the low bytes of the data register and every other byte of
memory and every register is unchanged; out of bounds nothing but `WARN[3]` is. -/
def Obligations.StoreRunsToItsWrite : Prop :=
  ∀ (s : State) (w : Record) (base data : Reg) (imm : BitVec 16) (target : InstrIndex) (n : Nat),
    s.Idle → s.Shaped → s.CacheInv → s.admission = none → s.imem[s.pc.toNat]? = some w →
    (decode w = .sw base data imm target ∧ n = 4 ∨ decode w = .sd base data imm target ∧ n = 8) →
    s.imem.length = s.pc.toNat + 1 →
    let ea := (s.reg base).value + sext64 imm
    let cycles := max (s.cfg.latStore + s.accessTerm ea) 1 + 3
    (s.accessInBounds ea n →
      ∃ s', core.run cycles s = .next s' ∧ EndsAlone s s' cycles (s.pc + 1) s.warn ∧
        (∀ r, s'.reg r = s.reg r) ∧ s'.CacheInv ∧
        ∀ p, s'.mem.read p =
          if ea.toNat ≤ p ∧ p < ea.toNat + n
          then byteOfValue s.cfg.endian n (p - ea.toNat) (s.reg data).value
          else s.mem.read p) ∧
    (¬ s.accessInBounds ea n →
      ∃ s', core.run cycles s = .next s' ∧
        EndsAlone s s' cycles (s.pc + 1) (s.warn.raise .outOfRange) ∧
        (∀ r, s'.reg r = s.reg r) ∧ s'.mem = s.mem ∧ s'.lines = s.lines)

/-- R193, R262, R263, R264, R267: a branch on an idle machine, whatever records follow it: after
`max(LAT_INT_ADD, 1) + 1` cycles the pc is the target if the branch is taken, the next record otherwise;
the front end runs again; no register, flag, line or byte of memory has changed. -/
def Obligations.BranchRunsToItsTarget : Prop :=
  ∀ (s : State) (w : Record) (a b : Reg) (imm : BitVec 16) (target : InstrIndex) (isBeq : Bool),
    s.Idle → s.Shaped → s.admission = none → s.imem[s.pc.toNat]? = some w →
    decode w = (if isBeq then .beq a b imm target else .bne a b imm target) →
    ∃ s', core.run (max s.cfg.latIntAdd 1 + 1) s = .next s' ∧
      s'.pc = (if isBeq = decide ((s.reg a).value = (s.reg b).value) then target else s.pc + 1) ∧
      s'.branchStall = false ∧ (∀ r, s'.reg r = s.reg r) ∧ s'.mem = s.mem ∧ s'.lines = s.lines ∧
      s'.warn = s.warn ∧ s'.qTbe ++ s'.qWait ++ s'.qExec = [] ∧ s'.qResult.length = 1

/-! ### Reset -/

/-- R37, R310: what a full reset leaves, for every admitted configuration and program. (Of a unit: every
field the spec gives it; the model's own `squashed` is left out.) -/
def Obligations.ResetValues : Prop :=
  ∀ (c : Config) (p : List Record), admission c p = none →
    ∃ s, bootWith c p = .next s ∧ s.cfg = c ∧ s.imem = p ∧ s.Shaped ∧
      (∀ r, s.reg r = { value := 0, producer := 0 }) ∧
      (∀ t, { s.unit t with squashed := false } =
        { busy := false, op := .unknown, j := .resolved 0, k := .resolved 0, data := .resolved 0,
          imm := 0, target := 0, remaining := 0, result := none, squashed := false }) ∧
      s.qTbe = [] ∧ s.qWait = [] ∧ s.qExec = [] ∧ s.qResult = [] ∧ s.qClear = [] ∧
      s.pc = 0 ∧ s.branchStall = false ∧ (∀ a, s.warn.isSet a = false) ∧ s.busEvent = none ∧
      (∀ i, (lineAt c s.lines i).valid = false ∧ (lineAt c s.lines i).tag = 0 ∧
        (lineAt c s.lines i).data = List.replicate c.blockSize 0) ∧
      (∀ a, s.mem.read a = 0) ∧ s.cycle = 0

/-- R311: in the first cycle after reset and preload the Writeback and Execute phases find nothing to do, and
the record consumed is the one at index 0. -/
def Obligations.ExecutionStartsAtIndexZero : Prop :=
  ∀ s : State, s.Fresh →
    s.pc = 0 ∧ s.writeback.execute = s ∧
    ∀ w, s.imem[0]? = some w → step s = mapNext State.endCycle (exec (decode w) s)
end

