-- ==== Sys2Proof/Laws/Memory.lean ====
section
/-! SUPPORT. The laws of the memory: read after write, the canonical form and what keeps it. -/

namespace Sys2Proof.Machine

@[simp] theorem Memory.read_nil (a : Nat) : Memory.read [] a = unlistedByte := rfl

theorem Memory.read_cons (c : Host.Cell) (m : Memory) (a : Nat) :
    Memory.read (c :: m) a = if c.1 = a then c.2 else Memory.read m a := rfl

theorem Memory.wfFrom_cons {lo : Nat} {c : Host.Cell} {m : Memory} :
    Memory.wfFrom lo (c :: m) = true ↔
      lo ≤ c.1 ∧ c.2 ≠ unlistedByte ∧ Memory.wfFrom (c.1 + 1) m = true := by
  simp [Memory.wfFrom, and_assoc]

theorem Memory.wfFrom_mono {lo lo' : Nat} {m : Memory} (h : Memory.wfFrom lo m = true)
    (hl : lo' ≤ lo) : Memory.wfFrom lo' m = true := by
  cases m with
  | nil => rfl
  | cons c m =>
    rw [Memory.wfFrom_cons] at h ⊢
    exact ⟨hl.trans h.1, h.2⟩

/-- An address below every listed one reads as the unlisted byte. -/
theorem Memory.read_of_lt {lo a : Nat} {m : Memory} (h : Memory.wfFrom lo m = true) (ha : a < lo) :
    m.read a = unlistedByte := by
  induction m generalizing lo with
  | nil => rfl
  | cons c m ih =>
    rw [Memory.wfFrom_cons] at h
    rw [Memory.read_cons, if_neg (by omega)]
    exact ih h.2.2 (by omega)

theorem Memory.read_write_from {lo : Nat} {m : Memory} (h : Memory.wfFrom lo m = true) (a : Nat)
    (b : Byte) (x : Nat) : (m.write a b).read x = if x = a then b else m.read x := by
  induction m generalizing lo with
  | nil =>
    unfold Memory.write
    by_cases hb : b = unlistedByte
    · rw [if_pos hb]
      split
      · rw [hb]; rfl
      · rfl
    · rw [if_neg hb, Memory.read_cons]
      simp only [eq_comm]
  | cons c m ih =>
    rw [Memory.wfFrom_cons] at h
    unfold Memory.write
    by_cases h1 : a < c.1
    · rw [if_pos h1]
      by_cases hb : b = unlistedByte
      · rw [if_pos hb]
        by_cases hx : x = a
        · rw [if_pos hx, hb, hx, Memory.read_cons, if_neg (by omega)]
          exact Memory.read_of_lt h.2.2 (by omega)
        · rw [if_neg hx]
      · rw [if_neg hb, Memory.read_cons]
        simp only [eq_comm]
    · rw [if_neg h1]
      by_cases h2 : a = c.1
      · rw [if_pos h2]
        by_cases hb : b = unlistedByte
        · rw [if_pos hb]
          by_cases hx : x = a
          · rw [if_pos hx, hb, hx, h2]
            exact Memory.read_of_lt h.2.2 (by omega)
          · rw [if_neg hx, Memory.read_cons, if_neg (by omega)]
        · rw [if_neg hb, Memory.read_cons, Memory.read_cons]
          by_cases hx : x = a
          · simp [hx]
          · rw [if_neg (by omega), if_neg hx, if_neg (by omega)]
      · rw [if_neg h2, Memory.read_cons, ih h.2.2, Memory.read_cons]
        by_cases hx : x = a
        · rw [if_pos hx, if_neg (by omega), if_pos hx]
        · rw [if_neg hx, if_neg hx]

/-- Reading after a write: the written byte at its address, the old byte anywhere else. -/
theorem Memory.read_write {m : Memory} (h : m.wf = true) (a : Nat) (b : Byte) (x : Nat) :
    (m.write a b).read x = if x = a then b else m.read x :=
  Memory.read_write_from h a b x

theorem Memory.wfFrom_write {lo : Nat} {m : Memory} (h : Memory.wfFrom lo m = true) {a : Nat}
    (ha : lo ≤ a) (b : Byte) : Memory.wfFrom lo (m.write a b) = true := by
  induction m generalizing lo with
  | nil =>
    unfold Memory.write
    split
    · rfl
    · rw [Memory.wfFrom_cons]; exact ⟨ha, ‹_›, rfl⟩
  | cons c m ih =>
    have h' := h
    rw [Memory.wfFrom_cons] at h
    unfold Memory.write
    split
    · split
      · exact h'
      · rw [Memory.wfFrom_cons, Memory.wfFrom_cons]
        exact ⟨ha, ‹_›, by simpa using ‹a < c.1›, h.2⟩
    · split
      · rename_i h2
        split
        · exact Memory.wfFrom_mono h.2.2 (by omega)
        · rw [Memory.wfFrom_cons]
          exact ⟨ha, ‹_›, by simpa [h2] using h.2.2⟩
      · rw [Memory.wfFrom_cons]
        exact ⟨h.1, h.2.1, ih h.2.2 (by omega)⟩

/-- A write keeps the canonical form. -/
theorem Memory.wf_write {m : Memory} (h : m.wf = true) (a : Nat) (b : Byte) :
    (m.write a b).wf = true :=
  Memory.wfFrom_write h (Nat.zero_le a) b

/-- A write below `n` keeps every listed address below `n`. -/
theorem Memory.below_write {n a : Nat} {m : Memory} (h : m.below n = true) (ha : a < n) (b : Byte) :
    (m.write a b).below n = true := by
  induction m with
  | nil => unfold Memory.write; split <;> simp [Memory.below, ha]
  | cons c m ih =>
    simp only [Memory.below, List.all_cons, Bool.and_eq_true, decide_eq_true_eq] at h
    unfold Memory.write
    split
    · split <;> simp [Memory.below, ha, h.1, h.2]
    · split
      · split
        · exact h.2
        · simp [Memory.below, ha, h.2]
      · simpa [Memory.below, h.1] using ih h.2

/-- An address at or past `n` reads as the unlisted byte when every listed address is below `n`. -/
theorem Memory.read_of_below {n a : Nat} {m : Memory} (h : m.below n = true) (ha : n ≤ a) :
    m.read a = unlistedByte := by
  induction m with
  | nil => rfl
  | cons c m ih =>
    simp only [Memory.below, List.all_cons, Bool.and_eq_true, decide_eq_true_eq] at h
    rw [Memory.read_cons, if_neg (by omega)]
    exact ih h.2

theorem Memory.ext_from {lo : Nat} {m m' : Memory} (h : Memory.wfFrom lo m = true)
    (h' : Memory.wfFrom lo m' = true) (hr : ∀ a, m.read a = m'.read a) : m = m' := by
  induction m generalizing lo m' with
  | nil =>
    cases m' with
    | nil => rfl
    | cons c m' =>
      rw [Memory.wfFrom_cons] at h'
      have := hr c.1
      simp [Memory.read_cons] at this
      exact absurd this.symm h'.2.1
  | cons c m ih =>
    rw [Memory.wfFrom_cons] at h
    cases m' with
    | nil =>
      have := hr c.1
      simp [Memory.read_cons] at this
      exact absurd this h.2.1
    | cons c' m' =>
      rw [Memory.wfFrom_cons] at h'
      have key : c.1 = c'.1 := by
        rcases Nat.lt_trichotomy c.1 c'.1 with hlt | heq | hgt
        · have := hr c.1
          rw [Memory.read_cons, if_pos rfl, Memory.read_cons, if_neg (by omega),
            Memory.read_of_lt h'.2.2 (by omega)] at this
          exact absurd this h.2.1
        · exact heq
        · have := hr c'.1
          rw [Memory.read_cons, if_neg (by omega), Memory.read_of_lt h.2.2 (by omega),
            Memory.read_cons, if_pos rfl] at this
          exact absurd this.symm h'.2.1
      have hv : c.2 = c'.2 := by
        have := hr c.1
        rwa [Memory.read_cons, if_pos rfl, Memory.read_cons, if_pos key.symm] at this
      have hc : c = c' := Prod.ext key hv
      subst hc
      congr 1
      refine ih h.2.2 h'.2.2 fun a => ?_
      by_cases ha : c.1 = a
      · rw [← ha, Memory.read_of_lt h.2.2 (by omega), Memory.read_of_lt h'.2.2 (by omega)]
      · have := hr a
        rwa [Memory.read_cons, if_neg ha, Memory.read_cons, if_neg ha] at this

/-- Equal memories are equal data: two canonical memories that read the same everywhere are equal. -/
theorem Memory.ext {m m' : Memory} (h : m.wf = true) (h' : m'.wf = true)
    (hr : ∀ a, m.read a = m'.read a) : m = m' :=
  Memory.ext_from h h' hr

end Sys2Proof.Machine
end

