-- ==== Sys2Proof/Laws/Cache.lean ====
section
/-! SUPPORT. The laws of the cache (20_memory.md): the address fields, and for each cache operation one lemma
that says what it gives and that it keeps `CacheOk`. -/

namespace Sys2Proof.Machine

theorem isPowerOfTwo_iff {n : Nat} : isPowerOfTwo n = true ↔ 2 ^ n.log2 = n := by
  simp [isPowerOfTwo]

/-! ### Geometry (R7, R8, R63) -/

/-- The facts about the sizes that the constraints of R7 give. -/
structure Geometry (c : Config) : Prop where
  blockPos : 0 < c.blockSize
  linesPos : 0 < cacheLineCount c
  /-- `2^TAG_BITS` blocks of the cache's size make up the memory. -/
  memFactor : c.memSize = 2 ^ tagBits c * (cacheLineCount c * c.blockSize)
  memMax : c.memSize ≤ 2 ^ 62

theorem geometry {c : Config} (h : configAdmissible c = true) : Geometry c := by
  simp only [configAdmissible, sizesAdmissible, Bool.and_eq_true, decide_eq_true_eq,
    isPowerOfTwo_iff] at h
  obtain ⟨_, ⟨⟨⟨⟨hb, hc⟩, hm⟩, hbc⟩, hcm⟩, hmax⟩ := h
  have hle1 : c.blockSize.log2 ≤ c.cacheSize.log2 :=
    (Nat.pow_le_pow_iff_right (a := 2) (by omega)).mp (by rw [hb, hc]; exact hbc)
  have hle2 : c.cacheSize.log2 ≤ c.memSize.log2 :=
    (Nat.pow_le_pow_iff_right (a := 2) (by omega)).mp (by rw [hc, hm]; exact hcm)
  have hbpos : 0 < c.blockSize := by rw [← hb]; positivity
  have hlines : cacheLineCount c = 2 ^ (c.cacheSize.log2 - c.blockSize.log2) := by
    unfold cacheLineCount
    conv_lhs => rw [← hb, ← hc]
    exact Nat.pow_div hle1 (by omega)
  have hidx : indexBits c = c.cacheSize.log2 - c.blockSize.log2 := by
    unfold indexBits; rw [hlines, Nat.log2_two_pow]
  refine ⟨hbpos, by rw [hlines]; positivity, ?_, hmax⟩
  unfold tagBits addressBits offsetBits
  rw [hidx, hlines]
  conv_lhs => rw [← hm]
  conv_rhs => rw [← hb]
  rw [Nat.log2_two_pow, ← Nat.pow_add, ← Nat.pow_add]
  congr 1
  omega

section
variable {c : Config} (g : Geometry c)
include g

theorem offsetOf_lt (p : Nat) : offsetOf c p < c.blockSize := Nat.mod_lt _ g.blockPos

theorem indexOf_lt (p : Nat) : indexOf c p < cacheLineCount c := Nat.mod_lt _ g.linesPos

omit g in
theorem tagOf_lt (p : Nat) : tagOf c p < 2 ^ tagBits c := Nat.mod_lt _ (by positivity)

/-- R63: an address of the memory is made of its three fields. -/
theorem compose_decompose {p : Nat} (hp : p < c.memSize) :
    composeAddress c (tagOf c p) (indexOf c p) (offsetOf c p) = p := by
  have ht : p / (c.blockSize * cacheLineCount c) < 2 ^ tagBits c := by
    rw [Nat.div_lt_iff_lt_mul (Nat.mul_pos g.blockPos g.linesPos), Nat.mul_comm c.blockSize]
    rw [← g.memFactor]; exact hp
  unfold composeAddress tagOf indexOf offsetOf
  rw [Nat.mod_eq_of_lt ht, ← Nat.div_div_eq_div_mul]
  have h1 := Nat.div_add_mod (p / c.blockSize) (cacheLineCount c)
  have h2 := Nat.div_add_mod p c.blockSize
  rw [Nat.mul_comm (p / c.blockSize / cacheLineCount c), h1, Nat.mul_comm]
  exact h2

omit g in
/-- R63: the fields of an address made of three fields. -/
theorem offsetOf_compose {t i o : Nat} (ho : o < c.blockSize) :
    offsetOf c (composeAddress c t i o) = o := by
  unfold offsetOf composeAddress
  rw [Nat.mul_comm, Nat.mul_add_mod, Nat.mod_eq_of_lt ho]

theorem indexOf_compose {t i o : Nat} (hi : i < cacheLineCount c) (ho : o < c.blockSize) :
    indexOf c (composeAddress c t i o) = i := by
  unfold indexOf composeAddress
  rw [Nat.mul_comm _ c.blockSize, Nat.mul_add_div g.blockPos, Nat.div_eq_of_lt ho, Nat.add_zero,
    Nat.mul_comm, Nat.mul_add_mod, Nat.mod_eq_of_lt hi]

theorem tagOf_compose {t i o : Nat} (ht : t < 2 ^ tagBits c) (hi : i < cacheLineCount c)
    (ho : o < c.blockSize) : tagOf c (composeAddress c t i o) = t := by
  unfold tagOf composeAddress
  rw [← Nat.div_div_eq_div_mul, Nat.mul_comm _ c.blockSize, Nat.mul_add_div g.blockPos,
    Nat.div_eq_of_lt ho, Nat.add_zero, Nat.mul_comm t, Nat.mul_add_div g.linesPos,
    Nat.div_eq_of_lt hi, Nat.add_zero, Nat.mod_eq_of_lt ht]

theorem compose_lt {t i o : Nat} (ht : t < 2 ^ tagBits c) (hi : i < cacheLineCount c)
    (ho : o < c.blockSize) : composeAddress c t i o < c.memSize := by
  have h1 : t * cacheLineCount c + i < 2 ^ tagBits c * cacheLineCount c :=
    calc t * cacheLineCount c + i < t * cacheLineCount c + cacheLineCount c := by omega
      _ = (t + 1) * cacheLineCount c := by ring
      _ ≤ _ := Nat.mul_le_mul_right _ ht
  have h2 : (t * cacheLineCount c + i) * c.blockSize + o
      < (2 ^ tagBits c * cacheLineCount c) * c.blockSize :=
    calc _ < (t * cacheLineCount c + i) * c.blockSize + c.blockSize := by omega
      _ = (t * cacheLineCount c + i + 1) * c.blockSize := by ring
      _ ≤ _ := Nat.mul_le_mul_right _ h1
  rw [g.memFactor, ← Nat.mul_assoc]; exact h2

/-- R64, R68: byte `o` of the block of `p` has the address made of the fields of `p` and the offset `o`. -/
theorem blockBase_add {p o : Nat} (hp : p < c.memSize) :
    blockBase c p + o = composeAddress c (tagOf c p) (indexOf c p) o := by
  have h := compose_decompose g hp
  unfold composeAddress at h ⊢
  have hle := Nat.mod_le p c.blockSize
  unfold blockBase
  change _ + p % c.blockSize = p at h
  omega

end

/-! ### Lines -/

theorem lineAt_set_same {c : Config} {lines : List CacheLine} {i : Nat} (h : i < lines.length)
    (l : CacheLine) : lineAt c (lines.set i l) i = l := by
  simp [lineAt, List.getD, h]

theorem lineAt_set_ne {c : Config} {lines : List CacheLine} {i j : Nat} (h : j ≠ i)
    (l : CacheLine) : lineAt c (lines.set i l) j = lineAt c lines j := by
  simp [lineAt, List.getD, Ne.symm h]

theorem lineAt_mem {c : Config} {lines : List CacheLine} {i : Nat} (h : i < lines.length) :
    lineAt c lines i ∈ lines := by
  simp [lineAt, List.getD, h]

theorem lookup_iff {c : Config} {lines : List CacheLine} {p : Nat} :
    lookup c lines p = true ↔
      (lineAt c lines (indexOf c p)).valid = true ∧
        (lineAt c lines (indexOf c p)).tag = tagOf c p := by
  simp [lookup]

/-- R68: the bytes of a filled line. -/
theorem blockImage_getD {c : Config} (g : Geometry c) (m : Memory) {p o : Nat} (hp : p < c.memSize)
    (ho : o < c.blockSize) :
    (blockImage c m p).getD o 0 = m.read (composeAddress c (tagOf c p) (indexOf c p) o) := by
  have hlt := compose_lt g (tagOf_lt p) (indexOf_lt g p) ho
  rw [← blockBase_add g hp] at hlt ⊢
  simp [blockImage, List.getD, ho, hlt]

@[simp] theorem blockImage_length (c : Config) (m : Memory) (p : Nat) :
    (blockImage c m p).length = c.blockSize := by simp [blockImage]

section
variable {c : Config} (g : Geometry c) {m : Memory} {lines : List CacheLine}
include g

/-- R68: a fill keeps cache and memory in agreement, and the block is then resident. -/
theorem fill_ok (h : CacheOk c m lines) {p : Nat} (hp : p < c.memSize) :
    CacheOk c m (fill c m lines p) ∧ lookup c (fill c m lines p) p = true := by
  have hi : indexOf c p < lines.length := by rw [h.linesSize]; exact indexOf_lt g p
  refine ⟨⟨by simp [fill, h.linesSize], ?_, h.memWf, h.memBelow, ?_⟩, ?_⟩
  · intro l hl
    rcases List.mem_or_eq_of_mem_set hl with hl | rfl
    · exact h.linesWf l hl
    · exact ⟨by simp, tagOf_lt p⟩
  · intro i o hi' ho hv
    by_cases hii : i = indexOf c p
    · subst hii
      unfold fill
      rw [lineAt_set_same hi]
      exact blockImage_getD g m hp ho
    · unfold fill at hv ⊢
      rw [lineAt_set_ne hii] at hv ⊢
      exact h.coherent i o hi' ho hv
  · rw [lookup_iff]; unfold fill; rw [lineAt_set_same hi]; exact ⟨rfl, rfl⟩

/-- R70, R75: making a block resident keeps agreement, and the block is then resident. -/
theorem ensureLine_ok (h : CacheOk c m lines) {p : Nat} (hp : p < c.memSize) :
    CacheOk c m (ensureLine c m lines p) ∧ lookup c (ensureLine c m lines p) p = true := by
  unfold ensureLine
  split
  · exact ⟨h, ‹_›⟩
  · exact fill_ok g h hp

/-- R79 for one byte: a resident block's byte is the memory's byte. -/
theorem byte_of_lookup (h : CacheOk c m lines) {p : Nat} (hp : p < c.memSize)
    (hl : lookup c lines p = true) :
    (lineAt c lines (indexOf c p)).data.getD (offsetOf c p) 0 = m.read p := by
  rw [lookup_iff] at hl
  rw [h.coherent _ _ (indexOf_lt g p) (offsetOf_lt g p) hl.1, hl.2, compose_decompose g hp]

/-- R70, R79: `CacheByte` gives the memory's byte, hit or miss, and keeps agreement. -/
theorem cacheByte_ok (h : CacheOk c m lines) {p : Nat} (hp : p < c.memSize) :
    (cacheByte c m lines p).1 = m.read p ∧ CacheOk c m (cacheByte c m lines p).2 := by
  obtain ⟨hok, hhit⟩ := ensureLine_ok g h hp
  exact ⟨byte_of_lookup g hok hp hhit, hok⟩

/-- R72, R79: the bytes a read gives are the memory's bytes, and agreement is kept. -/
theorem readBytes_ok {n : Nat} (h : CacheOk c m lines) {p : Nat} (hp : p + n ≤ c.memSize) :
    (readBytes c m lines p n).1 = (List.range n).map (fun k => m.read (p + k)) ∧
      CacheOk c m (readBytes c m lines p n).2 := by
  induction n generalizing p lines with
  | zero => exact ⟨rfl, h⟩
  | succ n ih =>
    obtain ⟨hb, hok⟩ := cacheByte_ok g h (p := p) (by omega)
    obtain ⟨hbs, hok'⟩ := ih hok (p := p + 1) (by omega)
    refine ⟨?_, hok'⟩
    rw [List.range_succ_eq_map, List.map_cons, List.map_map]
    change _ :: _ = _
    rw [hb, hbs]
    simp [Nat.add_assoc, Nat.add_comm 1, Function.comp_def]

/-- R75, R79: one byte written through: the memory has it, and agreement is kept. -/
theorem writeByte_ok (h : CacheOk c m lines) {p : Nat} (hp : p < c.memSize) (b : Byte) :
    (writeByte c m lines p b).1 = m.write p b ∧
      CacheOk c (writeByte c m lines p b).1 (writeByte c m lines p b).2 := by
  refine ⟨rfl, ?_⟩
  have hi := indexOf_lt g p
  -- the lines after the fill, and what is known of them
  have key : ∀ ls, ls = ensureLine c (m.write p b) lines p → ls.length = cacheLineCount c ∧
      (∀ l ∈ ls, LineWf c l) ∧ (lineAt c ls (indexOf c p)).valid = true ∧
      (lineAt c ls (indexOf c p)).tag = tagOf c p ∧
      (∀ o, o < c.blockSize → o ≠ offsetOf c p →
        (lineAt c ls (indexOf c p)).data.getD o 0 =
          m.read (composeAddress c (tagOf c p) (indexOf c p) o)) ∧
      ∀ i, i ≠ indexOf c p → lineAt c ls i = lineAt c lines i := by
    rintro ls rfl
    unfold ensureLine
    split
    · rename_i hl
      rw [lookup_iff] at hl
      refine ⟨h.linesSize, h.linesWf, hl.1, hl.2, fun o ho _ => ?_, fun _ _ => rfl⟩
      rw [h.coherent _ _ hi ho hl.1, hl.2]
    · unfold fill
      have hlen : indexOf c p < lines.length := by rw [h.linesSize]; exact hi
      rw [lineAt_set_same hlen]
      refine ⟨by simp [h.linesSize], fun l hl => ?_, rfl, rfl, fun o ho hne => ?_,
        fun i hne => lineAt_set_ne hne _⟩
      · rcases List.mem_or_eq_of_mem_set hl with hl | rfl
        · exact h.linesWf l hl
        · exact ⟨by simp, tagOf_lt p⟩
      · rw [blockImage_getD g _ hp ho, Memory.read_write h.memWf, if_neg]
        intro he
        exact hne (by rw [← he, offsetOf_compose ho])
  obtain ⟨hsize, hwf, hvalid, htag, hdata, hother⟩ := key _ rfl
  have hlen : indexOf c p < (ensureLine c (m.write p b) lines p).length := by rw [hsize]; exact hi
  refine ⟨by simp [writeByte, hsize], ?_, Memory.wf_write h.memWf p b,
    Memory.below_write h.memBelow hp b, ?_⟩
  · intro l hl
    rcases List.mem_or_eq_of_mem_set hl with hl | rfl
    · exact hwf l hl
    · have := hwf _ (lineAt_mem (c := c) hlen)
      exact ⟨by simpa using this.dataSize, this.tagFits⟩
  · intro i o hi' ho hv
    unfold writeByte at hv ⊢
    simp only at hv ⊢
    rw [Memory.read_write h.memWf]
    by_cases hii : i = indexOf c p
    · subst hii
      rw [lineAt_set_same hlen] at hv ⊢
      simp only at hv ⊢
      have hsz := (hwf _ (lineAt_mem (c := c) hlen)).dataSize
      rw [htag]
      by_cases hoo : o = offsetOf c p
      · subst hoo
        rw [compose_decompose g hp, if_pos rfl]
        simp [List.getD, hsz, ho]
      · rw [if_neg fun he => hoo (by rw [← he, offsetOf_compose ho]), ← hdata o ho hoo]
        simp [List.getD, Ne.symm hoo]
    · rw [lineAt_set_ne hii, hother i hii] at hv ⊢
      rw [if_neg, h.coherent i o hi' ho hv]
      intro he
      exact hii (by rw [← he, indexOf_compose g hi' ho])

/-- R75, R79: bytes written through: the memory has each of them at its address and is unchanged
elsewhere, and agreement is kept. -/
theorem writeBytes_ok {bs : List Byte} (h : CacheOk c m lines) {p : Nat}
    (hp : p + bs.length ≤ c.memSize) :
    (∀ a, (writeBytes c m lines p bs).1.read a =
      if p ≤ a ∧ a < p + bs.length then bs.getD (a - p) 0 else m.read a) ∧
      CacheOk c (writeBytes c m lines p bs).1 (writeBytes c m lines p bs).2 := by
  induction bs generalizing p m lines with
  | nil => exact ⟨fun a => by rw [if_neg (by simp)]; rfl, h⟩
  | cons b bs ih =>
    simp only [List.length_cons] at hp
    obtain ⟨hm, hok⟩ := writeByte_ok g h (p := p) (by omega) b
    obtain ⟨hr, hok'⟩ := ih hok (p := p + 1) (by omega)
    refine ⟨fun a => ?_, hok'⟩
    change (writeBytes c (writeByte c m lines p b).1 (writeByte c m lines p b).2 (p + 1) bs).1.read a = _
    rw [hr a, hm, Memory.read_write h.memWf]
    simp only [List.length_cons]
    by_cases ha : a = p
    · subst ha; simp
    · by_cases hin : p + 1 ≤ a ∧ a < p + 1 + bs.length
      · rw [if_pos hin, if_pos (by omega)]
        obtain ⟨k, rfl⟩ := Nat.exists_eq_add_of_le hin.1
        rw [Nat.add_sub_cancel_left, show p + 1 + k - p = k + 1 by omega, List.getD_cons_succ]
      · rw [if_neg hin, if_neg ha, if_neg (by omega)]

end

/-! ### Bounds -/

/-- R62 in terms of the unsigned reading: an in-bounds access lies wholly in the memory. -/
theorem inBounds_iff {c : Config} (g : Geometry c) {ea : Word} {n : Nat} :
    inBounds c ea n = true ↔ 0 ≤ ea.toInt ∧ ea.toNat + n ≤ c.memSize := by
  have hm := g.memMax
  simp only [inBounds, Bool.and_eq_true, decide_eq_true_eq]
  rw [BitVec.toInt_eq_toNat_cond]
  have := ea.isLt
  constructor <;> intro h <;> split at h <;> (try split) <;> omega

/-- R66, R67: the lookup at dispatch hits only where the line of an address of the memory does. -/
theorem lookupAddress_iff {c : Config} {lines : List CacheLine} {ea : Word} :
    lookupAddress c lines ea = true ↔
      inBounds c ea 1 = true ∧ lookup c lines ea.toNat = true := by
  simp [lookupAddress]

end Sys2Proof.Machine
end

