-- ==== Sys2Proof/Laws/State.lean ====
section
/-! SUPPORT. For every update of the state and every field it does not change, one lemma that says so, so that
no later proof unfolds a record update. -/

namespace Sys2Proof.Machine

variable (s : State)

/-! `warnOn` changes only `warn`. -/

@[simp] theorem warnOn_cfg (a : Anomaly) : (s.warnOn a).cfg = s.cfg := rfl
@[simp] theorem warnOn_imem (a : Anomaly) : (s.warnOn a).imem = s.imem := rfl
@[simp] theorem warnOn_gpr (a : Anomaly) : (s.warnOn a).gpr = s.gpr := rfl
@[simp] theorem warnOn_fpr (a : Anomaly) : (s.warnOn a).fpr = s.fpr := rfl
@[simp] theorem warnOn_units (a : Anomaly) : (s.warnOn a).units = s.units := rfl
@[simp] theorem warnOn_qTbe (a : Anomaly) : (s.warnOn a).qTbe = s.qTbe := rfl
@[simp] theorem warnOn_qWait (a : Anomaly) : (s.warnOn a).qWait = s.qWait := rfl
@[simp] theorem warnOn_qExec (a : Anomaly) : (s.warnOn a).qExec = s.qExec := rfl
@[simp] theorem warnOn_qResult (a : Anomaly) : (s.warnOn a).qResult = s.qResult := rfl
@[simp] theorem warnOn_qClear (a : Anomaly) : (s.warnOn a).qClear = s.qClear := rfl
@[simp] theorem warnOn_pc (a : Anomaly) : (s.warnOn a).pc = s.pc := rfl
@[simp] theorem warnOn_branchStall (a : Anomaly) : (s.warnOn a).branchStall = s.branchStall := rfl
@[simp] theorem warnOn_busEvent (a : Anomaly) : (s.warnOn a).busEvent = s.busEvent := rfl
@[simp] theorem warnOn_lines (a : Anomaly) : (s.warnOn a).lines = s.lines := rfl
@[simp] theorem warnOn_mem (a : Anomaly) : (s.warnOn a).mem = s.mem := rfl
@[simp] theorem warnOn_cycle (a : Anomaly) : (s.warnOn a).cycle = s.cycle := rfl

/-! `setReg` changes only `gpr`, `fpr`. -/

@[simp] theorem setReg_cfg (r : Reg) (x : Register) :
    (s.setReg r x).cfg = s.cfg := by unfold State.setReg; split <;> rfl
@[simp] theorem setReg_imem (r : Reg) (x : Register) :
    (s.setReg r x).imem = s.imem := by unfold State.setReg; split <;> rfl
@[simp] theorem setReg_units (r : Reg) (x : Register) :
    (s.setReg r x).units = s.units := by unfold State.setReg; split <;> rfl
@[simp] theorem setReg_qTbe (r : Reg) (x : Register) :
    (s.setReg r x).qTbe = s.qTbe := by unfold State.setReg; split <;> rfl
@[simp] theorem setReg_qWait (r : Reg) (x : Register) :
    (s.setReg r x).qWait = s.qWait := by unfold State.setReg; split <;> rfl
@[simp] theorem setReg_qExec (r : Reg) (x : Register) :
    (s.setReg r x).qExec = s.qExec := by unfold State.setReg; split <;> rfl
@[simp] theorem setReg_qResult (r : Reg) (x : Register) :
    (s.setReg r x).qResult = s.qResult := by unfold State.setReg; split <;> rfl
@[simp] theorem setReg_qClear (r : Reg) (x : Register) :
    (s.setReg r x).qClear = s.qClear := by unfold State.setReg; split <;> rfl
@[simp] theorem setReg_pc (r : Reg) (x : Register) :
    (s.setReg r x).pc = s.pc := by unfold State.setReg; split <;> rfl
@[simp] theorem setReg_branchStall (r : Reg) (x : Register) :
    (s.setReg r x).branchStall = s.branchStall := by unfold State.setReg; split <;> rfl
@[simp] theorem setReg_warn (r : Reg) (x : Register) :
    (s.setReg r x).warn = s.warn := by unfold State.setReg; split <;> rfl
@[simp] theorem setReg_busEvent (r : Reg) (x : Register) :
    (s.setReg r x).busEvent = s.busEvent := by unfold State.setReg; split <;> rfl
@[simp] theorem setReg_lines (r : Reg) (x : Register) :
    (s.setReg r x).lines = s.lines := by unfold State.setReg; split <;> rfl
@[simp] theorem setReg_mem (r : Reg) (x : Register) :
    (s.setReg r x).mem = s.mem := by unfold State.setReg; split <;> rfl
@[simp] theorem setReg_cycle (r : Reg) (x : Register) :
    (s.setReg r x).cycle = s.cycle := by unfold State.setReg; split <;> rfl

/-! `rename` changes only `gpr`, `fpr`. -/

@[simp] theorem rename_cfg (r : Reg) (t : Nat) :
    (s.rename r t).cfg = s.cfg := by simp [State.rename]
@[simp] theorem rename_imem (r : Reg) (t : Nat) :
    (s.rename r t).imem = s.imem := by simp [State.rename]
@[simp] theorem rename_units (r : Reg) (t : Nat) :
    (s.rename r t).units = s.units := by simp [State.rename]
@[simp] theorem rename_qTbe (r : Reg) (t : Nat) :
    (s.rename r t).qTbe = s.qTbe := by simp [State.rename]
@[simp] theorem rename_qWait (r : Reg) (t : Nat) :
    (s.rename r t).qWait = s.qWait := by simp [State.rename]
@[simp] theorem rename_qExec (r : Reg) (t : Nat) :
    (s.rename r t).qExec = s.qExec := by simp [State.rename]
@[simp] theorem rename_qResult (r : Reg) (t : Nat) :
    (s.rename r t).qResult = s.qResult := by simp [State.rename]
@[simp] theorem rename_qClear (r : Reg) (t : Nat) :
    (s.rename r t).qClear = s.qClear := by simp [State.rename]
@[simp] theorem rename_pc (r : Reg) (t : Nat) : (s.rename r t).pc = s.pc := by simp [State.rename]
@[simp] theorem rename_branchStall (r : Reg) (t : Nat) :
    (s.rename r t).branchStall = s.branchStall := by simp [State.rename]
@[simp] theorem rename_warn (r : Reg) (t : Nat) :
    (s.rename r t).warn = s.warn := by simp [State.rename]
@[simp] theorem rename_busEvent (r : Reg) (t : Nat) :
    (s.rename r t).busEvent = s.busEvent := by simp [State.rename]
@[simp] theorem rename_lines (r : Reg) (t : Nat) :
    (s.rename r t).lines = s.lines := by simp [State.rename]
@[simp] theorem rename_mem (r : Reg) (t : Nat) :
    (s.rename r t).mem = s.mem := by simp [State.rename]
@[simp] theorem rename_cycle (r : Reg) (t : Nat) :
    (s.rename r t).cycle = s.cycle := by simp [State.rename]

/-! `setUnit` changes only `units`. -/

@[simp] theorem setUnit_cfg (t : Nat) (u : FunctionalUnit) :
    (s.setUnit t u).cfg = s.cfg := by cases t <;> rfl
@[simp] theorem setUnit_imem (t : Nat) (u : FunctionalUnit) :
    (s.setUnit t u).imem = s.imem := by cases t <;> rfl
@[simp] theorem setUnit_gpr (t : Nat) (u : FunctionalUnit) :
    (s.setUnit t u).gpr = s.gpr := by cases t <;> rfl
@[simp] theorem setUnit_fpr (t : Nat) (u : FunctionalUnit) :
    (s.setUnit t u).fpr = s.fpr := by cases t <;> rfl
@[simp] theorem setUnit_qTbe (t : Nat) (u : FunctionalUnit) :
    (s.setUnit t u).qTbe = s.qTbe := by cases t <;> rfl
@[simp] theorem setUnit_qWait (t : Nat) (u : FunctionalUnit) :
    (s.setUnit t u).qWait = s.qWait := by cases t <;> rfl
@[simp] theorem setUnit_qExec (t : Nat) (u : FunctionalUnit) :
    (s.setUnit t u).qExec = s.qExec := by cases t <;> rfl
@[simp] theorem setUnit_qResult (t : Nat) (u : FunctionalUnit) :
    (s.setUnit t u).qResult = s.qResult := by cases t <;> rfl
@[simp] theorem setUnit_qClear (t : Nat) (u : FunctionalUnit) :
    (s.setUnit t u).qClear = s.qClear := by cases t <;> rfl
@[simp] theorem setUnit_pc (t : Nat) (u : FunctionalUnit) :
    (s.setUnit t u).pc = s.pc := by cases t <;> rfl
@[simp] theorem setUnit_branchStall (t : Nat) (u : FunctionalUnit) :
    (s.setUnit t u).branchStall = s.branchStall := by cases t <;> rfl
@[simp] theorem setUnit_warn (t : Nat) (u : FunctionalUnit) :
    (s.setUnit t u).warn = s.warn := by cases t <;> rfl
@[simp] theorem setUnit_busEvent (t : Nat) (u : FunctionalUnit) :
    (s.setUnit t u).busEvent = s.busEvent := by cases t <;> rfl
@[simp] theorem setUnit_lines (t : Nat) (u : FunctionalUnit) :
    (s.setUnit t u).lines = s.lines := by cases t <;> rfl
@[simp] theorem setUnit_mem (t : Nat) (u : FunctionalUnit) :
    (s.setUnit t u).mem = s.mem := by cases t <;> rfl
@[simp] theorem setUnit_cycle (t : Nat) (u : FunctionalUnit) :
    (s.setUnit t u).cycle = s.cycle := by cases t <;> rfl

/-! `setResult` changes only `units`. -/

@[simp] theorem setResult_cfg (t : Nat) (v : Word) :
    (s.setResult t v).cfg = s.cfg := by simp [State.setResult]
@[simp] theorem setResult_imem (t : Nat) (v : Word) :
    (s.setResult t v).imem = s.imem := by simp [State.setResult]
@[simp] theorem setResult_gpr (t : Nat) (v : Word) :
    (s.setResult t v).gpr = s.gpr := by simp [State.setResult]
@[simp] theorem setResult_fpr (t : Nat) (v : Word) :
    (s.setResult t v).fpr = s.fpr := by simp [State.setResult]
@[simp] theorem setResult_qTbe (t : Nat) (v : Word) :
    (s.setResult t v).qTbe = s.qTbe := by simp [State.setResult]
@[simp] theorem setResult_qWait (t : Nat) (v : Word) :
    (s.setResult t v).qWait = s.qWait := by simp [State.setResult]
@[simp] theorem setResult_qExec (t : Nat) (v : Word) :
    (s.setResult t v).qExec = s.qExec := by simp [State.setResult]
@[simp] theorem setResult_qResult (t : Nat) (v : Word) :
    (s.setResult t v).qResult = s.qResult := by simp [State.setResult]
@[simp] theorem setResult_qClear (t : Nat) (v : Word) :
    (s.setResult t v).qClear = s.qClear := by simp [State.setResult]
@[simp] theorem setResult_pc (t : Nat) (v : Word) :
    (s.setResult t v).pc = s.pc := by simp [State.setResult]
@[simp] theorem setResult_branchStall (t : Nat) (v : Word) :
    (s.setResult t v).branchStall = s.branchStall := by simp [State.setResult]
@[simp] theorem setResult_warn (t : Nat) (v : Word) :
    (s.setResult t v).warn = s.warn := by simp [State.setResult]
@[simp] theorem setResult_busEvent (t : Nat) (v : Word) :
    (s.setResult t v).busEvent = s.busEvent := by simp [State.setResult]
@[simp] theorem setResult_lines (t : Nat) (v : Word) :
    (s.setResult t v).lines = s.lines := by simp [State.setResult]
@[simp] theorem setResult_mem (t : Nat) (v : Word) :
    (s.setResult t v).mem = s.mem := by simp [State.setResult]
@[simp] theorem setResult_cycle (t : Nat) (v : Word) :
    (s.setResult t v).cycle = s.cycle := by simp [State.setResult]

/-! `freeUnit` changes only `units`. -/

@[simp] theorem freeUnit_cfg (t : Nat) : (s.freeUnit t).cfg = s.cfg := by simp [State.freeUnit]
@[simp] theorem freeUnit_imem (t : Nat) : (s.freeUnit t).imem = s.imem := by simp [State.freeUnit]
@[simp] theorem freeUnit_gpr (t : Nat) : (s.freeUnit t).gpr = s.gpr := by simp [State.freeUnit]
@[simp] theorem freeUnit_fpr (t : Nat) : (s.freeUnit t).fpr = s.fpr := by simp [State.freeUnit]
@[simp] theorem freeUnit_qTbe (t : Nat) : (s.freeUnit t).qTbe = s.qTbe := by simp [State.freeUnit]
@[simp] theorem freeUnit_qWait (t : Nat) :
    (s.freeUnit t).qWait = s.qWait := by simp [State.freeUnit]
@[simp] theorem freeUnit_qExec (t : Nat) :
    (s.freeUnit t).qExec = s.qExec := by simp [State.freeUnit]
@[simp] theorem freeUnit_qResult (t : Nat) :
    (s.freeUnit t).qResult = s.qResult := by simp [State.freeUnit]
@[simp] theorem freeUnit_qClear (t : Nat) :
    (s.freeUnit t).qClear = s.qClear := by simp [State.freeUnit]
@[simp] theorem freeUnit_pc (t : Nat) : (s.freeUnit t).pc = s.pc := by simp [State.freeUnit]
@[simp] theorem freeUnit_branchStall (t : Nat) :
    (s.freeUnit t).branchStall = s.branchStall := by simp [State.freeUnit]
@[simp] theorem freeUnit_warn (t : Nat) : (s.freeUnit t).warn = s.warn := by simp [State.freeUnit]
@[simp] theorem freeUnit_busEvent (t : Nat) :
    (s.freeUnit t).busEvent = s.busEvent := by simp [State.freeUnit]
@[simp] theorem freeUnit_lines (t : Nat) :
    (s.freeUnit t).lines = s.lines := by simp [State.freeUnit]
@[simp] theorem freeUnit_mem (t : Nat) : (s.freeUnit t).mem = s.mem := by simp [State.freeUnit]
@[simp] theorem freeUnit_cycle (t : Nat) :
    (s.freeUnit t).cycle = s.cycle := by simp [State.freeUnit]

/-! `tick` changes only `units`. -/

@[simp] theorem tick_cfg (t : Nat) : (s.tick t).cfg = s.cfg := by simp [State.tick]
@[simp] theorem tick_imem (t : Nat) : (s.tick t).imem = s.imem := by simp [State.tick]
@[simp] theorem tick_gpr (t : Nat) : (s.tick t).gpr = s.gpr := by simp [State.tick]
@[simp] theorem tick_fpr (t : Nat) : (s.tick t).fpr = s.fpr := by simp [State.tick]
@[simp] theorem tick_qTbe (t : Nat) : (s.tick t).qTbe = s.qTbe := by simp [State.tick]
@[simp] theorem tick_qWait (t : Nat) : (s.tick t).qWait = s.qWait := by simp [State.tick]
@[simp] theorem tick_qExec (t : Nat) : (s.tick t).qExec = s.qExec := by simp [State.tick]
@[simp] theorem tick_qResult (t : Nat) : (s.tick t).qResult = s.qResult := by simp [State.tick]
@[simp] theorem tick_qClear (t : Nat) : (s.tick t).qClear = s.qClear := by simp [State.tick]
@[simp] theorem tick_pc (t : Nat) : (s.tick t).pc = s.pc := by simp [State.tick]
@[simp] theorem tick_branchStall (t : Nat) :
    (s.tick t).branchStall = s.branchStall := by simp [State.tick]
@[simp] theorem tick_warn (t : Nat) : (s.tick t).warn = s.warn := by simp [State.tick]
@[simp] theorem tick_busEvent (t : Nat) : (s.tick t).busEvent = s.busEvent := by simp [State.tick]
@[simp] theorem tick_lines (t : Nat) : (s.tick t).lines = s.lines := by simp [State.tick]
@[simp] theorem tick_mem (t : Nat) : (s.tick t).mem = s.mem := by simp [State.tick]
@[simp] theorem tick_cycle (t : Nat) : (s.tick t).cycle = s.cycle := by simp [State.tick]

/-! `fanOut` changes only `gpr`, `fpr`, `units`. -/

@[simp] theorem fanOut_cfg (t : Nat) (v : Word) : (s.fanOut t v).cfg = s.cfg := rfl
@[simp] theorem fanOut_imem (t : Nat) (v : Word) : (s.fanOut t v).imem = s.imem := rfl
@[simp] theorem fanOut_qTbe (t : Nat) (v : Word) : (s.fanOut t v).qTbe = s.qTbe := rfl
@[simp] theorem fanOut_qWait (t : Nat) (v : Word) : (s.fanOut t v).qWait = s.qWait := rfl
@[simp] theorem fanOut_qExec (t : Nat) (v : Word) : (s.fanOut t v).qExec = s.qExec := rfl
@[simp] theorem fanOut_qResult (t : Nat) (v : Word) : (s.fanOut t v).qResult = s.qResult := rfl
@[simp] theorem fanOut_qClear (t : Nat) (v : Word) : (s.fanOut t v).qClear = s.qClear := rfl
@[simp] theorem fanOut_pc (t : Nat) (v : Word) : (s.fanOut t v).pc = s.pc := rfl
@[simp] theorem fanOut_branchStall (t : Nat) (v : Word) :
    (s.fanOut t v).branchStall = s.branchStall := rfl
@[simp] theorem fanOut_warn (t : Nat) (v : Word) : (s.fanOut t v).warn = s.warn := rfl
@[simp] theorem fanOut_busEvent (t : Nat) (v : Word) : (s.fanOut t v).busEvent = s.busEvent := rfl
@[simp] theorem fanOut_lines (t : Nat) (v : Word) : (s.fanOut t v).lines = s.lines := rfl
@[simp] theorem fanOut_mem (t : Nat) (v : Word) : (s.fanOut t v).mem = s.mem := rfl
@[simp] theorem fanOut_cycle (t : Nat) (v : Word) : (s.fanOut t v).cycle = s.cycle := rfl

/-! `publish` changes only `gpr`, `fpr`, `units`, `busEvent`. -/

@[simp] theorem publish_cfg (t : Nat) :
    (s.publish t).cfg = s.cfg := by unfold State.publish; split <;> rfl
@[simp] theorem publish_imem (t : Nat) :
    (s.publish t).imem = s.imem := by unfold State.publish; split <;> rfl
@[simp] theorem publish_qTbe (t : Nat) :
    (s.publish t).qTbe = s.qTbe := by unfold State.publish; split <;> rfl
@[simp] theorem publish_qWait (t : Nat) :
    (s.publish t).qWait = s.qWait := by unfold State.publish; split <;> rfl
@[simp] theorem publish_qExec (t : Nat) :
    (s.publish t).qExec = s.qExec := by unfold State.publish; split <;> rfl
@[simp] theorem publish_qResult (t : Nat) :
    (s.publish t).qResult = s.qResult := by unfold State.publish; split <;> rfl
@[simp] theorem publish_qClear (t : Nat) :
    (s.publish t).qClear = s.qClear := by unfold State.publish; split <;> rfl
@[simp] theorem publish_pc (t : Nat) :
    (s.publish t).pc = s.pc := by unfold State.publish; split <;> rfl
@[simp] theorem publish_branchStall (t : Nat) :
    (s.publish t).branchStall = s.branchStall := by unfold State.publish; split <;> rfl
@[simp] theorem publish_warn (t : Nat) :
    (s.publish t).warn = s.warn := by unfold State.publish; split <;> rfl
@[simp] theorem publish_lines (t : Nat) :
    (s.publish t).lines = s.lines := by unfold State.publish; split <;> rfl
@[simp] theorem publish_mem (t : Nat) :
    (s.publish t).mem = s.mem := by unfold State.publish; split <;> rfl
@[simp] theorem publish_cycle (t : Nat) :
    (s.publish t).cycle = s.cycle := by unfold State.publish; split <;> rfl

/-! `clearBus` changes only `busEvent`. -/

@[simp] theorem clearBus_cfg : (s.clearBus).cfg = s.cfg := rfl
@[simp] theorem clearBus_imem : (s.clearBus).imem = s.imem := rfl
@[simp] theorem clearBus_gpr : (s.clearBus).gpr = s.gpr := rfl
@[simp] theorem clearBus_fpr : (s.clearBus).fpr = s.fpr := rfl
@[simp] theorem clearBus_units : (s.clearBus).units = s.units := rfl
@[simp] theorem clearBus_qTbe : (s.clearBus).qTbe = s.qTbe := rfl
@[simp] theorem clearBus_qWait : (s.clearBus).qWait = s.qWait := rfl
@[simp] theorem clearBus_qExec : (s.clearBus).qExec = s.qExec := rfl
@[simp] theorem clearBus_qResult : (s.clearBus).qResult = s.qResult := rfl
@[simp] theorem clearBus_qClear : (s.clearBus).qClear = s.qClear := rfl
@[simp] theorem clearBus_pc : (s.clearBus).pc = s.pc := rfl
@[simp] theorem clearBus_branchStall : (s.clearBus).branchStall = s.branchStall := rfl
@[simp] theorem clearBus_warn : (s.clearBus).warn = s.warn := rfl
@[simp] theorem clearBus_lines : (s.clearBus).lines = s.lines := rfl
@[simp] theorem clearBus_mem : (s.clearBus).mem = s.mem := rfl
@[simp] theorem clearBus_cycle : (s.clearBus).cycle = s.cycle := rfl

/-! `memRead` changes only `lines`, `warn`. -/

@[simp] theorem memRead_cfg (ea : Word) (w : Width) :
    (s.memRead ea w).2.cfg = s.cfg := by unfold State.memRead; split <;> rfl
@[simp] theorem memRead_imem (ea : Word) (w : Width) :
    (s.memRead ea w).2.imem = s.imem := by unfold State.memRead; split <;> rfl
@[simp] theorem memRead_gpr (ea : Word) (w : Width) :
    (s.memRead ea w).2.gpr = s.gpr := by unfold State.memRead; split <;> rfl
@[simp] theorem memRead_fpr (ea : Word) (w : Width) :
    (s.memRead ea w).2.fpr = s.fpr := by unfold State.memRead; split <;> rfl
@[simp] theorem memRead_units (ea : Word) (w : Width) :
    (s.memRead ea w).2.units = s.units := by unfold State.memRead; split <;> rfl
@[simp] theorem memRead_qTbe (ea : Word) (w : Width) :
    (s.memRead ea w).2.qTbe = s.qTbe := by unfold State.memRead; split <;> rfl
@[simp] theorem memRead_qWait (ea : Word) (w : Width) :
    (s.memRead ea w).2.qWait = s.qWait := by unfold State.memRead; split <;> rfl
@[simp] theorem memRead_qExec (ea : Word) (w : Width) :
    (s.memRead ea w).2.qExec = s.qExec := by unfold State.memRead; split <;> rfl
@[simp] theorem memRead_qResult (ea : Word) (w : Width) :
    (s.memRead ea w).2.qResult = s.qResult := by unfold State.memRead; split <;> rfl
@[simp] theorem memRead_qClear (ea : Word) (w : Width) :
    (s.memRead ea w).2.qClear = s.qClear := by unfold State.memRead; split <;> rfl
@[simp] theorem memRead_pc (ea : Word) (w : Width) :
    (s.memRead ea w).2.pc = s.pc := by unfold State.memRead; split <;> rfl
@[simp] theorem memRead_branchStall (ea : Word) (w : Width) :
    (s.memRead ea w).2.branchStall = s.branchStall := by unfold State.memRead; split <;> rfl
@[simp] theorem memRead_busEvent (ea : Word) (w : Width) :
    (s.memRead ea w).2.busEvent = s.busEvent := by unfold State.memRead; split <;> rfl
@[simp] theorem memRead_mem (ea : Word) (w : Width) :
    (s.memRead ea w).2.mem = s.mem := by unfold State.memRead; split <;> rfl
@[simp] theorem memRead_cycle (ea : Word) (w : Width) :
    (s.memRead ea w).2.cycle = s.cycle := by unfold State.memRead; split <;> rfl

/-! `memWrite` changes only `mem`, `lines`, `warn`. -/

@[simp] theorem memWrite_cfg (ea : Word) (w : Width) (v : Word) :
    (s.memWrite ea w v).cfg = s.cfg := by unfold State.memWrite; split <;> rfl
@[simp] theorem memWrite_imem (ea : Word) (w : Width) (v : Word) :
    (s.memWrite ea w v).imem = s.imem := by unfold State.memWrite; split <;> rfl
@[simp] theorem memWrite_gpr (ea : Word) (w : Width) (v : Word) :
    (s.memWrite ea w v).gpr = s.gpr := by unfold State.memWrite; split <;> rfl
@[simp] theorem memWrite_fpr (ea : Word) (w : Width) (v : Word) :
    (s.memWrite ea w v).fpr = s.fpr := by unfold State.memWrite; split <;> rfl
@[simp] theorem memWrite_units (ea : Word) (w : Width) (v : Word) :
    (s.memWrite ea w v).units = s.units := by unfold State.memWrite; split <;> rfl
@[simp] theorem memWrite_qTbe (ea : Word) (w : Width) (v : Word) :
    (s.memWrite ea w v).qTbe = s.qTbe := by unfold State.memWrite; split <;> rfl
@[simp] theorem memWrite_qWait (ea : Word) (w : Width) (v : Word) :
    (s.memWrite ea w v).qWait = s.qWait := by unfold State.memWrite; split <;> rfl
@[simp] theorem memWrite_qExec (ea : Word) (w : Width) (v : Word) :
    (s.memWrite ea w v).qExec = s.qExec := by unfold State.memWrite; split <;> rfl
@[simp] theorem memWrite_qResult (ea : Word) (w : Width) (v : Word) :
    (s.memWrite ea w v).qResult = s.qResult := by unfold State.memWrite; split <;> rfl
@[simp] theorem memWrite_qClear (ea : Word) (w : Width) (v : Word) :
    (s.memWrite ea w v).qClear = s.qClear := by unfold State.memWrite; split <;> rfl
@[simp] theorem memWrite_pc (ea : Word) (w : Width) (v : Word) :
    (s.memWrite ea w v).pc = s.pc := by unfold State.memWrite; split <;> rfl
@[simp] theorem memWrite_branchStall (ea : Word) (w : Width) (v : Word) :
    (s.memWrite ea w v).branchStall = s.branchStall := by unfold State.memWrite; split <;> rfl
@[simp] theorem memWrite_busEvent (ea : Word) (w : Width) (v : Word) :
    (s.memWrite ea w v).busEvent = s.busEvent := by unfold State.memWrite; split <;> rfl
@[simp] theorem memWrite_cycle (ea : Word) (w : Width) (v : Word) :
    (s.memWrite ea w v).cycle = s.cycle := by unfold State.memWrite; split <;> rfl

/-! `dispatchUnit` changes only `units`, `qExec`. -/

@[simp] theorem dispatchUnit_cfg (t : Nat) :
    (s.dispatchUnit t).cfg = s.cfg := by simp [State.dispatchUnit]
@[simp] theorem dispatchUnit_imem (t : Nat) :
    (s.dispatchUnit t).imem = s.imem := by simp [State.dispatchUnit]
@[simp] theorem dispatchUnit_gpr (t : Nat) :
    (s.dispatchUnit t).gpr = s.gpr := by simp [State.dispatchUnit]
@[simp] theorem dispatchUnit_fpr (t : Nat) :
    (s.dispatchUnit t).fpr = s.fpr := by simp [State.dispatchUnit]
@[simp] theorem dispatchUnit_qTbe (t : Nat) :
    (s.dispatchUnit t).qTbe = s.qTbe := by simp [State.dispatchUnit]
@[simp] theorem dispatchUnit_qWait (t : Nat) :
    (s.dispatchUnit t).qWait = s.qWait := by simp [State.dispatchUnit]
@[simp] theorem dispatchUnit_qResult (t : Nat) :
    (s.dispatchUnit t).qResult = s.qResult := by simp [State.dispatchUnit]
@[simp] theorem dispatchUnit_qClear (t : Nat) :
    (s.dispatchUnit t).qClear = s.qClear := by simp [State.dispatchUnit]
@[simp] theorem dispatchUnit_pc (t : Nat) :
    (s.dispatchUnit t).pc = s.pc := by simp [State.dispatchUnit]
@[simp] theorem dispatchUnit_branchStall (t : Nat) :
    (s.dispatchUnit t).branchStall = s.branchStall := by simp [State.dispatchUnit]
@[simp] theorem dispatchUnit_warn (t : Nat) :
    (s.dispatchUnit t).warn = s.warn := by simp [State.dispatchUnit]
@[simp] theorem dispatchUnit_busEvent (t : Nat) :
    (s.dispatchUnit t).busEvent = s.busEvent := by simp [State.dispatchUnit]
@[simp] theorem dispatchUnit_lines (t : Nat) :
    (s.dispatchUnit t).lines = s.lines := by simp [State.dispatchUnit]
@[simp] theorem dispatchUnit_mem (t : Nat) :
    (s.dispatchUnit t).mem = s.mem := by simp [State.dispatchUnit]
@[simp] theorem dispatchUnit_cycle (t : Nat) :
    (s.dispatchUnit t).cycle = s.cycle := by simp [State.dispatchUnit]

/-! `endCycle` changes only `cycle`. -/

@[simp] theorem endCycle_cfg : (s.endCycle).cfg = s.cfg := rfl
@[simp] theorem endCycle_imem : (s.endCycle).imem = s.imem := rfl
@[simp] theorem endCycle_gpr : (s.endCycle).gpr = s.gpr := rfl
@[simp] theorem endCycle_fpr : (s.endCycle).fpr = s.fpr := rfl
@[simp] theorem endCycle_units : (s.endCycle).units = s.units := rfl
@[simp] theorem endCycle_qTbe : (s.endCycle).qTbe = s.qTbe := rfl
@[simp] theorem endCycle_qWait : (s.endCycle).qWait = s.qWait := rfl
@[simp] theorem endCycle_qExec : (s.endCycle).qExec = s.qExec := rfl
@[simp] theorem endCycle_qResult : (s.endCycle).qResult = s.qResult := rfl
@[simp] theorem endCycle_qClear : (s.endCycle).qClear = s.qClear := rfl
@[simp] theorem endCycle_pc : (s.endCycle).pc = s.pc := rfl
@[simp] theorem endCycle_branchStall : (s.endCycle).branchStall = s.branchStall := rfl
@[simp] theorem endCycle_warn : (s.endCycle).warn = s.warn := rfl
@[simp] theorem endCycle_busEvent : (s.endCycle).busEvent = s.busEvent := rfl
@[simp] theorem endCycle_lines : (s.endCycle).lines = s.lines := rfl
@[simp] theorem endCycle_mem : (s.endCycle).mem = s.mem := rfl

/-! The fields that an update sets. -/

@[simp] theorem warnOn_warn (a : Anomaly) : (s.warnOn a).warn = s.warn.raise a := rfl
@[simp] theorem clearBus_busEvent : s.clearBus.busEvent = none := rfl
@[simp] theorem endCycle_cycle : s.endCycle.cycle = s.cycle + 1 := rfl
@[simp] theorem dispatchUnit_qExec (t : Nat) : (s.dispatchUnit t).qExec = s.qExec ++ [t] := by
  simp [State.dispatchUnit]

end Sys2Proof.Machine
end

