-- ==== Sys2Proof/Laws/Registers.lean ====
section
/-! SUPPORT. The laws of the register files (R130 to R132): what a read gives after each update. -/

namespace Sys2Proof.Machine

/-- The state's register file holds this register: a write to it lands. -/
def State.holds (s : State) (r : Reg) : Prop :=
  match r.file with
  | .gpr => r.index.toNat < s.gpr.length
  | .fpr => r.index.toNat < s.fpr.length

theorem reg_congr {s s' : State} (hg : s'.gpr = s.gpr) (hf : s'.fpr = s.fpr) (r : Reg) :
    s'.reg r = s.reg r := by
  unfold State.reg; rw [hg, hf]

/-- R107 in terms of the arrays. -/
theorem holds_of_hasRegister {s : State} (hg : s.gpr.length = s.cfg.nGpr)
    (hf : s.fpr.length = s.cfg.nFpr) {r : Reg} (h : s.cfg.hasRegister r = true) : s.holds r := by
  unfold State.holds
  unfold Config.hasRegister at h
  cases hr : r.file <;> simp_all

theorem reg_setReg_same (s : State) {r : Reg} (h : s.holds r) (x : Register) :
    (s.setReg r x).reg r = x := by
  unfold State.holds at h
  unfold State.setReg State.reg
  cases hr : r.file <;> simp_all

theorem reg_setReg_ne (s : State) {r r' : Reg} (h : r' ≠ r) (x : Register) :
    (s.setReg r x).reg r' = s.reg r' := by
  have hne : r'.file = r.file → r'.index.toNat ≠ r.index.toNat := by
    intro hf hi
    apply h
    cases r; cases r'
    simp_all [BitVec.toNat_inj]
  unfold State.setReg State.reg
  cases hr : r.file <;> cases hr' : r'.file <;> simp_all [List.getD, List.getElem?_set] <;>
    rw [if_neg (Ne.symm hne)]

theorem holds_setReg (s : State) (r r' : Reg) (x : Register) :
    (s.setReg r x).holds r' ↔ s.holds r' := by
  unfold State.setReg State.holds
  cases r.file <;> cases r'.file <;> simp

/-- R131 on the renamed register: the producer is the tag, the value field stays. -/
theorem reg_rename_same (s : State) {r : Reg} (h : s.holds r) (t : Nat) :
    (s.rename r t).reg r = { s.reg r with producer := t } :=
  reg_setReg_same s h _

/-- R131 on every other register: unchanged. -/
theorem reg_rename_ne (s : State) {r r' : Reg} (h : r' ≠ r) (t : Nat) :
    (s.rename r t).reg r' = s.reg r' :=
  reg_setReg_ne s h _

/-- R132 when the register waits for this tag. -/
theorem resolve_of_eq {t : Nat} {x : Register} (v : Word) (h : x.producer = t) :
    x.resolve t v = { value := v, producer := 0 } := if_pos h

/-- R132, R133 when it does not: a stale broadcast changes nothing. -/
theorem resolve_of_ne {t : Nat} {x : Register} (v : Word) (h : x.producer ≠ t) :
    x.resolve t v = x := if_neg h

/-- R166: what the fan-out of a tag does to every register. -/
theorem reg_fanOut (s : State) {t : Nat} (ht : t ≠ 0) (v : Word) (r : Reg) :
    (s.fanOut t v).reg r = (s.reg r).resolve t v := by
  have h0 : Register.reset = Register.reset.resolve t v := by
    rw [resolve_of_ne]; exact fun h => ht h.symm
  unfold State.fanOut State.reg
  cases r.file <;> simp only [List.getD_eq_getElem?_getD, List.getElem?_map]
  · cases s.gpr[r.index.toNat]? with
    | none => exact h0
    | some x => rfl
  · cases s.fpr[r.index.toNat]? with
    | none => exact h0
    | some x => rfl

end Sys2Proof.Machine
end

