-- ==== Sys2Proof/Laws/Units.lean ====
section
/-! SUPPORT. The laws of the functional-unit pool (R24, R135, R166): what a unit reads after each update, and
what the allocator answers. -/

namespace Sys2Proof.Machine

theorem unit_congr {s s' : State} (h : s'.units = s.units) (t : Nat) : s'.unit t = s.unit t := by
  unfold State.unit; rw [h]

@[simp] theorem unit_zero (s : State) : s.unit 0 = FunctionalUnit.reset := rfl

/-- A tag past the pool names no unit. -/
theorem unit_of_length_lt (s : State) {t : Nat} (h : s.units.length < t) :
    s.unit t = FunctionalUnit.reset := by
  cases t with
  | zero => rfl
  | succ n => simp [State.unit, List.getD, List.getElem?_eq_none (Nat.lt_succ_iff.mp h)]

/-- A busy unit stands in the pool. -/
theorem busy_range {s : State} {t : Nat} (h : (s.unit t).busy = true) :
    t ≠ 0 ∧ t ≤ s.units.length := by
  constructor
  · rintro rfl; simp [FunctionalUnit.reset] at h
  · by_contra hc
    rw [unit_of_length_lt s (by omega)] at h
    simp [FunctionalUnit.reset] at h

@[simp] theorem length_setUnit (s : State) (t : Nat) (u : FunctionalUnit) :
    (s.setUnit t u).units.length = s.units.length := by
  cases t <;> simp [State.setUnit]

@[simp] theorem length_fanOut (s : State) (t : Nat) (v : Word) :
    (s.fanOut t v).units.length = s.units.length := by simp [State.fanOut]

theorem unit_setUnit_same (s : State) {t : Nat} (h0 : t ≠ 0) (h : t ≤ s.units.length)
    (u : FunctionalUnit) : (s.setUnit t u).unit t = u := by
  obtain ⟨n, rfl⟩ := Nat.exists_eq_succ_of_ne_zero h0
  simp [State.setUnit, State.unit, List.getD, Nat.lt_of_succ_le h]

theorem unit_setUnit_ne (s : State) {t t' : Nat} (h : t' ≠ t) (u : FunctionalUnit) :
    (s.setUnit t u).unit t' = s.unit t' := by
  cases t with
  | zero => rfl
  | succ n =>
    cases t' with
    | zero => rfl
    | succ m =>
      have hne : ¬ n = m := by omega
      simp [State.setUnit, State.unit, List.getD, hne]

/-- Storing a unit, seen from any tag: the stored unit where the write lands, the old one elsewhere. -/
theorem unit_setUnit (s : State) (t t' : Nat) (u : FunctionalUnit) :
    (s.setUnit t u).unit t' =
      if t' = t ∧ t ≠ 0 ∧ t ≤ s.units.length then u else s.unit t' := by
  split
  · rename_i h
    obtain ⟨rfl, h0, h1⟩ := h
    exact unit_setUnit_same s h0 h1 u
  · rename_i h
    by_cases hne : t' = t
    · subst hne
      by_cases h0 : t' = 0
      · subst h0; rfl
      · have hl : s.units.length < t' := by
          by_contra hc; exact h ⟨rfl, h0, by omega⟩
        rw [unit_of_length_lt s hl, unit_of_length_lt _ (by simpa using hl)]
    · exact unit_setUnit_ne s hne u

/-- A broadcast leaves a free unit as it is. -/
theorem deliver_of_free {u : FunctionalUnit} (h : u.busy = false) (t : Nat) (v : Word) :
    u.deliver t v = u := by
  unfold FunctionalUnit.deliver; rw [if_neg (by simp [h])]

/-- R166: what the fan-out does to every unit. -/
theorem unit_fanOut (s : State) (t : Nat) (v : Word) (u : Nat) :
    (s.fanOut t v).unit u = (s.unit u).deliver t v := by
  cases u with
  | zero => rfl
  | succ n =>
    simp only [State.unit, State.fanOut, List.getD_eq_getElem?_getD, List.getElem?_map]
    cases s.units[n]? with
    | none => rfl
    | some x => rfl

/-- R166: what the fan-out does to a busy unit's slots, and that it does nothing else. -/
theorem deliver_of_busy {u : FunctionalUnit} (h : u.busy = true) (t : Nat) (v : Word) :
    u.deliver t v =
      { u with j := u.j.deliver t v, k := u.k.deliver t v, data := u.data.deliver t v } := by
  unfold FunctionalUnit.deliver; rw [if_pos h]

@[simp] theorem deliver_busy (u : FunctionalUnit) (t : Nat) (v : Word) :
    (u.deliver t v).busy = u.busy := by unfold FunctionalUnit.deliver; split <;> rfl
@[simp] theorem deliver_op (u : FunctionalUnit) (t : Nat) (v : Word) :
    (u.deliver t v).op = u.op := by unfold FunctionalUnit.deliver; split <;> rfl
@[simp] theorem deliver_imm (u : FunctionalUnit) (t : Nat) (v : Word) :
    (u.deliver t v).imm = u.imm := by unfold FunctionalUnit.deliver; split <;> rfl
@[simp] theorem deliver_target (u : FunctionalUnit) (t : Nat) (v : Word) :
    (u.deliver t v).target = u.target := by unfold FunctionalUnit.deliver; split <;> rfl
@[simp] theorem deliver_remaining (u : FunctionalUnit) (t : Nat) (v : Word) :
    (u.deliver t v).remaining = u.remaining := by unfold FunctionalUnit.deliver; split <;> rfl
@[simp] theorem deliver_result (u : FunctionalUnit) (t : Nat) (v : Word) :
    (u.deliver t v).result = u.result := by unfold FunctionalUnit.deliver; split <;> rfl
@[simp] theorem deliver_squashed (u : FunctionalUnit) (t : Nat) (v : Word) :
    (u.deliver t v).squashed = u.squashed := by unfold FunctionalUnit.deliver; split <;> rfl

@[simp] theorem deliver_resolved (t : Nat) (v w : Word) :
    (Operand.resolved w).deliver t v = .resolved w := rfl

theorem deliver_pending (t u : Nat) (v : Word) :
    (Operand.pending u).deliver t v = if u = t then .resolved v else .pending u := by
  simp [Operand.deliver]

/-- R25: the tags of a class are `base + 1 .. base + count`. -/
theorem mem_classTags {c : Config} {k : UnitClass} {t : Nat} :
    t ∈ classTags c k ↔ classBase c k < t ∧ t ≤ classBase c k + classCount c k := by
  unfold classTags; rw [List.mem_range'_1]; omega

/-- R25: every class's tags lie in `1 .. N_UNITS`. -/
theorem classTags_range {c : Config} {k : UnitClass} {t : Nat} (h : t ∈ classTags c k) :
    t ≠ 0 ∧ t ≤ unitCount c := by
  rw [mem_classTags] at h
  unfold unitCount
  cases k <;> simp only [classBase, classCount] at h <;> omega

/-- The allocator answers a free unit of the class (R135). -/
theorem allocate_some {s : State} {k : UnitClass} {t : Nat} (h : s.allocate k = some t) :
    t ∈ classTags s.cfg k ∧ (s.unit t).busy = false := by
  unfold State.allocate at h
  have := List.find?_some h
  exact ⟨List.mem_of_find?_eq_some h, by simpa using this⟩

/-- The allocator answers `Busy` exactly when every unit of the class is busy (R135). -/
theorem allocate_none {s : State} {k : UnitClass} :
    s.allocate k = none ↔ ∀ t ∈ classTags s.cfg k, (s.unit t).busy = true := by
  unfold State.allocate; rw [List.find?_eq_none]; simp

end Sys2Proof.Machine
end

