-- ==== Sys2Proof/Laws/Checks.lean ====
section
/-! SUPPORT. Checks of the invariants that the kernel can run on a state written out, and the proofs that a state
that passes them meets the invariant. The tests use them to show that hypotheses can be met. -/

namespace Sys2Proof.Machine

/-! ### The checks -/

/-- The sizes of R20. -/
def shapeCheck (s : State) : Bool :=
  decide (s.gpr.length = s.cfg.nGpr) && decide (s.fpr.length = s.cfg.nFpr) &&
    decide (s.units.length = unitCount s.cfg) && decide (s.lines.length = cacheLineCount s.cfg)

/-- R33, R34, R79 on the whole line array. -/
def cacheCheck (c : Config) (m : Memory) (lines : List CacheLine) : Bool :=
  decide (lines.length = cacheLineCount c) &&
    lines.all (fun l => decide (l.data.length = c.blockSize) && decide (l.tag < 2 ^ tagBits c)) &&
    m.wf && m.below c.memSize &&
    (List.range (cacheLineCount c)).all fun i =>
      !(lineAt c lines i).valid || (List.range c.blockSize).all fun o =>
        decide ((lineAt c lines i).data.getD o 0 =
          m.read (composeAddress c (lineAt c lines i).tag i o))

/-- The tags `0 .. N_UNITS`. -/
def State.allTags (s : State) : List Nat := List.range (s.units.length + 1)

/-- R36 items 1, 2, 3 and 6 on the whole pool. -/
def queueCheck (s : State) : Bool :=
  decide s.queued.Nodup && s.queued.all (fun t => decide (t ≤ s.units.length)) &&
    s.allTags.all (fun t =>
      (s.unit t).busy == s.queued.contains t &&
        ((s.unit t).busy || decide (s.unit t = FunctionalUnit.reset))) &&
    decide (s.qTbe.length ≤ 1)

/-- R36 item 4 on one tag. -/
def outstandingCheck (s : State) (t : Nat) : Bool :=
  hasDest (s.unit t).op && (s.qTbe ++ s.qWait ++ s.qExec ++ s.qResult).contains t

/-- R36 item 5 on one slot of unit `u`. -/
def slotCheck (s : State) (u : Nat) (o : Operand) : Bool :=
  match o with
  | .resolved _ => true
  | .pending t => (s.qTbe ++ s.qWait).contains u && outstandingCheck s t

/-- R36 items 4, 5 and 7 on the whole state. -/
def dependencyCheck (s : State) : Bool :=
  s.queued.all (fun t => (opcodeClass (s.unit t).op).any fun k => (classTags s.cfg k).contains t) &&
    (s.gpr ++ s.fpr).all (fun x => x.producer == 0 || outstandingCheck s x.producer) &&
    s.allTags.all (fun u => slotCheck s u (s.unit u).j && slotCheck s u (s.unit u).k &&
      slotCheck s u (s.unit u).data && !(s.unit u).squashed) &&
    s.qResult.all fun t => !hasDest (s.unit t).op || (s.unit t).result.isSome

/-- R30. -/
def branchCheck (s : State) : Bool :=
  decide (((s.qTbe ++ s.qWait ++ s.qExec).filter fun t => isBranch (s.unit t).op).length =
    if s.branchStall then 1 else 0)

/-- Everything that `State.Inv` says. -/
def invCheck (s : State) : Bool :=
  decide (s.admission = none) && shapeCheck s && cacheCheck s.cfg s.mem s.lines && queueCheck s &&
    dependencyCheck s && branchCheck s

/-! ### What the checks say -/

theorem shaped_of_check {s : State} (h : shapeCheck s = true) : s.Shaped := by
  simp only [shapeCheck, Bool.and_eq_true, decide_eq_true_eq] at h
  exact ⟨h.1.1.1, h.1.1.2, h.1.2, h.2⟩

theorem cacheOk_of_check {c : Config} {m : Memory} {lines : List CacheLine}
    (h : cacheCheck c m lines = true) : CacheOk c m lines := by
  simp only [cacheCheck, Bool.and_eq_true, decide_eq_true_eq, List.all_eq_true, Bool.or_eq_true,
    Bool.not_eq_true', List.mem_range] at h
  obtain ⟨⟨⟨⟨hsize, hlines⟩, hwf⟩, hbelow⟩, hcoherent⟩ := h
  refine ⟨hsize, fun l hl => ⟨(hlines l hl).1, (hlines l hl).2⟩, hwf, hbelow, fun i o hi ho hv => ?_⟩
  rcases hcoherent i hi with hf | ht
  · rw [hv] at hf
    cases hf
  · exact ht o ho

/-- A unit is one of the pool or reads as reset. -/
theorem unit_listed (s : State) (t : Nat) : t ∈ s.allTags ∨ s.unit t = FunctionalUnit.reset := by
  by_cases h : s.units.length < t
  · exact .inr (unit_of_length_lt s h)
  · exact .inl (List.mem_range.mpr (by omega))

theorem queueInv_of_check {s : State} (h : queueCheck s = true) : s.QueueInv := by
  simp only [queueCheck, Bool.and_eq_true, decide_eq_true_eq, List.all_eq_true, Bool.or_eq_true,
    beq_iff_eq] at h
  obtain ⟨⟨⟨honce, hrange⟩, hunits⟩, hone⟩ := h
  refine ⟨honce, fun t => ?_, fun t hfree => ?_, hone⟩
  · rcases unit_listed s t with ht | ht
    · rw [(hunits t ht).1, List.contains_iff_mem]
    · constructor
      · intro hb
        rw [ht] at hb
        cases hb
      · intro hq
        have hmem : t ∈ s.allTags := List.mem_range.mpr (by have := hrange t hq; omega)
        rw [(hunits t hmem).1, List.contains_iff_mem]
        exact hq
  · rcases unit_listed s t with ht | ht
    · rcases (hunits t ht).2 with hb | hr
      · rw [hfree] at hb
        cases hb
      · exact hr
    · exact ht

theorem outstanding_of_check {s : State} {t : Nat} (h : outstandingCheck s t = true) :
    s.Outstanding t := by
  simp only [outstandingCheck, Bool.and_eq_true, List.contains_iff_mem] at h
  exact h

theorem slot_of_check {s : State} {u t : Nat} {o : Operand} (h : slotCheck s u o = true)
    (ho : o = .pending t) : u ∈ s.qTbe ++ s.qWait ∧ s.Outstanding t := by
  subst ho
  simp only [slotCheck, Bool.and_eq_true, List.contains_iff_mem] at h
  exact ⟨h.1, outstanding_of_check h.2⟩

/-- A register is one of the files or reads as reset. -/
theorem reg_listed (s : State) (r : Reg) : s.reg r ∈ s.gpr ++ s.fpr ∨ s.reg r = Register.reset := by
  have key : ∀ l : List Register, l.getD r.index.toNat Register.reset ∈ l ∨
      l.getD r.index.toNat Register.reset = Register.reset := by
    intro l
    by_cases h : r.index.toNat < l.length
    · exact .inl (by simp [List.getD, h])
    · exact .inr (by simp [List.getD, Nat.le_of_not_lt h])
  unfold State.reg
  cases r.file with
  | gpr => exact (key s.gpr).imp (List.mem_append_left _) id
  | fpr => exact (key s.fpr).imp (List.mem_append_right _) id

theorem dependencyInv_of_check {s : State} (h : dependencyCheck s = true) : s.DependencyInv := by
  simp only [dependencyCheck, Bool.and_eq_true, List.all_eq_true, Bool.or_eq_true, beq_iff_eq,
    Option.any_eq_true, Bool.not_eq_true', List.contains_iff_mem] at h
  obtain ⟨⟨⟨hclass, hproducers⟩, hslots⟩, hresults⟩ := h
  refine ⟨hclass, fun r hr => ?_, fun u t hw => ?_, fun t ht hd => ?_, fun t => ?_⟩
  · rcases reg_listed s r with hm | hm
    · exact outstanding_of_check ((hproducers _ hm).resolve_left hr)
    · rw [hm] at hr
      exact absurd rfl hr
  · rcases unit_listed s u with hu | hu
    · rcases hw with hw | hw | hw
      · exact slot_of_check (hslots u hu).1.1.1 hw
      · exact slot_of_check (hslots u hu).1.1.2 hw
      · exact slot_of_check (hslots u hu).1.2 hw
    · rw [hu] at hw
      simp [FunctionalUnit.waitsOn, FunctionalUnit.reset] at hw
  · rcases hresults t ht with hf | hs
    · rw [hd] at hf
      cases hf
    · exact Option.isSome_iff_ne_none.mp hs
  · rcases unit_listed s t with ht | ht
    · exact (hslots t ht).2
    · rw [ht]
      rfl

/-- A state that passes the check meets the invariant. -/
theorem inv_of_check {s : State} (h : invCheck s = true) : s.Inv := by
  simp only [invCheck, Bool.and_eq_true, decide_eq_true_eq] at h
  obtain ⟨⟨⟨⟨⟨hadm, hshape⟩, hcache⟩, hqueue⟩, hdep⟩, hbranch⟩ := h
  refine ⟨hadm, shaped_of_check hshape, cacheOk_of_check hcache, queueInv_of_check hqueue,
    dependencyInv_of_check hdep, ?_⟩
  simp only [branchCheck, decide_eq_true_eq] at hbranch
  exact hbranch

/-- Every register of a state without pending producers has producer 0. -/
theorem noProducer_of_check {s : State}
    (h : (s.gpr ++ s.fpr).all (fun x => x.producer == 0) = true) (r : Reg) :
    (s.reg r).producer = 0 := by
  rw [List.all_eq_true] at h
  rcases reg_listed s r with hm | hm
  · exact beq_iff_eq.mp (h _ hm)
  · rw [hm]
    rfl

/-- Every unit of a state whose pool is at reset reads as reset. -/
theorem unitsFree_of_check {s : State}
    (h : s.units.all (fun u => decide (u = FunctionalUnit.reset)) = true) (t : Nat) :
    s.unit t = FunctionalUnit.reset := by
  rw [List.all_eq_true] at h
  cases t with
  | zero => rfl
  | succ n =>
    by_cases hn : n < s.units.length
    · have hm : s.units.getD n FunctionalUnit.reset ∈ s.units := by simp [List.getD, hn]
      exact of_decide_eq_true (h _ hm)
    · exact unit_of_length_lt s (by omega)

end Sys2Proof.Machine
end

