-- ==== Sys2Proof/Laws/Completion.lean ====
section
/-! SUPPORT. The law of `State.complete` (R175, R176): whatever the opcode, it changes only its own unit's
result (and squash bit), the flags, the lines, the pc and the stall bit. -/

namespace Sys2Proof.Machine

/-- What a completion leaves of its own unit: everything but the result and the squash bit. -/
def SameButResult (u u' : FunctionalUnit) : Prop :=
  u' = { u with result := u'.result, squashed := u'.squashed }

theorem SameButResult.rfl' (u : FunctionalUnit) : SameButResult u u := rfl

theorem SameOutsideUnit.refl (s : State) (t : Nat) : SameOutsideUnit s s t := by
  constructor <;> intros <;> rfl

theorem sameOutside_setUnit {s s' : State} {t : Nat} (u : FunctionalUnit)
    (h : SameOutsideUnit s s' t) : SameOutsideUnit s (s'.setUnit t u) t := by
  constructor
  case otherUnits => intro u hu; rw [unit_setUnit_ne _ hu, h.otherUnits u hu]
  all_goals simp [h.cfg, h.imem, h.gpr, h.fpr, h.tbe, h.wait, h.exec, h.result, h.clear, h.busEvent,
    h.mem, h.cycle]

theorem sameOutside_warnOn {s : State} {t : Nat} (a : Anomaly) :
    SameOutsideUnit s (s.warnOn a) t := by
  constructor <;> intros <;> rfl

theorem sameOutside_memRead {s : State} {t : Nat} (ea : Word) (w : Width) :
    SameOutsideUnit s (s.memRead ea w).2 t := by
  constructor <;> intros <;> first | simp | exact unit_congr (by simp) _

/-- Writing a result into a unit, or past the pool, changes that unit's result only. -/
theorem setResult_unit (s : State) (t : Nat) (v : Word) :
    SameButResult (s.unit t) ((s.setResult t v).unit t) ∧
      (t ≠ 0 → t ≤ s.units.length → ((s.setResult t v).unit t).result = some v) := by
  unfold State.setResult
  rw [unit_setUnit]
  constructor
  · split <;> rfl
  · intro h0 h1; rw [if_pos ⟨rfl, h0, h1⟩]

/-- What completing the unit `t` does to the state, and to the unit itself. -/
structure CompletedAs (s s' : State) (t : Nat) : Prop where
  same : SameOutsideUnit s s' t
  unit : SameButResult (s.unit t) (s'.unit t)
  length : s'.units.length = s.units.length
  result : t ≠ 0 → t ≤ s.units.length → hasDest (s.unit t).op = true → (s'.unit t).result ≠ none
  stall : s'.branchStall = (if isBranch (s.unit t).op then false else s.branchStall)
  pc : isBranch (s.unit t).op = false → s'.pc = s.pc
  lines : opcodeClass (s.unit t).op ≠ some .load → s'.lines = s.lines

theorem completeArith_spec (s : State) (t : Nat) (warns : Word → Word → Bool)
    (f : Word → Word → Word) : ∃ s1 v, s.completeArith t warns f = s1.setResult t v ∧
      SameOutsideUnit s s1 t ∧ s1.unit t = s.unit t ∧ s1.units = s.units ∧
      s1.branchStall = s.branchStall ∧ s1.pc = s.pc ∧ s1.lines = s.lines := by
  unfold State.completeArith
  split
  · rename_i a b _ _
    refine ⟨_, _, rfl, ?_⟩
    split
    · exact ⟨sameOutside_warnOn _, rfl, rfl, rfl, rfl, rfl⟩
    · exact ⟨SameOutsideUnit.refl s t, rfl, rfl, rfl, rfl, rfl⟩
  · exact ⟨_, _, rfl, sameOutside_warnOn _, rfl, rfl, rfl, rfl, rfl⟩

theorem completedAs_setResult {s s1 : State} {t : Nat} (v : Word)
    (hs : SameOutsideUnit s s1 t) (hu : s1.units = s.units) (hb : s1.branchStall = s.branchStall)
    (hp : s1.pc = s.pc) (hnb : isBranch (s.unit t).op = false)
    (hl : opcodeClass (s.unit t).op ≠ some .load → s1.lines = s.lines) :
    CompletedAs s (s1.setResult t v) t := by
  have hut : s1.unit t = s.unit t := unit_congr hu t
  obtain ⟨h1, h2⟩ := setResult_unit s1 t v
  rw [hut] at h1
  rw [hu] at h2
  exact ⟨sameOutside_setUnit _ hs, h1, by simp [State.setResult, hu],
    fun h0 ht _ => by rw [h2 h0 ht]; simp, by simp [hnb, hb], fun _ => by simp [hp],
    fun h => by simp [hl h]⟩

theorem completeArith_completedAs {s : State} {t : Nat} (warns : Word → Word → Bool)
    (f : Word → Word → Word) (hnb : isBranch (s.unit t).op = false) :
    CompletedAs s (s.completeArith t warns f) t := by
  obtain ⟨s1, v, he, hs, _, hu, hb, hp, hl⟩ := completeArith_spec s t warns f
  rw [he]
  exact completedAs_setResult v hs hu hb hp hnb fun _ => hl

theorem completeLoad_completedAs {s : State} {t : Nat} (w : Width)
    (hc : opcodeClass (s.unit t).op = some .load) (hnb : isBranch (s.unit t).op = false) :
    CompletedAs s (s.completeLoad t w) t := by
  unfold State.completeLoad
  split
  · exact completedAs_setResult _ (sameOutside_memRead _ _) (by simp) (by simp) (by simp) hnb
      fun h => absurd hc h
  · exact completedAs_setResult _ (sameOutside_warnOn _) rfl rfl rfl hnb fun h => absurd hc h

theorem completeStore_completedAs {s : State} {t : Nat} (hd : hasDest (s.unit t).op = false)
    (hnb : isBranch (s.unit t).op = false) : CompletedAs s (s.completeStore t) t := by
  unfold State.completeStore
  split
  · exact ⟨SameOutsideUnit.refl s t, rfl, rfl, fun _ _ h => by simp [hd] at h, by simp [hnb],
      fun _ => rfl, fun _ => rfl⟩
  · refine ⟨sameOutside_setUnit _ (sameOutside_warnOn _), ?_, by simp,
      fun _ _ h => by simp [hd] at h, by simp [hnb], fun _ => by simp, fun _ => by simp⟩
    rw [unit_setUnit]
    split <;> rfl

theorem completeBranch_completedAs {s : State} {t : Nat} (taken : Word → Word → Bool)
    (hb : isBranch (s.unit t).op = true) (hd : hasDest (s.unit t).op = false) :
    CompletedAs s (s.completeBranch t taken) t := by
  unfold State.completeBranch
  split <;>
  exact ⟨by constructor <;> intros <;> rfl, rfl, rfl, fun _ _ h => by simp [hd] at h,
    by simp [hb], fun h => by simp [hb] at h, fun _ => rfl⟩

/-- Everything a completion can do, whatever the opcode. -/
theorem complete_completedAs (s : State) (t : Nat) : CompletedAs s (s.complete t) t := by
  unfold State.complete
  split <;> rename_i h
  case h_17 =>
    exact ⟨SameOutsideUnit.refl s t, rfl, rfl, fun _ _ hd => by simp [h, hasDest] at hd,
      by simp [h, isBranch], fun _ => rfl, fun _ => rfl⟩
  all_goals first
    | exact completeArith_completedAs _ _ (by rw [h]; rfl)
    | exact completeLoad_completedAs _ (by rw [h]; rfl) (by rw [h]; rfl)
    | exact completeStore_completedAs (by rw [h]; rfl) (by rw [h]; rfl)
    | exact completeBranch_completedAs _ (by rw [h]; rfl) (by rw [h]; rfl)

end Sys2Proof.Machine
end

