-- ==== Sys2Proof/Laws/Issue.lean ====
section
/-! SUPPORT. The law of `State.issue` (R143 to R148): the three things it can do,
    and what a successful issue
leaves. -/

namespace Sys2Proof.Machine

/-- The state a successful issue into unit `t` leaves. -/
def State.issuedInto (s : State) (q : IssueRequest) (t : Nat) : State :=
  ((s.claimUnit q t).captureOperands q t).enqueueIssued q t

/-- Everything `issue` can answer. -/
theorem issue_cases (s : State) (q : IssueRequest) :
    (q.regs.all s.cfg.hasRegister = false ∧ s.issue q = .refused .noSuchRegister) ∨
    (q.regs.all s.cfg.hasRegister = true ∧ s.allocate q.cls = none ∧
      s.issue q = .next (s.warnOn .exhaustion)) ∨
    ∃ t, q.regs.all s.cfg.hasRegister = true ∧ s.allocate q.cls = some t ∧
      s.issue q = .next (s.issuedInto q t) := by
  unfold State.issue
  cases hr : q.regs.all s.cfg.hasRegister with
  | false => exact .inl ⟨rfl, if_neg (by simp)⟩
  | true =>
    cases ha : s.allocate q.cls with
    | none => exact .inr (.inl ⟨rfl, rfl, if_pos rfl⟩)
    | some t => exact .inr (.inr ⟨t, rfl, rfl, if_pos rfl⟩)

theorem issue_of_allocate {s : State} {q : IssueRequest} {t : Nat}
    (hr : q.regs.all s.cfg.hasRegister = true) (ha : s.allocate q.cls = some t) :
    s.issue q = .next (s.issuedInto q t) := by
  unfold State.issue; rw [if_pos hr, ha]; rfl

theorem issue_of_busy {s : State} {q : IssueRequest} (hr : q.regs.all s.cfg.hasRegister = true)
    (ha : s.allocate q.cls = none) : s.issue q = .next (s.warnOn .exhaustion) := by
  unfold State.issue; rw [if_pos hr, ha]

/-- What a slot holds after an issue, from its source (R143, R144, R148). -/
def State.slotOf (s : State) (dest : Option Reg) (t : Nat) : Source → Operand
  | .reg r => s.slotFor dest t r
  | .value v => .resolved v

/-- The registers after the rename. -/
theorem reg_claimUnit {s : State} {q : IssueRequest} {t : Nat} (h : ∀ d, q.dest = some d →
    s.holds d)
    (r : Reg) : (s.claimUnit q t).reg r =
      if q.dest = some r then { s.reg r with producer := t } else s.reg r := by
  unfold State.claimUnit
  cases hd : q.dest with
  | none => simpa using reg_congr (by simp) (by simp) r
  | some d =>
    have hh : (s.setUnit t ((s.unit t).claim q)).holds d ↔ s.holds d := by unfold State.holds; simp
    by_cases hr : d = r
    · subst hr
      simp only [if_true]
      rw [reg_rename_same _ (hh.mpr (h d hd)), reg_congr (s := s) (by simp) (by simp)]
    · simp only [Option.some.injEq, hr, if_false]
      rw [reg_rename_ne _ (Ne.symm hr), reg_congr (s := s) (by simp) (by simp)]

theorem claimUnit_frame (s : State) (q : IssueRequest) (t : Nat) :
    (s.claimUnit q t) = { s with
      gpr := (s.claimUnit q t).gpr, fpr := (s.claimUnit q t).fpr
      units := (s.setUnit t ((s.unit t).claim q)).units } := by
  unfold State.claimUnit
  cases q.dest <;> cases t <;> simp [State.rename, State.setReg, State.setUnit] <;> split <;> rfl

/-- A successful issue leaves what R143, R144, R147 and R148 say, and changes nothing else. -/
theorem issuedInto_issuedAs {s : State} {q : IssueRequest} {t : Nat} (h0 : t ≠ 0)
    (ht : t ≤ s.units.length) (hd : ∀ d, q.dest = some d → s.holds d) :
    IssuedAs s (s.issuedInto q t) t q.op q.dest (s.slotOf q.dest t q.j) (s.slotOf q.dest t q.k)
      (s.slotOf q.dest t q.data) q.imm q.target := by
  have hreg := fun r => reg_claimUnit (t := t) hd r
  have hunits : (s.claimUnit q t).units = (s.setUnit t ((s.unit t).claim q)).units := by
    rw [claimUnit_frame]
  have hsrc : ∀ x, (s.claimUnit q t).captureSource x = s.slotOf q.dest t x := by
    intro x
    cases x with
    | value v => rfl
    | reg r =>
      simp only [State.captureSource, State.slotOf, State.slotFor, State.capture, hreg r]
      split <;> simp
  have hunit : ∀ u, (s.claimUnit q t).unit u = (s.setUnit t ((s.unit t).claim q)).unit u :=
      fun u => unit_congr hunits u
  have hlen : (s.claimUnit q t).units.length = s.units.length := by rw [hunits]; simp
  have hcap : ∀ r, ((s.claimUnit q t).captureOperands q t).reg r = (s.claimUnit q t).reg r :=
    fun r => reg_congr (by simp [State.captureOperands]) (by simp [State.captureOperands]) r
  constructor
  · change ((s.claimUnit q t).captureOperands q t).unit t = _
    unfold State.captureOperands
    rw [unit_setUnit_same _ h0 (by rw [hlen]; exact ht), hunit, unit_setUnit_same _ h0 ht,
      hsrc, hsrc, hsrc]
    rfl
  · intro u hu
    change ((s.claimUnit q t).captureOperands q t).unit u = _
    unfold State.captureOperands
    rw [unit_setUnit_ne _ hu, hunit, unit_setUnit_ne _ hu]
  · intro r
    rw [← hreg r, ← hcap r]
    rfl
  all_goals
    unfold State.issuedInto State.enqueueIssued State.captureOperands
    simp only [setUnit_cfg, setUnit_imem, setUnit_qTbe, setUnit_qWait, setUnit_qExec,
      setUnit_qResult, setUnit_qClear, setUnit_pc, setUnit_branchStall, setUnit_warn,
      setUnit_busEvent, setUnit_lines, setUnit_mem, setUnit_cycle]
    rw [claimUnit_frame]

end Sys2Proof.Machine
end

