-- ==== Sys2Proof/Laws/Exec.lean ====
section
/-! SUPPORT. The law of `exec` (R141 to R149): every instruction but UNKNOWN is one issue, whose request is
written from R104 and R143; so everything an instruction can answer is what an issue can answer. -/

namespace Sys2Proof.Machine

/-- The request of each instruction (R104, R143); UNKNOWN makes none (R142). -/
def requestOf : Instr → Option IssueRequest
  | .unknown => none
  | .dadd d a b imm tgt => some ⟨.dadd, .intAdd, some d, .reg a, .reg b, .value 0, imm, tgt⟩
  | .dsub d a b imm tgt => some ⟨.dsub, .intAdd, some d, .reg a, .reg b, .value 0, imm, tgt⟩
  | .daddi d a imm tgt =>
    some ⟨.daddi, .intAdd, some d, .reg a, .value (sext64 imm), .value 0, imm, tgt⟩
  | .dsubi d a imm tgt =>
    some ⟨.dsubi, .intAdd, some d, .reg a, .value (sext64 imm), .value 0, imm, tgt⟩
  | .dmul d a b imm tgt => some ⟨.dmul, .intMul, some d, .reg a, .reg b, .value 0, imm, tgt⟩
  | .ddiv d a b imm tgt => some ⟨.ddiv, .intMul, some d, .reg a, .reg b, .value 0, imm, tgt⟩
  | .addD d a b imm tgt => some ⟨.addD, .fpAdd, some d, .reg a, .reg b, .value 0, imm, tgt⟩
  | .subD d a b imm tgt => some ⟨.subD, .fpAdd, some d, .reg a, .reg b, .value 0, imm, tgt⟩
  | .mulD d a b imm tgt => some ⟨.mulD, .fpMul, some d, .reg a, .reg b, .value 0, imm, tgt⟩
  | .divD d a b imm tgt => some ⟨.divD, .fpMul, some d, .reg a, .reg b, .value 0, imm, tgt⟩
  | .lw d a imm tgt => some ⟨.lw, .load, some d, .reg a, .value 0, .value 0, imm, tgt⟩
  | .ld d a imm tgt => some ⟨.ld, .load, some d, .reg a, .value 0, .value 0, imm, tgt⟩
  | .sw a b imm tgt => some ⟨.sw, .store, none, .reg a, .value 0, .reg b, imm, tgt⟩
  | .sd a b imm tgt => some ⟨.sd, .store, none, .reg a, .value 0, .reg b, imm, tgt⟩
  | .beq a b imm tgt => some ⟨.beq, .intAdd, none, .reg a, .reg b, .value 0, imm, tgt⟩
  | .bne a b imm tgt => some ⟨.bne, .intAdd, none, .reg a, .reg b, .value 0, imm, tgt⟩

/-- An instruction with a request is one issue of it. -/
theorem exec_of_request {i : Instr} {q : IssueRequest} (h : requestOf i = some q) (s : State) :
    exec i s = s.issue q := by
  cases i <;> simp only [requestOf, Option.some.injEq, reduceCtorEq] at h <;> subst h <;> rfl

/-- What a request says of its instruction. -/
theorem requestOf_spec {i : Instr} {q : IssueRequest} (h : requestOf i = some q) :
    q.op = i.opcode ∧ opcodeClass i.opcode = some q.cls ∧ q.dest = i.dest ∧
      i.dest.isSome = hasDest i.opcode ∧ q.regs = i.dest.toList ++ i.sources := by
  cases i <;> simp only [requestOf, Option.some.injEq, reduceCtorEq] at h <;> subst h <;>
    refine ⟨rfl, rfl, rfl, rfl, rfl⟩

/-- R107: the registers of a request exist exactly when the instruction is well-formed. -/
theorem request_regs {c : Config} {i : Instr} {q : IssueRequest} (h : requestOf i = some q) :
    q.regs.all c.hasRegister = i.wellFormed c := by
  rw [(requestOf_spec h).2.2.2.2, List.all_append]
  unfold Instr.wellFormed
  cases i.dest <;> simp [Option.all]

/-- Every opcode with a class makes a request. -/
theorem request_of_class {i : Instr} {k : UnitClass} (h : opcodeClass i.opcode = some k) :
    ∃ q, requestOf i = some q ∧ q.cls = k := by
  cases i <;> simp only [Instr.opcode, opcodeClass, Option.some.injEq, reduceCtorEq] at h <;>
    subst h <;> exact ⟨_, rfl, rfl⟩

/-- R107: the state holds the destination of a well-formed instruction. -/
theorem holds_dest {s : State} (hs : s.Shaped) {i : Instr} (hw : i.wellFormed s.cfg = true) {d : Reg}
    (hd : i.dest = some d) : s.holds d := by
  unfold Instr.wellFormed at hw
  rw [hd] at hw
  simp only [Option.all, Bool.and_eq_true] at hw
  exact holds_of_hasRegister hs.gprSize hs.fprSize hw.1

end Sys2Proof.Machine
end

