-- ==== Sys2Proof/Laws/Scheduler.lean ====
section
/-! SUPPORT. The laws of the scheduler's sub-steps (R162 to R178): what each does to the units and the queues,
and what it leaves alone. -/

namespace Sys2Proof.Machine

/-- Two units that differ at most in what execution changes: the remaining latency, the result and the
squash bit. -/
def SameRequest (u u' : FunctionalUnit) : Prop :=
  u' = { u with remaining := u'.remaining, result := u'.result, squashed := u'.squashed }

theorem SameRequest.refl (u : FunctionalUnit) : SameRequest u u := rfl

theorem SameRequest.trans {u u' u'' : FunctionalUnit} (h : SameRequest u u')
    (h' : SameRequest u' u'') : SameRequest u u'' := by
  unfold SameRequest at *
  rw [h'] ; rw [h]

section
variable {u u' : FunctionalUnit} (h : SameRequest u u')
include h
theorem SameRequest.busy : u'.busy = u.busy := by unfold SameRequest at h; rw [h]
theorem SameRequest.op : u'.op = u.op := by unfold SameRequest at h; rw [h]
theorem SameRequest.j : u'.j = u.j := by unfold SameRequest at h; rw [h]
theorem SameRequest.k : u'.k = u.k := by unfold SameRequest at h; rw [h]
theorem SameRequest.data : u'.data = u.data := by unfold SameRequest at h; rw [h]
theorem SameRequest.imm : u'.imm = u.imm := by unfold SameRequest at h; rw [h]
theorem SameRequest.target : u'.target = u.target := by unfold SameRequest at h; rw [h]
theorem SameRequest.ready : u'.ready = u.ready := by
  unfold FunctionalUnit.ready; rw [h.j, h.k, h.data]
theorem SameRequest.waitsOn (t : Nat) : u'.waitsOn t ↔ u.waitsOn t := by
  unfold FunctionalUnit.waitsOn; rw [h.j, h.k, h.data]
end

theorem SameButResult.sameRequest {u u' : FunctionalUnit} (h : SameButResult u u') :
    SameRequest u u' := by
  unfold SameButResult at h; unfold SameRequest; rw [h]

/-! ### Writeback -/

/-- The fields that freeing units does not touch. -/
theorem foldl_freeUnit (l : List Nat) (s : State) :
    l.foldl State.freeUnit s = { s with units := (l.foldl State.freeUnit s).units } ∧
      (l.foldl State.freeUnit s).units.length = s.units.length ∧
      ∀ t, (l.foldl State.freeUnit s).unit t =
        if t ∈ l then FunctionalUnit.reset else s.unit t := by
  induction l generalizing s with
  | nil => exact ⟨rfl, rfl, fun t => by simp⟩
  | cons x l ih =>
    obtain ⟨h1, h2, h3⟩ := ih (s.freeUnit x)
    rw [List.foldl_cons]
    refine ⟨?_, by rw [h2]; simp [State.freeUnit], fun t => ?_⟩
    · rw [h1]
      cases x <;> rfl
    · rw [h3 t]
      by_cases ht : t ∈ l
      · simp [ht]
      · simp only [ht, if_false, List.mem_cons, or_false]
        unfold State.freeUnit
        rw [unit_setUnit]
        by_cases hx : t = x
        · subst hx
          rw [if_pos rfl]
          split
          · rfl
          · rename_i hc
            by_cases h0 : t = 0
            · rw [h0]; rfl
            · exact unit_of_length_lt s (by by_contra hh; exact hc ⟨rfl, h0, by omega⟩)
        · rw [if_neg hx, if_neg fun hh => hx hh.1]

/-- W1 (R163): exactly the units of `Q_CLEAR` return to their reset value, and `Q_CLEAR` is emptied. -/
theorem freeCleared_spec (s : State) :
    s.freeCleared = { s with qClear := [], units := s.freeCleared.units } ∧
      s.freeCleared.units.length = s.units.length ∧
      ∀ t, s.freeCleared.unit t = if t ∈ s.qClear then FunctionalUnit.reset else s.unit t :=
  foldl_freeUnit s.qClear { s with qClear := [] }

/-- R165: what a publication does. -/
theorem publish_of_result {s : State} {t : Nat} {v : Word} (h : (s.unit t).result = some v) :
    s.publish t = { s.fanOut t v with busEvent := some (t, v) } := by
  unfold State.publish; rw [h]

/-- W2 (R164 to R168): the service of an opcode with a destination is a publication. -/
theorem service_of_hasDest {s : State} {t : Nat} (h : hasDest (s.unit t).op = true) :
    s.service t = s.publish t := by
  unfold State.service
  cases ho : (s.unit t).op <;> simp_all [hasDest]

/-- W2 (R167, R168): the service of a store or branch touches memory, lines and flags at most. -/
theorem service_of_not_hasDest {s : State} {t : Nat} (h : hasDest (s.unit t).op = false) :
    s.service t = { s with
      mem := (s.service t).mem, lines := (s.service t).lines, warn := (s.service t).warn } := by
  have hstore : ∀ w, s.serviceStore t w = { s with
      mem := (s.serviceStore t w).mem, lines := (s.serviceStore t w).lines,
      warn := (s.serviceStore t w).warn } := by
    intro w
    unfold State.serviceStore
    split
    · unfold State.memWrite; split <;> rfl
    · rfl
  have key : s.service t = s ∨ ∃ w, s.service t = s.serviceStore t w := by
    unfold State.service
    split
    case h_13 => exact .inr ⟨_, rfl⟩
    case h_14 => exact .inr ⟨_, rfl⟩
    case h_15 => exact .inl rfl
    case h_16 => exact .inl rfl
    case h_17 => exact .inl rfl
    all_goals rename_i ho; simp [ho, hasDest] at h
  rcases key with h | ⟨w, h⟩
  · rw [h]
  · rw [h]; exact hstore w

/-! ### Execute -/

/-- E3 (R172) for one unit. -/
theorem dispatchUnit_spec (s : State) (t : Nat) :
    s.dispatchUnit t = { s with
        units := (s.dispatchUnit t).units, qExec := s.qExec ++ [t] } ∧
      (s.dispatchUnit t).units.length = s.units.length ∧
      ∀ u, (s.dispatchUnit t).unit u =
        if u = t ∧ t ≠ 0 ∧ t ≤ s.units.length then
          { s.unit t with remaining := latency s.cfg s.lines (s.unit t) }
        else s.unit u := by
  refine ⟨?_, by simp [State.dispatchUnit], fun u => ?_⟩
  · cases t <;> rfl
  · change (s.setUnit t _).unit u = _
    rw [unit_setUnit]

/-- The latency a unit is dispatched with does not look at its remaining latency. -/
theorem latency_remaining (c : Config) (lines : List CacheLine) (u : FunctionalUnit) (n : Nat) :
    latency c lines { u with remaining := n } = latency c lines u := rfl

/-- E3 (R172) for all ready units: only the remaining latencies of those units and `Q_EXEC` change, and each
of those units gets its latency. -/
theorem dispatchAll_spec (l : List Nat) (s : State) :
    s.dispatchAll l = { s with units := (s.dispatchAll l).units, qExec := s.qExec ++ l } ∧
      (s.dispatchAll l).units.length = s.units.length ∧
      ∀ u, (s.dispatchAll l).unit u =
        if u ∈ l ∧ u ≠ 0 ∧ u ≤ s.units.length then
          { s.unit u with remaining := latency s.cfg s.lines (s.unit u) }
        else s.unit u := by
  induction l generalizing s with
  | nil => exact ⟨by simp [State.dispatchAll], rfl, fun u => by simp [State.dispatchAll]⟩
  | cons x l ih =>
    obtain ⟨h1, h2, h3⟩ := dispatchUnit_spec s x
    obtain ⟨i1, i2, i3⟩ := ih (s.dispatchUnit x)
    have he : s.dispatchAll (x :: l) = (s.dispatchUnit x).dispatchAll l := rfl
    rw [he]
    refine ⟨?_, i2.trans h2, fun u => ?_⟩
    · rw [i1, h1]; simp
    · rw [i3 u, h2, h3 u]
      simp only [dispatchUnit_cfg, dispatchUnit_lines, List.mem_cons]
      by_cases hux : u = x
      · subst hux
        by_cases hr : u ≠ 0 ∧ u ≤ s.units.length
        · simp [hr, latency_remaining]
        · rw [if_neg fun hh => hr hh.2, if_neg fun hh => hr hh.2, if_neg fun hh => hr hh.2]
      · simp [hux]

/-- E4 (R174) for one unit: what a tick does. -/
theorem tick_unit (s : State) (t u : Nat) :
    (s.tick t).unit u =
      if u = t ∧ t ≠ 0 ∧ t ≤ s.units.length then
        { s.unit t with remaining := (s.unit t).remaining - 1 }
      else s.unit u := unit_setUnit s t u _

/-- E4 (R174): everything a countdown of unit `t` can do. Either its latency has not run out and only the
counter changes, or it completes (R175) and moves from `Q_EXEC` to `Q_RESULT`. -/
theorem countDown_cases (s : State) (t : Nat) :
    (((s.tick t).unit t).remaining ≠ 0 ∧ s.countDown t = s.tick t) ∨
    (((s.tick t).unit t).remaining = 0 ∧ s.countDown t =
      { (s.tick t).complete t with
        qExec := s.qExec.erase t, qResult := s.qResult ++ [t] }) := by
  have hc := complete_completedAs (s.tick t) t
  unfold State.countDown
  by_cases h : ((s.tick t).unit t).remaining = 0
  · refine .inr ⟨h, ?_⟩
    simp only [h, if_true]
    unfold State.retire
    simp only [hc.same.exec, hc.same.result, tick_qExec, tick_qResult]
  · refine .inl ⟨h, ?_⟩
    simp only [h, if_false]

/-- E4 (R174): what a countdown leaves alone, and what it may change of its unit. -/
structure CountedDown (s s' : State) (t : Nat) : Prop where
  cfg : s'.cfg = s.cfg
  imem : s'.imem = s.imem
  gpr : s'.gpr = s.gpr
  fpr : s'.fpr = s.fpr
  length : s'.units.length = s.units.length
  otherUnits : ∀ u, u ≠ t → s'.unit u = s.unit u
  unit : SameRequest (s.unit t) (s'.unit t)
  tbe : s'.qTbe = s.qTbe
  wait : s'.qWait = s.qWait
  clear : s'.qClear = s.qClear
  busEvent : s'.busEvent = s.busEvent
  mem : s'.mem = s.mem
  cycle : s'.cycle = s.cycle
  moved : (s'.qExec = s.qExec ∧ s'.qResult = s.qResult ∧ s'.branchStall = s.branchStall ∧
      (s'.unit t).result = (s.unit t).result ∧ s'.pc = s.pc) ∨
    (s'.qExec = s.qExec.erase t ∧ s'.qResult = s.qResult ++ [t] ∧
      s'.branchStall = (if isBranch (s.unit t).op then false else s.branchStall) ∧
      (isBranch (s.unit t).op = false → s'.pc = s.pc) ∧
      (t ≠ 0 → t ≤ s.units.length → hasDest (s.unit t).op = true → (s'.unit t).result ≠ none))

theorem countDown_countedDown (s : State) (t : Nat) : CountedDown s (s.countDown t) t := by
  have htick : SameRequest (s.unit t) ((s.tick t).unit t) := by
    rw [tick_unit]; split <;> rfl
  have hother : ∀ u, u ≠ t → (s.tick t).unit u = s.unit u := fun u hu => by
    rw [tick_unit, if_neg fun h => hu h.1]
  have hlen : (s.tick t).units.length = s.units.length := by simp [State.tick]
  rcases countDown_cases s t with ⟨_, he⟩ | ⟨_, he⟩
  · rw [he]
    refine ⟨by simp, by simp, by simp, by simp, hlen, hother, htick, by simp, by simp, by simp,
      by simp, by simp, by simp, .inl ⟨by simp, by simp, by simp, ?_, by simp⟩⟩
    rw [tick_unit]; split <;> rfl
  · have hc := complete_completedAs (s.tick t) t
    rw [he]
    refine ⟨by simp [hc.same.cfg], by simp [hc.same.imem], by simp [hc.same.gpr],
      by simp [hc.same.fpr], hc.length.trans hlen,
      fun u hu => (hc.same.otherUnits u hu).trans (hother u hu),
      htick.trans hc.unit.sameRequest, by simp [hc.same.tbe], by simp [hc.same.wait],
      by simp [hc.same.clear], by simp [hc.same.busEvent], by simp [hc.same.mem],
      by simp [hc.same.cycle], .inr ⟨rfl, rfl, ?_, ?_, ?_⟩⟩
    · rw [← htick.op]; exact hc.stall.trans (by simp)
    · rw [← htick.op]; intro hb; exact (hc.pc hb).trans (by simp)
    · rw [← htick.op]; intro h0 h1 hd; exact hc.result h0 (by rw [hlen]; exact h1) hd

/-! ### The fetch and the step -/

/-- R140: with the front end running, the Issue phase fetches the record at the pc, if there is one. -/
theorem fetch_running (s : State) : s.fetch false = s.imem[s.pc.toNat]? := rfl

/-- R140: with the front end stalled at the start of the cycle, nothing is fetched. -/
theorem fetch_stalled (s : State) : s.fetch true = none := rfl

end Sys2Proof.Machine
end

