-- ==== Sys2Proof/Laws/Cycle.lean ====
section
/-! SUPPORT. The laws of whole phases (R160):
    what the Writeback and Execute phases and an instruction leave
alone, and everything a step that answers can have done. -/

namespace Sys2Proof.Machine

theorem mem_queued {s : State} {t : Nat} : t ∈ s.queued ↔
    t ∈ s.qTbe ∨ t ∈ s.qWait ∨ t ∈ s.qExec ∨ t ∈ s.qResult ∨ t ∈ s.qClear := by
  simp [State.queued]

/-- What the Writeback phase (R162 to R168) does not touch. -/
theorem writeback_frame (s : State) : s.writeback.cfg = s.cfg ∧ s.writeback.imem = s.imem ∧
    s.writeback.pc = s.pc ∧
    s.writeback.branchStall = s.branchStall ∧ s.writeback.gpr.length = s.gpr.length ∧
        s.writeback.fpr.length = s.fpr.length
    ∧ s.writeback.units.length = s.units.length ∧ s.writeback.cycle = s.cycle := by
  obtain ⟨he, hl, hu⟩ := freeCleared_spec s.clearBus
  set s1 := s.clearBus.freeCleared with hs1
  have hw : s.writeback = s1.serviceOldest := rfl
  have key : s1.serviceOldest.cfg = s1.cfg ∧ s1.serviceOldest.imem = s1.imem ∧
      s1.serviceOldest.pc = s1.pc ∧
    s1.serviceOldest.branchStall = s1.branchStall ∧ s1.serviceOldest.gpr.length = s1.gpr.length ∧
        s1.serviceOldest.fpr.length = s1.fpr.length
    ∧ s1.serviceOldest.units.length = s1.units.length ∧ s1.serviceOldest.cycle = s1.cycle := by
    unfold State.serviceOldest
    split
    · simp
    · rename_i t rest hr
      cases hd : hasDest (s1.unit t).op with
      | true =>
        rw [service_of_hasDest (s := { s1 with qResult := rest }) hd]
        unfold State.publish
        split <;> simp [State.fanOut]
      | false =>
        have := service_of_not_hasDest (s := { s1 with qResult := rest }) (t := t) hd
        rw [this]; simp
  rw [hw]
  rw [he] at key
  rw [he]
  obtain ⟨k1,k2,k3,k4,k5,k6,k7,k8⟩ := key
  exact ⟨k1,k2,k3,k4,k5,k6,k7.trans hl,k8⟩

/-- What the countdowns of E4 (R174) do not touch, for any list of units. -/
theorem countDownAll_frame (l : List Nat) : ∀ s : State, let s' := l.foldl State.countDown s
    s'.cfg = s.cfg ∧ s'.imem = s.imem ∧ s'.gpr = s.gpr ∧ s'.fpr = s.fpr ∧
        s'.units.length = s.units.length ∧
    s'.qTbe = s.qTbe ∧ s'.qWait = s.qWait ∧ s'.mem = s.mem ∧ (s.branchStall = false →
        s'.branchStall = false) ∧ s'.cycle = s.cycle ∧ s'.busEvent = s.busEvent := by
  induction l with
  | nil => intro s; simp
  | cons x l ih =>
    intro s
    have c := countDown_countedDown s x
    have := ih (s.countDown x)
    simp only at this
    obtain ⟨h1,h2,h3,h4,h5,h6,h7,h8,h9,h10,h11⟩ := this
    simp only [List.foldl_cons]
    refine ⟨h1.trans c.cfg, h2.trans c.imem, h3.trans c.gpr, h4.trans c.fpr, h5.trans c.length,
        h6.trans c.tbe, h7.trans c.wait, h8.trans c.mem, ?_, h10.trans c.cycle,
        h11.trans c.busEvent⟩
    intro hb
    apply h9
    rcases c.moved with ⟨_,_,e,_⟩ | ⟨_,_,e,_⟩
    · rw [e, hb]
    · rw [e, hb]; simp

/-- What the Execute phase (R169 to R178) does not touch. -/
theorem execute_frame (s : State) : s.execute.cfg = s.cfg ∧ s.execute.imem = s.imem ∧
    s.execute.gpr = s.gpr ∧ s.execute.fpr = s.fpr ∧
   s.execute.units.length = s.units.length ∧ s.execute.qTbe = [] ∧ (s.branchStall = false →
       s.execute.branchStall = false) ∧ s.execute.mem = s.mem := by
  have h := countDownAll_frame s.dispatched.qExec s.dispatched
  obtain ⟨he, hlen, hu⟩ := dispatchAll_spec (s.readyIssued ++ s.classify.readyWaiters) (s.classify.wake)
  have e2 : s.dispatched = _ := he
  have e3 : s.dispatched.units.length = s.units.length := hlen
  have e : s.execute = s.dispatched.qExec.foldl State.countDown s.dispatched := rfl
  rw [e]
  simp only at h
  obtain ⟨h1,h2,h3,h4,h5,h6,h7,h8,h9,h10,h11⟩ := h
  rw [h1,h2,h3,h4,h5,h6,h8, e3]
  refine ⟨by rw [e2]; rfl, by rw [e2]; rfl, by rw [e2]; rfl, by rw [e2]; rfl, rfl,
      by rw [e2]; rfl, fun hb => h9 (by rw [e2]; exact hb), by rw [e2]; rfl⟩

/-- Everything a step that answers a next state can have done (R140, R160). -/
theorem step_next {s s' : State} (h : step s = .next s') : s.admission = none ∧
   ((s.writeback.execute.fetch s.branchStall = none ∧ s' = s.writeback.execute.endCycle) ∨
    ∃ w s1, s.writeback.execute.fetch s.branchStall = some w ∧
        exec (decode w) s.writeback.execute = .next s1 ∧ s' = s1.endCycle) := by
  unfold step at h
  split at h
  · simp at h
  · rename_i ha
    refine ⟨ha, ?_⟩
    unfold State.issuePhase at h
    split at h
    · rename_i hf; left; simp at h; exact ⟨hf, h.symm⟩
    · rename_i w hf
      right
      split at h
      · rename_i s1 he
        simp at h
        exact ⟨w, s1, hf, he, h.symm⟩
      · simp at h
      · simp at h

/-- What no instruction touches at issue, whatever its opcode (R142 to R147). -/
theorem exec_frame {s s' : State} {i : Instr} (he : exec i s = .next s') : s'.cfg = s.cfg ∧
    s'.imem = s.imem ∧ s'.lines = s.lines ∧ s'.mem = s.mem ∧
    s'.gpr.length = s.gpr.length ∧ s'.fpr.length = s.fpr.length ∧
        s'.units.length = s.units.length := by
  cases hr : requestOf i with
  | none =>
    cases i <;> simp [requestOf] at hr
    simp only [exec, execUnknown, Host.Outcome.next.injEq] at he
    subst he
    exact ⟨rfl, rfl, rfl, rfl, rfl, rfl, rfl⟩
  | some q =>
    rw [exec_of_request hr] at he
    rcases issue_cases s q with ⟨_, h1⟩ | ⟨_, _, h1⟩ | ⟨t, hw, ha, h1⟩
    · rw [h1] at he; simp at he
    · rw [h1] at he; simp at he
      subst he; exact ⟨rfl, rfl, rfl, rfl, rfl, rfl, rfl⟩
    · rw [h1] at he; simp at he
      subst he
      unfold State.issuedInto State.enqueueIssued State.captureOperands
      simp only [length_setUnit, setUnit_cfg, setUnit_imem, setUnit_lines, setUnit_mem,
          setUnit_gpr, setUnit_fpr]
      have : (s.claimUnit q t).gpr.length = s.gpr.length ∧
          (s.claimUnit q t).fpr.length = s.fpr.length := by
        unfold State.claimUnit
        cases q.dest with
        | none => simp
        | some d => simp only [State.rename, State.setReg]; split <;> simp
      refine ⟨?_, ?_, ?_, ?_, this.1, this.2, ?_⟩ <;> rw [claimUnit_frame] ; simp

end Sys2Proof.Machine
end

