-- ==== Sys2Proof/Laws/PerInstr.lean ====
section
/-! SUPPORT. The family `OpcodeByte` (30_encoding.md R100, R104): the low byte of an instruction's record word is
its opcode number. One lemma per constructor of `Instr`. -/

namespace Sys2Proof

/-- R100: bits 7..0 of a record word are the opcode, whatever its other fields. -/
theorem recordWord_opcode_byte (op : Opcode) (d a b : BitVec 6) (imm : BitVec 16)
    (target : InstrIndex) :
    (recordWord op d a b imm target).extractLsb' 0 8 = byteOfOpcode op := by
  apply BitVec.eq_of_getLsbD_eq
  intro i hi
  simp only [recordWord, BitVec.getLsbD_extractLsb', BitVec.getLsbD_append]
  rw [if_pos (show 0 + i < 8 by omega)]
  simp [hi]

/-- The low byte of the record word is the number R104 gives the opcode. -/
def Laws.OpcodeByte.Statement (i : Instr) : Prop :=
  (encode i).extractLsb' 0 8 = byteOfOpcode i.opcode

theorem Laws.OpcodeByte.unknown : Laws.OpcodeByte.Statement .unknown :=
  recordWord_opcode_byte _ _ _ _ _ _

theorem Laws.OpcodeByte.dadd (d a b : Reg) (imm : BitVec 16) (target : InstrIndex) :
    Laws.OpcodeByte.Statement (.dadd d a b imm target) :=
  recordWord_opcode_byte _ _ _ _ _ _

theorem Laws.OpcodeByte.dsub (d a b : Reg) (imm : BitVec 16) (target : InstrIndex) :
    Laws.OpcodeByte.Statement (.dsub d a b imm target) :=
  recordWord_opcode_byte _ _ _ _ _ _

theorem Laws.OpcodeByte.daddi (a b : Reg) (imm : BitVec 16) (target : InstrIndex) :
    Laws.OpcodeByte.Statement (.daddi a b imm target) :=
  recordWord_opcode_byte _ _ _ _ _ _

theorem Laws.OpcodeByte.dsubi (a b : Reg) (imm : BitVec 16) (target : InstrIndex) :
    Laws.OpcodeByte.Statement (.dsubi a b imm target) :=
  recordWord_opcode_byte _ _ _ _ _ _

theorem Laws.OpcodeByte.dmul (d a b : Reg) (imm : BitVec 16) (target : InstrIndex) :
    Laws.OpcodeByte.Statement (.dmul d a b imm target) :=
  recordWord_opcode_byte _ _ _ _ _ _

theorem Laws.OpcodeByte.ddiv (d a b : Reg) (imm : BitVec 16) (target : InstrIndex) :
    Laws.OpcodeByte.Statement (.ddiv d a b imm target) :=
  recordWord_opcode_byte _ _ _ _ _ _

theorem Laws.OpcodeByte.addD (d a b : Reg) (imm : BitVec 16) (target : InstrIndex) :
    Laws.OpcodeByte.Statement (.addD d a b imm target) :=
  recordWord_opcode_byte _ _ _ _ _ _

theorem Laws.OpcodeByte.subD (d a b : Reg) (imm : BitVec 16) (target : InstrIndex) :
    Laws.OpcodeByte.Statement (.subD d a b imm target) :=
  recordWord_opcode_byte _ _ _ _ _ _

theorem Laws.OpcodeByte.mulD (d a b : Reg) (imm : BitVec 16) (target : InstrIndex) :
    Laws.OpcodeByte.Statement (.mulD d a b imm target) :=
  recordWord_opcode_byte _ _ _ _ _ _

theorem Laws.OpcodeByte.divD (d a b : Reg) (imm : BitVec 16) (target : InstrIndex) :
    Laws.OpcodeByte.Statement (.divD d a b imm target) :=
  recordWord_opcode_byte _ _ _ _ _ _

theorem Laws.OpcodeByte.lw (a b : Reg) (imm : BitVec 16) (target : InstrIndex) :
    Laws.OpcodeByte.Statement (.lw a b imm target) :=
  recordWord_opcode_byte _ _ _ _ _ _

theorem Laws.OpcodeByte.ld (a b : Reg) (imm : BitVec 16) (target : InstrIndex) :
    Laws.OpcodeByte.Statement (.ld a b imm target) :=
  recordWord_opcode_byte _ _ _ _ _ _

theorem Laws.OpcodeByte.sw (a b : Reg) (imm : BitVec 16) (target : InstrIndex) :
    Laws.OpcodeByte.Statement (.sw a b imm target) :=
  recordWord_opcode_byte _ _ _ _ _ _

theorem Laws.OpcodeByte.sd (a b : Reg) (imm : BitVec 16) (target : InstrIndex) :
    Laws.OpcodeByte.Statement (.sd a b imm target) :=
  recordWord_opcode_byte _ _ _ _ _ _

theorem Laws.OpcodeByte.beq (a b : Reg) (imm : BitVec 16) (target : InstrIndex) :
    Laws.OpcodeByte.Statement (.beq a b imm target) :=
  recordWord_opcode_byte _ _ _ _ _ _

theorem Laws.OpcodeByte.bne (a b : Reg) (imm : BitVec 16) (target : InstrIndex) :
    Laws.OpcodeByte.Statement (.bne a b imm target) :=
  recordWord_opcode_byte _ _ _ _ _ _

end Sys2Proof
end

