-- ==== Sys2Proof/Tests/Slice0.lean ====
section
/-! SUPPORT. Tests. Part 1: each check of WellFormed and Admission refuses an ill-formed term. Part 2: record
words written out from 30_encoding.md R100, R101, R104 (rows of 95_test_vectors.md 2.1) decode to what they
stand for. Part 3: one step of each instruction on a small state; the expected values are rows of
95_test_vectors.md or a hand calculation from the rule named. Part 4: for every statement with
hypotheses, a state and operands that meet all of them, clause by clause. -/

namespace Sys2Proof.Tests

open Sys2Proof.Machine

/-! ### Helpers -/

/-- A small configuration: tags IA 1 and 2, IM 3, FA 4, FM 5, L 6, S 7; two lines of 8 bytes. -/
def tiny : Config :=
  { Config.ref with
    nFpAdd := 1, nFpMul := 1, nLoad := 1, nStore := 1, nGpr := 4, nFpr := 4
    cacheSize := 16, memSize := 32 }

/-- `tiny` with general registers holding `regs` and program `p`, right after reset. -/
def boot (p : List Record) (regs : List Word) : State :=
  { State.resetWith tiny p with
    gpr := (regs ++ List.replicate (4 - regs.length) 0).map fun v => { value := v, producer := 0 } }

def R (i : BitVec 5) : Reg := ⟨.gpr, i⟩
def F (i : BitVec 5) : Reg := ⟨.fpr, i⟩

/-- A busy unit whose three slots are given. -/
def unitOf (op : Opcode) (j k data : Operand) : FunctionalUnit :=
  { FunctionalUnit.reset with busy := true, op := op, j := j, k := k, data := data }

/-- A machine in which unit 1 holds an operation on two resolved values. -/
def holding (op : Opcode) (a b : Word) : State :=
  (boot [] []).setUnit 1 (unitOf op (.resolved a) (.resolved b) (.resolved 0))

/-- The result that completing such a unit computes, and whether it sets `WARN[4]`. -/
def completed (op : Opcode) (a b : Word) : Option Word × Bool :=
  let s := (holding op a b).complete 1
  ((s.unit 1).result, s.warn.arithmetic)

/-- The next state of an outcome. -/
def nextOf (o : Host.Outcome State Fault Refusal) : Option State :=
  match o with
  | .next s => some s
  | .fault _ => none
  | .refused _ => none

/-- The unit that a step of the machine right after reset issues into. -/
def firstUnit (w : Nat) (t : Nat) : Option (Opcode × Operand × Operand × Operand) :=
  (nextOf (step (State.reset.withFetchWord 64 w))).map fun s =>
    ((s.unit t).op, (s.unit t).j, (s.unit t).k, (s.unit t).data)

/-! ### Part 1: what is refused -/

theorem test_refuses_gpr_destination : (Instr.dadd (R 4) (R 0) (R 0) 0 0).wellFormed tiny = false := by
  decide

theorem test_refuses_fpr_source1 : (Instr.addD (F 0) (F 4) (F 0) 0 0).wellFormed tiny = false := by
  decide

theorem test_refuses_fpr_source2 : (Instr.addD (F 0) (F 0) (F 4) 0 0).wellFormed tiny = false := by
  decide

theorem test_refuses_load_base : (Instr.ld (R 0) (R 31) 0 0).wellFormed tiny = false := by decide

theorem test_refuses_store_data : (Instr.sd (R 0) (F 31) 0 0).wellFormed tiny = false := by decide

theorem test_accepts_last_registers : (Instr.dadd (R 3) (F 3) (R 3) 0 0).wellFormed tiny = true := by
  decide

theorem test_refuses_zero_unit_counts :
    configAdmissible { tiny with nIntAdd := 0 } = false ∧
    configAdmissible { tiny with nIntMul := 0 } = false ∧
    configAdmissible { tiny with nFpAdd := 0 } = false ∧
    configAdmissible { tiny with nFpMul := 0 } = false ∧
    configAdmissible { tiny with nLoad := 0 } = false ∧
    configAdmissible { tiny with nStore := 0 } = false := by decide

theorem test_refuses_file_sizes :
    configAdmissible { tiny with nGpr := 0 } = false ∧
    configAdmissible { tiny with nGpr := 33 } = false ∧
    configAdmissible { tiny with nFpr := 0 } = false ∧
    configAdmissible { tiny with nFpr := 33 } = false := by decide

theorem test_refuses_memory_sizes :
    configAdmissible { tiny with blockSize := 3 } = false ∧
    configAdmissible { tiny with cacheSize := 12 } = false ∧
    configAdmissible { tiny with memSize := 48 } = false ∧
    configAdmissible { tiny with memSize := 0 } = false ∧
    configAdmissible { tiny with blockSize := 32 } = false ∧
    configAdmissible { tiny with cacheSize := 64 } = false ∧
    configAdmissible { tiny with memSize := 2 ^ 63 } = false := by decide

theorem test_accepts_boundary_sizes :
    configAdmissible Config.ref = true ∧
    configAdmissible { tiny with blockSize := 1, cacheSize := 1, memSize := 1 } = true ∧
    configAdmissible { tiny with memSize := 2 ^ 62 } = true := by decide

theorem test_refuses_long_program : programFits (List.replicate 65536 0) = false := by
  rw [programFits, List.length_replicate]
  decide

theorem test_accepts_longest_program : programFits (List.replicate 65535 0) = true := by
  rw [programFits, List.length_replicate]
  decide

/-! ### Part 2: words written out from the encoding tables -/

theorem test_decode_unknown : decode 0x0000000000000000#64 = .unknown := by decide

theorem test_decode_undefined_opcodes :
    decode 0x00000000000000AB#64 = .unknown ∧ decode 0x0000000000000011#64 = .unknown ∧
    decode 0xFFFFFFFFFFFFFFFF#64 = .unknown := by decide

theorem test_decode_dadd : decode 0x0000000002010301#64 = .dadd (R 3) (R 1) (R 2) 0 0 := by decide

theorem test_decode_dsub : decode 0x0000000002010302#64 = .dsub (R 3) (R 1) (R 2) 0 0 := by decide

theorem test_decode_daddi : decode 0x0000FFFF00010203#64 = .daddi (R 2) (R 1) 0xFFFF 0 := by decide

theorem test_decode_daddi_ignored_fields :
    decode 0xFFFF123400010203#64 = .daddi (R 2) (R 1) 0x1234 0xFFFF := by decide

theorem test_decode_dsubi : decode 0x0000000200030404#64 = .dsubi (R 4) (R 3) 2 0 := by decide

theorem test_decode_dmul : decode 0x0000000002010305#64 = .dmul (R 3) (R 1) (R 2) 0 0 := by decide

theorem test_decode_ddiv : decode 0x0000000002040506#64 = .ddiv (R 5) (R 4) (R 2) 0 0 := by decide

theorem test_decode_addD : decode 0x0000000023222107#64 = .addD (F 1) (F 2) (F 3) 0 0 := by decide

theorem test_decode_subD : decode 0x0000000025242108#64 = .subD (F 1) (F 4) (F 5) 0 0 := by decide

theorem test_decode_mulD : decode 0x0000000024222609#64 = .mulD (F 6) (F 2) (F 4) 0 0 := by decide

theorem test_decode_divD : decode 0x0000000020282A0A#64 = .divD (F 10) (F 8) (F 0) 0 0 := by decide

theorem test_decode_lw : decode 0x000000FC0001040B#64 = .lw (R 4) (R 1) 0xFC 0 := by decide

theorem test_decode_ld_fpr : decode 0x000000000001220C#64 = .ld (F 2) (R 1) 0 0 := by decide

theorem test_decode_sw : decode 0x000000180101000D#64 = .sw (R 1) (R 1) 24 0 := by decide

theorem test_decode_sd_fpr : decode 0x000000102201000E#64 = .sd (R 1) (F 2) 16 0 := by decide

theorem test_decode_beq : decode 0x000500000401000F#64 = .beq (R 1) (R 4) 0 5 := by decide

theorem test_decode_bne : decode 0x0003000000050010#64 = .bne (R 5) (R 0) 0 3 := by decide

/-- The three reserved pairs are read by nothing (R106). -/
theorem test_decode_reserved_bits :
    decode 0x00000000C2C1C301#64 = .dadd (R 3) (R 1) (R 2) 0 0 := by decide

theorem test_encode_word : encode (.bne (R 5) (R 0) 0 3) = 0x0003000000050010#64 := by decide

/-! ### Part 3: one step of each instruction -/

/-- Scenario A of 95_test_vectors.md, cycle 1, as the first instruction after reset. -/
theorem test_step_daddi : firstUnit 0x0000000500010203 1 =
    some (.daddi, .resolved 0, .resolved 5, .resolved 0) := by decide

theorem test_step_sd : firstUnit 0x000000102201000E 10 =
    some (.sd, .resolved 0, .resolved 0, .resolved 0) := by decide

/-- R146: no free load buffer: the record stays and `WARN[1]` is set. -/
theorem test_issue_lw_stalls :
    (nextOf (exec (.lw (R 1) (R 0) 0 0) ((boot [] []).setUnit 6
      (unitOf .ld (.resolved 0) (.resolved 0) (.resolved 0))))).map
        (fun s => (s.pc, s.warn.exhaustion, s.qTbe)) = some (0, true, []) := by decide

/-- R148: the rename comes before the capture, so a source that is the destination waits on itself. -/
theorem test_issue_dsub_self :
    (nextOf (exec (.dsub (R 1) (R 1) (R 2) 0 0) (boot [] [0, 5, 6]))).map
      (fun s => ((s.unit 1).j, (s.unit 1).k, (s.reg (R 1)).producer)) =
        some (.pending 1, .resolved 6, 1) := by decide

/-- R261: a branch sets the stall bit. -/
theorem test_issue_bne :
    (nextOf (exec (.bne (R 1) (R 2) 0 9) (boot [] [0, 5, 6]))).map
      (fun s => (s.branchStall, s.pc, (s.unit 1).target)) = some (true, 1, 9) := by decide

theorem test_unknown : (nextOf (exec .unknown (boot [] []))).map
    (fun s => (s.pc, s.warn.unknownInstr, s.qTbe)) = some (1, true, []) := by decide

theorem test_dadd_wraps :
    completed .dadd 0x7FFFFFFFFFFFFFFF 1 = (some 0x8000000000000000, false) := by decide

theorem test_dsub_borrows : completed .dsub 7 8 = (some 0xFFFFFFFFFFFFFFFF, false) := by decide

theorem test_daddi_negative :
    completed .daddi 10 (sext64 0x8000) = (some 0xFFFFFFFFFFFF800A, false) := by decide

theorem test_dsubi_negative :
    completed .dsubi 10 (sext64 0x8000) = (some 0x000000000000800A, false) := by decide

theorem test_dmul_truncates :
    completed .dmul 0x0000000100000000 0x0000000100000000 = (some 0, false) := by decide

theorem test_dmul_negative :
    completed .dmul 3 0xFFFFFFFFFFFFFFFE = (some 0xFFFFFFFFFFFFFFFA, false) := by decide

theorem test_ddiv_rounds_to_zero :
    completed .ddiv 0xFFFFFFFFFFFFFFF9 2 = (some 0xFFFFFFFFFFFFFFFD, false) := by decide

theorem test_ddiv_corners :
    completed .ddiv 5 0 = (some 0, true) ∧
    completed .ddiv 0x8000000000000000 0xFFFFFFFFFFFFFFFF =
      (some 0x8000000000000000, false) := by decide

theorem test_addD_rounds :
    completed .addD 0x3FB999999999999A 0x3FC999999999999A =
      (some 0x3FD3333333333334, false) := by decide

theorem test_subD :
    completed .subD 0x4024000000000000 0x3FE0000000000000 =
      (some 0x4023000000000000, false) ∧
    completed .subD 0x3FF8000000000000 0x3FF8000000000000 = (some 0, false) := by decide

theorem test_mulD :
    completed .mulD 0x3FF8000000000000 0x4002000000000000 =
      (some 0x400B000000000000, false) ∧
    completed .mulD 0xBFF8000000000000 0x4000000000000000 =
      (some 0xC008000000000000, false) := by decide

theorem test_divD_third :
    completed .divD 0x3FF0000000000000 0x4008000000000000 =
      (some 0x3FD5555555555555, false) := by decide

theorem test_divD_zero_divisor :
    completed .divD 0x3FF8000000000000 0x8000000000000000 = (some 0, true) ∧
    completed .divD 0 0 = (some 0, true) := by decide

/-- R263, R264: Scenario D's branch, and a branch on operands that differ in one bit. -/
theorem test_branches :
    ((holding .beq 3 3).complete 1).pc = 0 ∧
    (State.complete ({ holding .bne 3 2 with pc := 5 }.setUnit 1
      { unitOf .bne (.resolved 3) (.resolved 2) (.resolved 0) with target := 9 }) 1).pc = 9 := by
  decide

/-- 95_test_vectors.md 2.5.4: a 4-byte load sign-extends bit 31 (`CFG_REF`, bytes 80..87 at 128). -/
theorem test_lw_sign_extends :
    (State.memRead { State.reset with
        mem := [(132, 0x84), (133, 0x85), (134, 0x86), (135, 0x87)] } 132 .four).1 =
      0xFFFFFFFF87868584 := by decide

/-- 95_test_vectors.md 2.5.3: an 8-byte load across a block boundary. -/
theorem test_ld_crosses_a_block :
    (State.memRead { State.reset with mem := [(102, 0x66), (103, 0x67), (104, 0x68), (105, 0x69),
        (106, 0x6A), (107, 0x6B), (108, 0x6C), (109, 0x6D)] } 102 .eight).1 =
      0x6D6C6B6A69686766 := by decide

/-- 95_test_vectors.md 2.5.6: only the low four bytes, and the two lines filled. -/
theorem test_sw_low_half :
    (State.reset.memWrite 6 .four 0xAABBCCDD11223344).mem =
      [(6, 0x44), (7, 0x33), (8, 0x22), (9, 0x11)] ∧
    ((State.reset.memWrite 6 .four 0xAABBCCDD11223344).lines.map fun l => l.valid) =
      [true, true, false, false] := by decide

/-- 95_test_vectors.md 2.5.7 and 2.5.8: the two byte orders. -/
theorem test_sd_byte_orders :
    ((State.reset.memWrite 16 .eight 0x0102030405060708).memRead 16 .four).1 = 0x05060708 ∧
    (((State.resetWith { Config.ref with endian := .big } []).memWrite 16 .eight
      0x0102030405060708).memRead 16 .four).1 = 0x01020304 := by decide

/-- 95_test_vectors.md 2.5.5: the last word is in bounds; the four accesses past an end are not. -/
theorem test_bounds :
    inBounds Config.ref 252 4 = true ∧ inBounds Config.ref 248 8 = true ∧
    inBounds Config.ref 253 4 = false ∧ inBounds Config.ref 249 8 = false ∧
    inBounds Config.ref 0xFFFFFFFFFFFFFFFC 4 = false ∧ inBounds Config.ref 256 4 = false := by decide

/-- 95_test_vectors.md 2.4. -/
theorem test_address_fields :
    (tagOf Config.ref 100, indexOf Config.ref 100, offsetOf Config.ref 100) = (3, 0, 4) ∧
    (tagOf Config.ref 255, indexOf Config.ref 255, offsetOf Config.ref 255) = (7, 3, 7) := by decide

/-! ### Part 4: hypotheses can be met -/

/-- The record words the witnesses run. -/
def wDadd : Record := 0x0000000002010301
def wBeq : Record := 0x000500000201000F

def waiting (t : Nat) : Operand := .pending t
def given (v : Word) : Operand := .resolved v

/-- Every unit of `tiny` busy. -/
def allBusy : State :=
  { boot [] [] with units := List.replicate 7 (unitOf .sw (given 0) (given 0) (given 0)) }

/-- Unit 3 has a result to publish; unit 1 and register 1 wait for it; unit 2 holds a branch that runs. -/
def middle : State :=
  (((({ boot [wDadd, wDadd, wDadd] [] with
      qResult := [3], qWait := [1], qExec := [2], branchStall := true, pc := 3, cycle := 4
      gpr := [⟨0, 0⟩, ⟨0, 3⟩, ⟨0, 1⟩, ⟨0, 0⟩] }).setUnit 3
      { unitOf .dmul (given 5) (given 6) (given 0) with result := some 30 }).setUnit 1
      (unitOf .dadd (waiting 3) (given 5) (given 0))).setUnit 2
      { unitOf .beq (given 1) (given 1) (given 0) with remaining := 1, target := 9 })

/-- Unit 6, a load that was serviced, is about to be freed; unit 7, a store, is next for service; unit 4
has just been issued and waits for unit 5, which runs. -/
def draining : State :=
  (((({ boot [wDadd] [] with
      qClear := [6], qResult := [7], qTbe := [4], qExec := [5], pc := 1, cycle := 9
      fpr := [⟨0, 0⟩, ⟨0, 5⟩, ⟨0, 4⟩, ⟨0, 0⟩] }.setUnit 6
      { unitOf .ld (given 0) (given 0) (given 0) with result := some 0 }).setUnit 7
      (unitOf .sd (given 24) (given 0) (given 0x1122))).setUnit 4
      (unitOf .addD (waiting 5) (given 0) (given 0))).setUnit 5
      { unitOf .mulD (given 0) (given 0) (given 0) with remaining := 1 })

theorem middle_inv : middle.Inv := inv_of_check (by decide)

theorem draining_inv : draining.Inv := inv_of_check (by decide)

/-- The machine before the first cycle, with registers preloaded, is fresh. -/
theorem boot_fresh : (boot [wDadd] [0, 8, 7]).Fresh :=
  ⟨by decide, rfl, rfl, noProducer_of_check (by decide), by decide, by decide, rfl⟩

theorem boot_shaped (p : List Record) : (boot p []).Shaped :=
  ⟨rfl, rfl, rfl, List.length_replicate ..⟩

/-- A program on an idle machine. -/
theorem boot_idle (p : List Record) : (boot p []).Idle :=
  ⟨unitsFree_of_check (show (boot [] []).units.all _ = true by decide), rfl,
    noProducer_of_check (show ((boot [] []).gpr ++ (boot [] []).fpr).all _ = true by decide), rfl⟩

theorem witness_UnitClassesPartitionTags :
    1 ∈ classTags tiny .intAdd ∧ 2 ∈ classTags tiny .intAdd ∧ 7 ∈ classTags tiny .store := by decide

theorem witness_AllocatorTakesLowestFree :
    (boot [] []).allocate .intAdd = some 1 ∧ middle.allocate .intAdd = none ∧
    6 ∈ draining.qClear := by decide

/-- One state meets the hypotheses of every statement of an issue, with registers at both ends of both
files. -/
theorem witness_issues :
    (boot [] []).Shaped ∧ tiny.hasRegister (R 0) = true ∧ tiny.hasRegister (R 3) = true ∧
    tiny.hasRegister (F 0) = true ∧ tiny.hasRegister (F 3) = true ∧
    (boot [] []).allocate .intAdd = some 1 ∧ (boot [] []).allocate .intMul = some 3 ∧
    (boot [] []).allocate .fpAdd = some 4 ∧ (boot [] []).allocate .fpMul = some 5 ∧
    (boot [] []).allocate .load = some 6 ∧ (boot [] []).allocate .store = some 7 :=
  ⟨boot_shaped [], by decide⟩

/-- The last free unit of a class, when the first is busy. -/
theorem witness_issues_last_unit :
    (holding .dadd 0 0).Shaped ∧ (holding .dadd 0 0).allocate .intAdd = some 2 :=
  ⟨⟨rfl, rfl, rfl, rfl⟩, by decide⟩

theorem witness_NoFreeUnitStalls :
    opcodeClass (Instr.lw (R 3) (R 0) 0 0).opcode = some .load ∧
    (Instr.lw (R 3) (R 0) 0 0).wellFormed allBusy.cfg = true ∧
    ∀ u ∈ classTags allBusy.cfg .load, (allBusy.unit u).busy = true := by decide

/-- R107 at the ends of both ranges: the last register, the first absent one; and a program refused. -/
theorem witness_AbsentRegisterIsRefused :
    tiny.hasRegister (R 3) = true ∧ tiny.hasRegister (R 4) = false ∧
    tiny.hasRegister (F 3) = true ∧ tiny.hasRegister (F 4) = false ∧
    (Instr.lw (R 3) (R 4) 0 0).wellFormed tiny = false ∧
    configAdmissible tiny = true ∧ (decode 0x000000FC0001040B#64).wellFormed tiny = false := by decide

theorem witness_StepRunsDecodedInstruction :
    (boot [wDadd] []).admission = none ∧ (boot [wDadd] []).branchStall = false ∧
    (boot [wDadd] []).imem[(boot [wDadd] []).writeback.execute.pc.toNat]? = some wDadd ∧
    decode wDadd = .dadd (R 3) (R 1) (R 2) 0 0 := by decide

/-- Both clauses: a stalled front end, and a pc exactly at the end of the program. -/
theorem witness_IssueNeedsARunningFrontEnd :
    (middle.admission = none ∧ middle.branchStall = true) ∧
    ((boot [] []).admission = none ∧
      (boot [] []).imem.length ≤ (boot [] []).writeback.execute.pc.toNat) := by decide

theorem witness_AdmittedStepAnswers :
    (boot [wDadd] []).admission = none ∧
    (boot [0x0000000000000401] []).admission = some .noSuchRegister ∧
    State.admission { boot [] [] with cfg := { tiny with nLoad := 0 } } =
      some .inadmissibleConfig := by decide

/-- The hypothesis `step s = .next s'` of the statements over one step is met by every admitted state of
this file; here the two that are in the middle of a run. -/
theorem witness_step :
    (∃ s', step middle = .next s') ∧ ∃ s', step draining = .next s' := ⟨⟨_, rfl⟩, ⟨_, rfl⟩⟩

theorem witness_PlacedRecordIsConsumedNext :
    ((boot [] []).withFetchWord 64 0x0000000002010301).admission = none ∧
    (middle.withFetchWord 64 0x0000000002010301).admission = none := by decide

/-- One state for the integer results, and the two clauses of the division on zero and non-zero
divisors. -/
theorem witness_IntegerResults :
    ((holding .dadd 7 8).unit 1).op = .dadd ∧ ((holding .daddi 7 8).unit 1).op = .daddi ∧
    ((holding .dsub 7 8).unit 1).op = .dsub ∧ ((holding .dsubi 7 8).unit 1).op = .dsubi ∧
    ((holding .dmul 7 8).unit 1).op = .dmul ∧ ((holding .dmul 7 8).unit 1).j = .resolved 7 ∧
    ((holding .dmul 7 8).unit 1).k = .resolved 8 := by decide

/-- The three clauses: divisor 0, divisor 1 with the reference division, and a replaced division. -/
theorem witness_DivideResult :
    (((holding .ddiv 7 0).unit 1).op = .ddiv ∧ ((holding .ddiv 7 0).unit 1).k = .resolved 0) ∧
    (((holding .ddiv 7 1).unit 1).k = .resolved 1 ∧ (1 : Word) ≠ 0 ∧
      (holding .ddiv 7 1).cfg.intDiv = .truncating) ∧
    State.cfg { holding .ddiv 7 1 with cfg := { tiny with intDiv := .custom } } =
      { tiny with intDiv := .custom } := by decide

/-- The clauses of the FP results: both sides of `is_zero`, at the two zeros and at the least subnormal. -/
theorem witness_FpResults :
    ((holding .addD 1 2).unit 1).op = .addD ∧ ((holding .subD 1 2).unit 1).op = .subD ∧
    ((holding .mulD 1 2).unit 1).op = .mulD ∧ ((holding .divD 1 2).unit 1).op = .divD ∧
    ((holding .divD 1 2).unit 1).j = .resolved 1 ∧ ((holding .divD 1 2).unit 1).k = .resolved 2 ∧
    numIsZero tiny 1 = false ∧ numIsZero tiny 0 = true ∧
    numIsZero tiny 0x8000000000000000 = true ∧
    tiny.num = .ieee754 ∧ Config.num { tiny with num := .custom } = .custom := by decide

/-- Two ties, one rounded down and one up, both to the even multiple; the first no tie with `sticky`; and a
finite pattern. -/
theorem witness_ReferenceRoundsToNearestEven :
    2 * (1 - roundShift 1 1 false * 2 ^ 1) = 2 ^ 1 ∧
    2 * (roundShift 3 1 false * 2 ^ 1 - 3) = 2 ^ 1 ∧
    roundShift 1 1 false = 0 ∧ roundShift 1 1 true = 1 ∧
    fpUnpack 0x3FF8000000000000 = .finite false 0x18000000000000 (-52) := by decide

/-- The clauses on a number that is packed: `2^53 + 1` (a tie, to even); `2^53 + 1` and a little more; 3 at
place -1075 (a subnormal); `2^54 - 1` (rounds up into the next exponent); the same times `2^970` (just
overflows); the greatest finite value, exact. -/
theorem witness_ReferenceRoundsToNearestEven_packed :
    fpRound false 0x20000000000001 0 false = 0x4340000000000000 ∧
    fpRound true 0x20000000000001 0 true = 0xC340000000000001 ∧
    fpRound false 3 (-1075) false = 2 ∧
    fpRound false 0x3FFFFFFFFFFFFF 0 false = 0x4350000000000000 ∧
    fpRound true 0x3FFFFFFFFFFFFF 970 false = 0xFFF0000000000000 ∧
    fpRound false 0x1FFFFFFFFFFFFF 971 false = 0x7FEFFFFFFFFFFFFF := by decide

/-- 1.5 and -3 (two finite operands, the second not 0, a common exponent below both), a sum that is exactly
0, and a product that is no NaN. -/
theorem witness_ReferenceProductCommutes :
    fpUnpack 0x3FF8000000000000 = .finite false 0x18000000000000 (-52) ∧
    fpUnpack 0xC008000000000000 = .finite true 0x18000000000000 (-51) ∧
    (0x18000000000000 : Nat) ≠ 0 ∧ (-52 : Int) ≤ -52 ∧ (-52 : Int) ≤ -51 ∧
    signedInt false 0x18000000000000 + signedInt true 0x18000000000000 = 0 ∧
    fpUnpack (ieeeMul 0x3FF8000000000000 0xC008000000000000) ≠ .nan := by decide

/-- Cold lines agree with any memory in canonical form that lies in `MEM`. -/
theorem boot_cacheInv : (boot [] []).CacheInv := cacheOk_of_check (by decide)

/-- A machine whose load buffer or store buffer (unit 6 or 7) holds an access at `ea`. -/
def accessing (op : Opcode) (t : Nat) (ea : Word) : State :=
  (boot [] []).setUnit t (unitOf op (given ea) (given 0) (given 0x1122334455667788))

/-- `touchesLine` as a check the kernel can run. -/
theorem touches_check {c : Config} {ea : Word} {n i : Nat} :
    ((List.range n).any fun k => indexOf c (ea.toNat + k) == i) = true ↔ touchesLine c ea n i := by
  simp [touchesLine]

/-- The last address in bounds and the first out of bounds, for both widths (`MEM_SIZE` is 32), a negative
address, and of the two lines the one touched and the one not. -/
theorem witness_LoadCompletes :
    configAdmissible (accessing .ld 6 24).cfg = true ∧ (accessing .ld 6 24).CacheInv ∧
    6 ≤ (accessing .ld 6 24).units.length ∧ ((accessing .ld 6 24).unit 6).j = .resolved 24 ∧
    ((accessing .ld 6 24).unit 6).op = .ld ∧ ((accessing .lw 6 28).unit 6).op = .lw ∧
    (accessing .ld 6 24).accessInBounds 24 8 ∧ ¬ (accessing .ld 6 25).accessInBounds 25 8 ∧
    (accessing .lw 6 28).accessInBounds 28 4 ∧ ¬ (accessing .lw 6 29).accessInBounds 29 4 ∧
    ¬ (accessing .lw 6 0).accessInBounds 0xFFFFFFFFFFFFFFFC 4 ∧
    touchesLine tiny 24 8 1 ∧ ¬ touchesLine tiny 24 8 0 := by
  refine ⟨by decide, cacheOk_of_check (by decide), by decide, by decide, by decide, by decide,
    ?_⟩
  simp only [← touches_check]
  simp only [State.accessInBounds]
  decide

theorem witness_StoreCompletesAndIsServiced :
    configAdmissible (accessing .sd 7 24).cfg = true ∧ (accessing .sd 7 24).CacheInv ∧
    ((accessing .sd 7 24).unit 7).j = .resolved 24 ∧
    ((accessing .sd 7 24).unit 7).data = .resolved 0x1122334455667788 ∧
    ((accessing .sd 7 24).unit 7).squashed = false ∧ ((accessing .sd 7 24).unit 7).op = .sd ∧
    ((accessing .sw 7 28).unit 7).op = .sw ∧
    (accessing .sd 7 24).accessInBounds 24 8 ∧ ¬ (accessing .sd 7 25).accessInBounds 25 8 ∧
    (accessing .sw 7 28).accessInBounds 28 4 ∧ ¬ (accessing .sw 7 29).accessInBounds 29 4 := by
  refine ⟨by decide, cacheOk_of_check (by decide), by decide, by decide, by decide, by decide,
    by decide, ?_⟩
  simp only [State.accessInBounds]
  decide

/-- For the statements on reads after writes: both widths at their last address, with coherent lines. -/
theorem witness_memory_round_trip :
    configAdmissible (boot [] []).cfg = true ∧ (boot [] []).CacheInv ∧
    (boot [] []).accessInBounds 28 4 ∧ (boot [] []).accessInBounds 24 8 := by
  refine ⟨by decide, boot_cacheInv, ?_⟩
  simp only [State.accessInBounds]
  decide

/-- Two different line arrays over one memory. -/
theorem witness_CacheIsInvisibleToValues :
    (boot [] []).CacheInv ∧
    State.CacheInv { boot [] [] with lines := (State.memRead (boot [] []) 8 .eight).2.lines } ∧
    (State.memRead (boot [] []) 8 .eight).2.lines ≠ (boot [] []).lines :=
  ⟨boot_cacheInv, cacheOk_of_check (by decide), by decide⟩

/-- An access that ends at the end of its block, one that crosses into the other line, and, with one line of 8
bytes, the longest that still fits and one that does not, but does from its byte 1 on. -/
theorem witness_ReadMakesItsBlockResident :
    configAdmissible (boot [] []).cfg = true ∧ (boot [] []).CacheInv ∧
    ((boot [] []).accessInBounds 28 Width.four.bytes ∧
      (28 : Word).toNat % 8 + Width.four.bytes ≤ cacheLineCount tiny * 8) ∧
    ((boot [] []).accessInBounds 7 Width.eight.bytes ∧ 8 < (7 : Word).toNat % 8 + Width.eight.bytes ∧
      (7 : Word).toNat % 8 + Width.eight.bytes ≤ cacheLineCount tiny * 8) ∧
    (let s := State.resetWith { tiny with cacheSize := 8 } []
     configAdmissible s.cfg = true ∧ s.CacheInv ∧ s.accessInBounds 8 Width.eight.bytes ∧
       (8 : Word).toNat % s.cfg.blockSize + Width.eight.bytes =
         cacheLineCount s.cfg * s.cfg.blockSize ∧ s.accessInBounds 7 Width.eight.bytes ∧
       cacheLineCount s.cfg * s.cfg.blockSize < (7 : Word).toNat % s.cfg.blockSize + Width.eight.bytes ∧
       ((7 : Word).toNat + 1) % s.cfg.blockSize + (Width.eight.bytes - 1) ≤
         cacheLineCount s.cfg * s.cfg.blockSize) := by
  refine ⟨by decide, boot_cacheInv, ?_, ?_, by decide, cacheOk_of_check (by decide), ?_⟩ <;>
  · simp only [State.accessInBounds]
    decide

theorem witness_BranchCompletes :
    ((holding .beq 3 3).unit 1).op = .beq ∧ ((holding .bne 3 3).unit 1).op = .bne ∧
    ((holding .beq 3 3).unit 1).j = .resolved 3 ∧ ((holding .beq 3 3).unit 1).k = .resolved 3 := by
  decide

theorem witness_ClearedUnitsAreFreed : 6 ∈ draining.qClear ∧ 7 ∉ draining.qClear := by decide

/-- The clauses: nothing to service, an entry with a destination, an entry without (a store, with a step after
which a byte of memory is another), and a unit to free. -/
theorem witness_OneServicePerCycle :
    (boot [] []).QueueInv ∧ (boot [] []).qResult = [] ∧
    middle.QueueInv ∧ middle.qResult = [3] ∧ hasDest (middle.unit 3).op = true ∧
    (middle.unit 3).result = some 30 ∧
    draining.QueueInv ∧ draining.qResult = [7] ∧ hasDest (draining.unit 7).op = false ∧
    6 ∈ draining.qClear ∧ (draining.service 7).mem ≠ draining.mem ∧
    ∃ s', step draining = .next s' := by
  refine ⟨queueInv_of_check (by decide), by decide, middle_inv.queue, by decide, by decide, by decide,
    draining_inv.queue, by decide, by decide, by decide, by decide, ⟨_, rfl⟩⟩

/-- Nothing to service and a unit to free. -/
theorem witness_OneServicePerCycle_nothing :
    (let s := { boot [] [] with qClear := [6] }.setUnit 6
      { unitOf .ld (given 0) (given 0) (given 0) with result := some 0 }
     s.QueueInv ∧ s.qResult = [] ∧ 6 ∈ s.qClear ∧ 7 ∉ s.qClear) :=
  ⟨queueInv_of_check (by decide), by decide, by decide, by decide⟩

theorem witness_BroadcastReachesEveryWaiter :
    hasDest (middle.unit 3).op = true ∧ (middle.unit 3).result = some 30 ∧
    (middle.reg (R 1)).producer = 3 ∧ (middle.reg (R 2)).producer ≠ 3 ∧
    (middle.unit 1).j = .pending 3 := by decide

theorem witness_FreedTagIsHeldByNothing :
    draining.QueueInv ∧ draining.DependencyInv ∧ 6 ∈ draining.qClear :=
  ⟨draining_inv.queue, draining_inv.dependency, by decide⟩

/-- A ready load in `Q_TBE`, a ready addition in `Q_WAIT`, and a unit that is not ready. -/
theorem witness_DispatchSetsLatency :
    (let s := { accessing .ld 6 24 with qTbe := [6] }
     6 ≤ s.units.length ∧ 6 ∈ s.qTbe ++ s.qWait ∧ s.isReady 6 = true ∧
       (s.unit 6).j = .resolved 24) ∧
    (let s := { holding .dadd 7 8 with qWait := [1] }
     1 ≤ s.units.length ∧ 1 ∈ s.qTbe ++ s.qWait ∧ s.isReady 1 = true ∧
       (s.unit 1).j = .resolved 7) ∧
    ¬ (1 ∈ middle.qTbe ++ middle.qWait ∧ middle.isReady 1 = true) := by decide

/-- A division by 0 (unit 3), a load at `ea` (6), a store (7) and the only branch (1) complete in one cycle;
a multiplication (5) goes on. -/
def retiring (ea : Word) : State :=
  let ending (u : FunctionalUnit) : FunctionalUnit := { u with remaining := 1 }
  ((((({ boot [] [] with qExec := [3, 6, 7, 1, 5], branchStall := true }.setUnit 3
    (ending (unitOf .ddiv (given 5) (given 0) (given 0)))).setUnit 6
    (ending (unitOf .ld (given ea) (given 0) (given 0)))).setUnit 7
    (ending (unitOf .sd (given 24) (given 0) (given 0x1122)))).setUnit 1
    (ending (unitOf .bne (given 1) (given 2) (given 0)))).setUnit 5
    { unitOf .mulD (given 0) (given 0) (given 0) with remaining := 2 })

/-- No branch completes, though one is in flight. -/
theorem witness_LatencyCountsDown_no_branch :
    let s := { boot [] [] with qExec := [1], branchStall := true }.setUnit 1
      { unitOf .beq (given 1) (given 1) (given 0) with remaining := 2 }
    s.dispatched.qExec.Nodup ∧ (∀ t ∈ s.dispatched.qExec, t ≠ 0 ∧ t ≤ s.units.length) ∧
    ∀ t ∈ s.dispatched.qExec, (s.dispatched.unit t).remaining ≤ 1 →
      isBranch (s.dispatched.unit t).op = false := by decide

/-- Every clause, several units at a time: an arithmetic unit that must warn, the load at its last address in
bounds and its first out of bounds, the store, the only branch (taken), and a unit that keeps on. -/
theorem witness_LatencyCountsDown :
    (retiring 24).dispatched.qExec.Nodup ∧
    (∀ t ∈ (retiring 24).dispatched.qExec, t ≠ 0 ∧ t ≤ (retiring 24).units.length) ∧
    (∀ t ∈ [3, 6, 7, 1], t ∈ (retiring 24).dispatched.qExec ∧
      ((retiring 24).dispatched.unit t).remaining ≤ 1) ∧
    5 ∈ (retiring 24).execute.qExec ∧
    (∀ u ∈ (retiring 24).dispatched.qExec,
      isBranch ((retiring 24).dispatched.unit u).op = true → u = 1) ∧
    arithmeticResult tiny .ddiv 5 0 = some 0 ∧ arithmeticWarns tiny .ddiv 5 0 = true ∧
    configAdmissible (retiring 24).cfg = true ∧ (retiring 24).CacheInv ∧ (retiring 25).CacheInv ∧
    (retiring 24).accessInBounds (24 + 0) 8 ∧ ¬ (retiring 25).accessInBounds (25 + 0) 8 := by
  refine ⟨by decide, by decide, by decide, by decide, by decide, by decide, by decide, by decide,
    cacheOk_of_check (by decide), cacheOk_of_check (by decide), ?_⟩
  simp only [State.accessInBounds]
  decide

theorem witness_WaiterWakesInTheSameCycle :
    middle.Inv ∧ middle.qResult = 3 :: [] ∧ hasDest (middle.unit 3).op = true ∧
    1 ∈ middle.qWait ∧ (∀ x, (middle.unit 1).waitsOn x → x = 3) ∧
    ∃ s', step middle = .next s' := by
  refine ⟨middle_inv, by decide, by decide, by decide, fun x hx => ?_, ⟨_, rfl⟩⟩
  rcases hx with hx | hx | hx
  · injection hx with hx
    exact hx.symm
  · exact Operand.noConfusion hx
  · exact Operand.noConfusion hx

/-- A fresh state, a boot that answers, the last register and byte and the first absent ones, and a state after
the first cycle. -/
theorem witness_PreloadedResetMeetsInvariant :
    (boot [wDadd] [0, 8, 7]).Fresh ∧ (∃ s, bootWith tiny [wDadd] = .next s) ∧
    (tiny.hasRegister (F 3) = true ∧ tiny.hasRegister (F 4) = false) ∧
    (∃ s, (boot [wDadd] [0, 8, 7]).preloadRegister (F 3) 9 = .next s) ∧
    (31 < tiny.memSize ∧ ¬ 32 < tiny.memSize) ∧
    (∃ s, (boot [wDadd] [0, 8, 7]).preloadByte 31 9 = .next s) ∧ middle.cycle ≠ 0 :=
  ⟨boot_fresh, ⟨_, rfl⟩, by decide, ⟨_, rfl⟩, by decide, ⟨_, rfl⟩, by decide⟩

theorem witness_StepKeepsInvariant : middle.Inv ∧ ∃ s', step middle = .next s' :=
  ⟨middle_inv, ⟨_, rfl⟩⟩

theorem witness_RunsNeverStopAndKeepInvariant : (boot [wDadd] [0, 8, 7]).Fresh := boot_fresh

/-- Units in each of the six stages. -/
theorem witness_StagesMoveAsListed :
    middle.Inv ∧ (∃ s', step middle = .next s') ∧ draining.Inv ∧ (∃ s', step draining = .next s') ∧
    middle.stage 1 = .wait ∧ middle.stage 2 = .exec ∧ middle.stage 3 = .result ∧
    middle.stage 4 = .free ∧ draining.stage 4 = .tbe ∧ draining.stage 6 = .clear :=
  ⟨middle_inv, ⟨_, rfl⟩, draining_inv, ⟨_, rfl⟩, by decide⟩

/-- The machine after `DADD R1, R1, R2` was issued. -/
def stuck : State :=
  ({ boot [0x0000000002010101] [] with
      qWait := [1], pc := 1, cycle := 2
      gpr := [⟨0, 0⟩, ⟨0, 1⟩, ⟨0, 0⟩, ⟨0, 0⟩] }).setUnit 1
    (unitOf .dadd (waiting 1) (given 0) (given 0))

theorem witness_SelfDependentUnitWaitsForEver :
    (selfDependent (.dadd (R 1) (R 1) (R 2) 0 0) = true ∧ (boot [] []).Shaped ∧
      (boot [] []).allocate .intAdd = some 1 ∧
      ∃ s', exec (.dadd (R 1) (R 1) (R 2) 0 0) (boot [] []) = .next s') ∧
    stuck.Inv ∧ (stuck.unit 1).waitsOn 1 ∧ ∃ s', core.run 1 stuck = .next s' :=
  ⟨⟨by decide, boot_shaped [], by decide, ⟨_, rfl⟩⟩, inv_of_check (by decide), .inl rfl, ⟨_, rfl⟩⟩

theorem witness_FinishedStateIsStable :
    (boot [] []).isFinished = true ∧ (boot [] []).admission = none := by decide

theorem witness_RegisterChangesOnlyByItsProducer :
    (nextOf (step middle)).map
      (fun s => decide ((s.reg (R 1)).value ≠ (middle.reg (R 1)).value)) = some true := by decide

theorem witness_MemoryChangesOnlyByAStoreService :
    (nextOf (step draining)).map (fun s => decide (s.mem.read 24 ≠ draining.mem.read 24)) =
      some true := by decide

/-- A line changes by the service of a store, and by the completion of a load. -/
theorem witness_MemoryChangesOnlyByAStoreService_lines :
    draining.Inv ∧ (retiring 24).Inv ∧
    (nextOf (step draining)).map (fun s => decide (s.lines ≠ draining.lines)) = some true ∧
    (nextOf (step (retiring 24))).map (fun s => decide (s.lines ≠ (retiring 24).lines)) = some true :=
  ⟨draining_inv, inv_of_check (by decide), by decide, by decide⟩

/-- The third clause: the branch of `middle` completes in its next cycle. -/
theorem witness_PcChangesOnlyByIssueOrBranch :
    middle.Inv ∧ (nextOf (step middle)).map (fun s => (s.pc, s.branchStall)) = some (9, false) :=
  ⟨middle_inv, by decide⟩

theorem witness_WarningsAreSticky :
    (∃ s', step { middle with warn := { middle.warn with outOfRange := true } } = .next s') ∧
    Warnings.isSet { middle.warn with outOfRange := true } .outOfRange = true :=
  ⟨⟨_, rfl⟩, rfl⟩

/-- Two programs that differ in an ignored immediate and in a reserved bit. -/
theorem witness_IgnoredFieldsChangeNothing :
    SameButIgnored (boot [0x0000123402010301] []) (boot [0x000000000201C301] []) ∧
    ∃ s', step (boot [0x0000123402010301] []) = .next s' :=
  ⟨⟨by decide, by decide⟩, ⟨_, rfl⟩⟩

/-- `DADD R3, R1, R2` alone. -/
theorem witness_ArithmeticRunsToItsResult :
    (boot [wDadd] []).Idle ∧ (boot [wDadd] []).Shaped ∧ (boot [wDadd] []).admission = none ∧
    (boot [wDadd] []).imem[(boot [wDadd] []).pc.toNat]? = some wDadd ∧
    decode wDadd = .dadd (R 3) (R 1) (R 2) 0 0 ∧
    (boot [wDadd] []).imem.length = (boot [wDadd] []).pc.toNat + 1 ∧
    selfDependent (.dadd (R 3) (R 1) (R 2) 0 0) = false ∧
    (Instr.dadd (R 3) (R 1) (R 2) 0 0).dest = some (R 3) ∧
    (boot [wDadd] []).operandValues (.dadd (R 3) (R 1) (R 2) 0 0) = some (0, 0) ∧
    arithmeticResult (boot [wDadd] []).cfg .dadd 0 0 = some 0 :=
  ⟨boot_idle _, boot_shaped _, by decide⟩

/-- `DDIV R3, R1, R2` alone, with a zero divisor. -/
theorem witness_ArithmeticRunsToItsResult_warns :
    (boot [0x0000000002010306] []).Idle ∧ (boot [0x0000000002010306] []).Shaped ∧
    (boot [0x0000000002010306] []).admission = none ∧
    decode 0x0000000002010306 = .ddiv (R 3) (R 1) (R 2) 0 0 ∧
    (boot [0x0000000002010306] []).imem.length = (boot [0x0000000002010306] []).pc.toNat + 1 ∧
    (boot [0x0000000002010306] []).operandValues (.ddiv (R 3) (R 1) (R 2) 0 0) = some (0, 0) ∧
    arithmeticResult tiny .ddiv 0 0 = some 0 ∧ arithmeticWarns tiny .ddiv 0 0 = true :=
  ⟨boot_idle _, boot_shaped _, by decide⟩

/-- `LD R2, 24(R1)` alone, in bounds, and `LD R2, 25(R1)`, out of bounds. -/
theorem witness_LoadRunsToItsResult :
    (boot [0x000000180001020C] []).Idle ∧ (boot [0x000000180001020C] []).Shaped ∧
    (boot [0x000000180001020C] []).CacheInv ∧ (boot [0x000000180001020C] []).admission = none ∧
    decode 0x000000180001020C = .ld (R 2) (R 1) 24 0 ∧
    decode 0x000000190001020C = .ld (R 2) (R 1) 25 0 ∧
    (boot [0x000000180001020C] []).imem.length = (boot [0x000000180001020C] []).pc.toNat + 1 ∧
    R 2 ≠ R 1 ∧ (boot [] []).accessInBounds (0 + sext64 24) 8 ∧
    ¬ (boot [] []).accessInBounds (0 + sext64 25) 8 := by
  refine ⟨boot_idle _, boot_shaped _, cacheOk_of_check (by decide), by decide, by decide, by decide,
    by decide, by decide, ?_⟩
  simp only [State.accessInBounds]
  decide

/-- `SD R2, 24(R1)` alone, in bounds, and `SD R2, -8(R1)`, out of bounds. -/
theorem witness_StoreRunsToItsWrite :
    (boot [0x000000180201000E] []).Idle ∧ (boot [0x000000180201000E] []).Shaped ∧
    (boot [0x000000180201000E] []).CacheInv ∧ (boot [0x000000180201000E] []).admission = none ∧
    decode 0x000000180201000E = .sd (R 1) (R 2) 24 0 ∧
    decode 0x0000FFF80201000E = .sd (R 1) (R 2) 0xFFF8 0 ∧
    (boot [0x000000180201000E] []).imem.length = (boot [0x000000180201000E] []).pc.toNat + 1 ∧
    (boot [] []).accessInBounds (0 + sext64 24) 8 ∧
    ¬ (boot [] []).accessInBounds (0 + sext64 0xFFF8) 8 := by
  refine ⟨boot_idle _, boot_shaped _, cacheOk_of_check (by decide), by decide, by decide, by decide,
    by decide, ?_⟩
  simp only [State.accessInBounds]
  decide

/-- `BEQ R1, R2, 5` on an idle machine, with a record after it. -/
theorem witness_BranchRunsToItsTarget :
    (boot [wBeq, wDadd] []).Idle ∧ (boot [wBeq, wDadd] []).Shaped ∧
    (boot [wBeq, wDadd] []).admission = none ∧
    (boot [wBeq, wDadd] []).imem[(boot [wBeq, wDadd] []).pc.toNat]? = some wBeq ∧
    decode wBeq = .beq (R 1) (R 2) 0 5 :=
  ⟨boot_idle _, boot_shaped _, by decide⟩

/-- `BNE R1, R2, 5` on an idle machine, not taken. -/
theorem witness_BranchRunsToItsTarget_bne :
    (boot [0x0005000002010010, wDadd] []).Idle ∧ (boot [0x0005000002010010, wDadd] []).Shaped ∧
    (boot [0x0005000002010010, wDadd] []).admission = none ∧
    decode 0x0005000002010010 = (if false then .beq (R 1) (R 2) 0 5 else .bne (R 1) (R 2) 0 5) :=
  ⟨boot_idle _, boot_shaped _, by decide⟩

theorem witness_ResetValues :
    admission tiny [wDadd] = none ∧ admission Config.ref [] = none := by decide

theorem witness_ExecutionStartsAtIndexZero :
    (boot [wDadd] [0, 8, 7]).Fresh ∧ (boot [wDadd] [0, 8, 7]).imem[0]? = some wDadd :=
  ⟨boot_fresh, rfl⟩

end Sys2Proof.Tests
end

section
/-! PROOFS. The decoder's UNKNOWN opcode (30_encoding.md R109): the decoder's answer is UNKNOWN exactly when the
opcode its low byte selects is, and that is exactly when the byte stands outside R104's table. -/

namespace Sys2Proof

/-- R104, R141: the opcode of what the decoder answers is the one the low byte selects. -/
@[simp] theorem opcode_decode (w : Record) :
    (decode w).opcode = opcodeOfByte (w.extractLsb' 0 8) := by
  unfold decode
  cases opcodeOfByte (w.extractLsb' 0 8) <;> rfl

theorem Instr.opcode_eq_unknown_iff {i : Instr} : i.opcode = .unknown ↔ i = .unknown := by
  cases i <;> simp [Instr.opcode]

/-- R109: in each of the sixteen rows of R104 both sides fail; in the last arm the byte is none of the
sixteen numbers. -/
theorem opcodeOfByte_eq_unknown_iff {b : BitVec 8} :
    opcodeOfByte b = .unknown ↔ b.toNat = 0 ∨ 0x11 ≤ b.toNat := by
  unfold opcodeOfByte
  split
  case h_17 => simp only [imp_false, true_iff] at *; omega
  all_goals simp [*]

theorem decode_eq_unknown_iff {w : Record} : decode w = .unknown ↔
    (w.extractLsb' 0 8).toNat = 0 ∨ 0x11 ≤ (w.extractLsb' 0 8).toNat := by
  rw [← Instr.opcode_eq_unknown_iff, opcode_decode, opcodeOfByte_eq_unknown_iff]

/-- R142, R270: the meaning of UNKNOWN, with the warning flag it raises written out. -/
theorem Machine.exec_unknown (s : Machine.State) : Machine.exec .unknown s =
    .next { s with warn := { s.warn with unknownInstr := true }, pc := s.pc + 1 } := rfl

/-- Settles O3: the decoder answers UNKNOWN exactly on the undefined bytes, and there `exec` is UNKNOWN's. -/
theorem undefinedOpcodesAreUnknown : Obligations.UndefinedOpcodesAreUnknown := by
  intro w
  refine ⟨decode_eq_unknown_iff, fun hbyte s => ?_⟩
  rw [decode_eq_unknown_iff.mpr hbyte, Machine.exec_unknown]

end Sys2Proof
end

section
/-! PROOFS. Registers that do not exist (30_encoding.md R107): what the checks of a register, of an instruction
and of a program say, and what the host is answered when one of them fails. -/

namespace Sys2Proof

theorem Config.hasRegister_gpr {c : Config} {index : BitVec 5} :
    c.hasRegister ⟨.gpr, index⟩ = true ↔ index.toNat < c.nGpr := decide_eq_true_iff

theorem Config.hasRegister_fpr {c : Config} {index : BitVec 5} :
    c.hasRegister ⟨.fpr, index⟩ = true ↔ index.toNat < c.nFpr := decide_eq_true_iff

/-- R107: an instruction is well-formed when the register it renames and all it reads exist. -/
theorem Instr.wellFormed_iff {c : Config} {i : Instr} : i.wellFormed c = true ↔
    (∀ r, i.dest = some r → c.hasRegister r = true) ∧ ∀ r ∈ i.sources, c.hasRegister r = true := by
  unfold Instr.wellFormed
  rw [Bool.and_eq_true, Option.all_eq_true, List.all_eq_true]

namespace Machine

theorem programFits_iff {p : List Record} : programFits p = true ↔ p.length ≤ 65535 :=
  decide_eq_true_iff

theorem programWellFormed_eq_false_iff {c : Config} {p : List Record} :
    programWellFormed c p = false ↔ ∃ w ∈ p, (decode w).wellFormed c = false := by
  simp [programWellFormed]

/-- The register check is the last of the three: it is the reason only when the other two pass. -/
theorem admission_eq_noSuchRegister_iff {c : Config} {p : List Record} :
    admission c p = some .noSuchRegister ↔
      configAdmissible c = true ∧ programFits p = true ∧ programWellFormed c p = false := by
  unfold admission
  cases configAdmissible c
  case false => simp
  case true =>
    cases programFits p
    case false => simp
    case true => cases programWellFormed c p <;> simp

/-- R310: the host is refused for exactly the reason the admission check gives. -/
theorem bootWith_eq_refused_iff {c : Config} {p : List Record} {r : Refusal} :
    bootWith c p = .refused r ↔ admission c p = some r := by
  unfold bootWith
  cases admission c p <;> simp

end Machine

/-- Settles O16: the register check by file, the instruction check by its parts, the refusal at boot by the
order of the admission checks. -/
theorem absentRegisterIsRefused : Obligations.AbsentRegisterIsRefused := by
  refine ⟨fun c r => ?_, fun c i => Instr.wellFormed_iff, fun c p => ?_⟩
  · obtain ⟨file, index⟩ := r
    cases file
    case gpr => exact Config.hasRegister_gpr
    case fpr => exact Config.hasRegister_fpr
  · rw [Machine.bootWith_eq_refused_iff, Machine.admission_eq_noSuchRegister_iff,
      Machine.programFits_iff, Machine.programWellFormed_eq_false_iff]

end Sys2Proof
end

section
/-! PROOFS. The allocator (40_issue_and_rename.md R135): it answers the lowest free unit of the class; and which
units the back half of a cycle leaves busy, so that a unit freed in phase W is free in phase I. -/

namespace Sys2Proof.Machine

/-- R135: the scan goes through the tags of the class in ascending order, so every tag of the class below the
answer has been passed over as busy. -/
theorem allocate_eq_some_iff {s : State} {k : UnitClass} {t : Nat} : s.allocate k = some t ↔
    t ∈ classTags s.cfg k ∧ (s.unit t).busy = false ∧
      ∀ u ∈ classTags s.cfg k, u < t → (s.unit u).busy = true := by
  unfold State.allocate classTags
  simp only [List.find?_range'_eq_some, List.mem_range'_1, Bool.not_eq_true', Bool.not_not]
  constructor
  · rintro ⟨hfree, hmem, hbelow⟩
    exact ⟨hmem, hfree, fun u hu hlt => hbelow u hu.1 hlt⟩
  · rintro ⟨hmem, hfree, hbelow⟩
    exact ⟨hfree, hmem, fun u hu hlt => hbelow u ⟨hu, hlt.trans hmem.2⟩ hlt⟩

/-! ### Writeback -/

/-- W2 (R165 to R168): a broadcast fills slots, a store touches memory, and neither frees or takes a unit. -/
theorem service_unit_busy (s : State) (t u : Nat) :
    ((s.service t).unit u).busy = (s.unit u).busy := by
  cases hd : hasDest (s.unit t).op with
  | true =>
    rw [service_of_hasDest hd]
    cases hv : (s.unit t).result with
    | none => unfold State.publish; rw [hv]
    | some v =>
      rw [publish_of_result hv]
      exact (congrArg _ (unit_fanOut s t v u)).trans (deliver_busy ..)
  | false =>
    rw [service_of_not_hasDest hd]
    rfl

theorem serviceOldest_unit_busy (s : State) (u : Nat) :
    (s.serviceOldest.unit u).busy = (s.unit u).busy := by
  unfold State.serviceOldest
  cases s.qResult with
  | nil => rfl
  | cons t rest => exact service_unit_busy { s with qResult := rest } t u

/-- R163: after the Writeback phase a unit is busy exactly when it was and was not waiting to be freed. -/
theorem writeback_unit_busy_iff (s : State) (t : Nat) : (s.writeback.unit t).busy = true ↔
    t ∉ s.qClear ∧ (s.unit t).busy = true := by
  obtain ⟨-, -, hfreed⟩ := freeCleared_spec s.clearBus
  unfold State.writeback
  rw [serviceOldest_unit_busy, hfreed t]
  by_cases hclear : t ∈ s.qClear
  · simp [hclear, FunctionalUnit.reset]
  · simp [hclear, unit_congr (clearBus_units s)]

/-! ### Execute -/

theorem dispatched_sameRequest (s : State) (u : Nat) :
    SameRequest (s.unit u) (s.dispatched.unit u) := by
  obtain ⟨-, -, hunit⟩ :=
    dispatchAll_spec (s.readyIssued ++ s.classify.readyWaiters) s.classify.wake
  unfold State.dispatched
  rw [hunit u]
  split <;> rfl

theorem countDown_sameRequest (s : State) (t u : Nat) :
    SameRequest (s.unit u) ((s.countDown t).unit u) := by
  have hdown := countDown_countedDown s t
  by_cases hu : u = t
  · rw [hu]
    exact hdown.unit
  · rw [hdown.otherUnits u hu]
    exact SameRequest.refl _

theorem foldl_countDown_sameRequest (l : List Nat) (s : State) (u : Nat) :
    SameRequest (s.unit u) ((l.foldl State.countDown s).unit u) := by
  induction l generalizing s with
  | nil => exact SameRequest.refl _
  | cons t l ih => exact (countDown_sameRequest s t u).trans (ih (s.countDown t))

/-- R169 to R178: the Execute phase changes of a unit its latency, result and squash bit at most. -/
theorem execute_sameRequest (s : State) (u : Nat) :
    SameRequest (s.unit u) (s.execute.unit u) :=
  (dispatched_sameRequest s u).trans (foldl_countDown_sameRequest _ s.dispatched u)

/-- R135: what the Issue phase finds: a unit freed in this cycle's Writeback phase is free again. -/
theorem unit_free_of_mem_qClear {s : State} {t : Nat} (h : t ∈ s.qClear) :
    (s.writeback.execute.unit t).busy = false := by
  rw [(execute_sameRequest s.writeback t).busy, ← Bool.not_eq_true, writeback_unit_busy_iff]
  exact fun hbusy => hbusy.1 h

end Sys2Proof.Machine

namespace Sys2Proof

/-- Settles O6: the allocator's two answers, and the units of `Q_CLEAR` at the Issue phase. -/
theorem allocatorTakesLowestFree : Obligations.AllocatorTakesLowestFree :=
  ⟨fun _ _ => ⟨fun _ => Machine.allocate_eq_some_iff, Machine.allocate_none⟩,
    fun _ _ => Machine.unit_free_of_mem_qClear⟩

end Sys2Proof
end

section
/-! PROOFS. What the Issue phase does with a record (40_issue_and_rename.md R140, R142, R146): nothing when there is
none to consume, `WARN[1]` alone when its class has no free unit, and else at most one record and one unit. -/

namespace Sys2Proof.Machine

/-- R146: with every unit of its class busy, an instruction stalls at the front end. -/
theorem exec_of_busy {s : State} {i : Instr} {k : UnitClass} (hk : opcodeClass i.opcode = some k)
    (hw : i.wellFormed s.cfg = true) (hbusy : ∀ u ∈ classTags s.cfg k, (s.unit u).busy = true) :
    exec i s = .next (s.warnOn .exhaustion) := by
  obtain ⟨q, hq, rfl⟩ := request_of_class hk
  rw [exec_of_request hq]
  exact issue_of_busy ((request_regs hq).trans hw) (allocate_none.mpr hbusy)

/-! ### Which records are consumed -/

@[simp] theorem issuedInto_pc (s : State) (q : IssueRequest) (t : Nat) :
    (s.issuedInto q t).pc = s.pc + 1 := by
  unfold State.issuedInto State.enqueueIssued State.captureOperands
  rw [claimUnit_frame, setUnit_pc]

@[simp] theorem issuedInto_qTbe (s : State) (q : IssueRequest) (t : Nat) :
    (s.issuedInto q t).qTbe = s.qTbe ++ [t] := by
  unfold State.issuedInto State.enqueueIssued State.captureOperands
  rw [claimUnit_frame, setUnit_qTbe]

/-- R141: the three ways in which a record that is not refused is met: UNKNOWN is consumed without a unit (R142),
a record whose class is busy is not consumed (R146), any other is consumed into one unit (R147). -/
theorem exec_next_cases {s s' : State} {i : Instr} (h : exec i s = .next s') :
    s' = { s.warnOn .unknownInstr with pc := s.pc + 1 } ∨ s' = s.warnOn .exhaustion ∨
      ∃ q t, s' = s.issuedInto q t := by
  cases hr : requestOf i with
  | none =>
    cases i <;> simp only [requestOf, reduceCtorEq] at hr
    cases h
    exact .inl rfl
  | some q =>
    rw [exec_of_request hr] at h
    rcases issue_cases s q with ⟨-, hi⟩ | ⟨-, -, hi⟩ | ⟨t, -, -, hi⟩ <;> rw [hi] at h <;> cases h
    · exact .inr (.inl rfl)
    · exact .inr (.inr ⟨q, t, rfl⟩)

theorem exec_consumes_at_most_one {s s' : State} {i : Instr} (h : exec i s = .next s') :
    (s'.pc = s.pc ∨ s'.pc = s.pc + 1) ∧ (s'.qTbe = s.qTbe ∨ ∃ t, s'.qTbe = s.qTbe ++ [t]) := by
  rcases exec_next_cases h with rfl | rfl | ⟨q, t, rfl⟩
  · exact ⟨.inr rfl, .inl rfl⟩
  · exact ⟨.inl rfl, .inl rfl⟩
  · exact ⟨.inr (issuedInto_pc s q t), .inr ⟨t, issuedInto_qTbe s q t⟩⟩

/-! ### When there is a record to consume -/

/-- R140: the two reasons why nothing is fetched. -/
theorem fetch_eq_none_iff {s : State} {stalled : Bool} :
    s.fetch stalled = none ↔ stalled = true ∨ s.imem.length ≤ s.pc.toNat := by
  cases stalled with
  | true => simp [fetch_stalled]
  | false => simp [fetch_running]

theorem step_of_fetch_none {s : State} (hadm : s.admission = none)
    (hf : s.writeback.execute.fetch s.branchStall = none) :
    step s = .next s.writeback.execute.endCycle := by
  unfold step State.issuePhase
  rw [hadm, hf]

end Sys2Proof.Machine

namespace Sys2Proof
open Machine

/-- Settles O14, by UNKNOWN's meaning. -/
theorem unknownIsNoOperation : Obligations.UnknownIsNoOperation := exec_unknown

/-- Settles O15: `WARN[1]` is the one flag that a structural stall raises. -/
theorem noFreeUnitStalls : Obligations.NoFreeUnitStalls :=
  fun _ _ _ hk hw hbusy => exec_of_busy hk hw hbusy

/-- Settles O19: a step with nothing fetched, and else the cases of `exec`; the Execute phase has emptied
`Q_TBE`, so a unit it holds afterwards was taken in this Issue phase. -/
theorem issueNeedsARunningFrontEnd : Obligations.IssueNeedsARunningFrontEnd := by
  refine ⟨fun s hadm hnone => ?_, fun s s' hstep => ?_⟩
  · obtain ⟨-, himem, -⟩ := execute_frame s.writeback
    obtain ⟨-, himem', -⟩ := writeback_frame s
    refine step_of_fetch_none hadm (fetch_eq_none_iff.mpr ?_)
    rwa [himem, himem']
  · obtain ⟨-, -, -, -, -, hempty, -⟩ := execute_frame s.writeback
    obtain ⟨-, ⟨-, rfl⟩ | ⟨w, s1, -, hexec, rfl⟩⟩ := step_next hstep
    · exact ⟨.inl rfl, .inl hempty⟩
    · have hone := exec_consumes_at_most_one hexec
      rwa [hempty] at hone

end Sys2Proof
end

section
/-! PROOFS. The Writeback phase (41_scheduler_and_cdb.md R163 to R168, 40_issue_and_rename.md R132): the two
things a service can be, a publication or an access to memory, and what follows for the units and `Q_CLEAR`. -/

namespace Sys2Proof.Machine

/-! ### The service of one unit -/

/-- R165: a unit with a destination and a result publishes it. -/
theorem service_of_result {s : State} {t : Nat} {v : Word} (hd : hasDest (s.unit t).op = true)
    (hv : (s.unit t).result = some v) :
    s.service t = { s.fanOut t v with busEvent := some (t, v) } :=
  (service_of_hasDest hd).trans (publish_of_result hv)

/-- R165 to R168, log entry 9: everything a service can do. It publishes a result, or it touches memory, lines
and flags at most. -/
theorem service_cases (s : State) (t : Nat) :
    (∃ v, s.service t = { s.fanOut t v with busEvent := some (t, v) }) ∨
      s.service t = { s with
        mem := (s.service t).mem, lines := (s.service t).lines, warn := (s.service t).warn } := by
  cases hd : hasDest (s.unit t).op with
  | false => exact .inr (service_of_not_hasDest hd)
  | true =>
    cases hv : (s.unit t).result with
    | some v => exact .inl ⟨v, service_of_result hd hv⟩
    | none =>
      have hsame : s.service t = s := by
        rw [service_of_hasDest hd]
        unfold State.publish
        rw [hv]
      rw [hsame]
      exact .inr rfl

/-- R168: a service moves no unit into `Q_CLEAR`; `serviceOldest` does. -/
@[simp] theorem service_qClear (s : State) (t : Nat) : (s.service t).qClear = s.qClear := by
  obtain ⟨v, h⟩ | h := service_cases s t
  · rw [h]; rfl
  · rw [h]

/-- R166: a broadcast fills the slots of busy units only. -/
theorem service_unit_of_free {s : State} {u : Nat} (hfree : (s.unit u).busy = false) (t : Nat) :
    (s.service t).unit u = s.unit u := by
  obtain ⟨v, h⟩ | h := service_cases s t
  · calc (s.service t).unit u
        = (s.fanOut t v).unit u := unit_congr (by rw [h]) u
      _ = (s.unit u).deliver t v := unit_fanOut s t v u
      _ = s.unit u := deliver_of_free hfree t v
  · exact unit_congr (by rw [h]) u

/-! ### The phase -/

theorem serviceOldest_unit_of_free {s : State} {u : Nat} (hfree : (s.unit u).busy = false) :
    s.serviceOldest.unit u = s.unit u := by
  unfold State.serviceOldest
  cases s.qResult with
  | nil => rfl
  | cons t rest => exact service_unit_of_free (s := { s with qResult := rest }) hfree t

/-- R164, R168: the one entry that is serviced joins `Q_CLEAR`. -/
theorem serviceOldest_qClear (s : State) :
    s.serviceOldest.qClear = s.qClear ++ s.qResult.take 1 := by
  unfold State.serviceOldest
  cases s.qResult with
  | nil => simp
  | cons t rest => simp

/-- R163: a unit freed by W1 is at its reset value, and W2 passes it over as free. -/
theorem writeback_unit_of_mem_qClear {s : State} {t : Nat} (h : t ∈ s.qClear) :
    s.writeback.unit t = FunctionalUnit.reset := by
  obtain ⟨-, -, hfreed⟩ := freeCleared_spec s.clearBus
  have hreset : s.clearBus.freeCleared.unit t = FunctionalUnit.reset := by
    rw [hfreed t, clearBus_qClear, if_pos h]
  unfold State.writeback
  rw [serviceOldest_unit_of_free (by rw [hreset]; rfl), hreset]

theorem writeback_qClear (s : State) : s.writeback.qClear = s.qResult.take 1 := by
  obtain ⟨hframe, -, -⟩ := freeCleared_spec s.clearBus
  unfold State.writeback
  rw [serviceOldest_qClear, hframe]
  rfl

end Sys2Proof.Machine

namespace Sys2Proof
open Machine

/-- Settles O35: a unit of `Q_CLEAR` stays at its reset value through W2, and no service takes or frees one. -/
theorem clearedUnitsAreFreed : Obligations.ClearedUnitsAreFreed := by
  refine fun s => ⟨fun t ht => writeback_unit_of_mem_qClear ht, writeback_qClear s, fun t ht => ?_⟩
  rw [Bool.eq_iff_iff, writeback_unit_busy_iff]
  exact and_iff_right ht

/-- Settles O37: the service is the fan-out of R166, read register by register and unit by unit. -/
theorem broadcastReachesEveryWaiter : Obligations.BroadcastReachesEveryWaiter := by
  intro s t v ht hd hv
  rw [service_of_result hd hv]
  exact ⟨fun r => reg_fanOut s ht v r, fun u => unit_fanOut s t v u, rfl⟩

end Sys2Proof
end

section
/-! PROOFS. The first half of the Execute phase (41_scheduler_and_cdb.md R169 to R173): which units are ready, in
which order they wait or are dispatched, and the latency a dispatched unit gets. -/

namespace Sys2Proof.Machine

/-! ### The ready check -/

theorem Operand.isResolved_iff {o : Operand} : o.isResolved = true ↔ ∃ v, o = .resolved v := by
  cases o <;> simp [Operand.isResolved]

/-- R171. -/
theorem FunctionalUnit.ready_iff {u : FunctionalUnit} : u.ready = true ↔
    ∃ a b c, u.j = .resolved a ∧ u.k = .resolved b ∧ u.data = .resolved c := by
  simp only [FunctionalUnit.ready, Bool.and_eq_true, Operand.isResolved_iff]
  constructor
  · rintro ⟨⟨⟨a, hj⟩, b, hk⟩, c, hdata⟩
    exact ⟨a, b, c, hj, hk, hdata⟩
  · rintro ⟨a, b, c, hj, hk, hdata⟩
    exact ⟨⟨⟨a, hj⟩, b, hk⟩, c, hdata⟩

/-! ### The order of the ready list -/

/-- R169, R170: the units that E1 has just put into `Q_WAIT` are not ready, so E2 wakes none of them. -/
theorem classify_readyWaiters (s : State) : s.classify.readyWaiters = s.qWait.filter s.isReady := by
  change (s.qWait ++ s.qTbe.filter fun t => !s.isReady t).filter s.isReady = _
  simp [List.filter_append, List.filter_filter]

/-- R169 to R171: the ready list holds the ready units of the two queues. -/
theorem mem_readyList_iff {s : State} {t : Nat} :
    t ∈ s.readyIssued ++ s.classify.readyWaiters ↔
      t ∈ s.qTbe ++ s.qWait ∧ s.isReady t = true := by
  rw [State.readyIssued, classify_readyWaiters, ← List.filter_append, List.mem_filter]

/-- E3: after E1 and E2 the dispatch changes only the units and `Q_EXEC`. -/
theorem dispatched_frame (s : State) : s.dispatched = { s.classify.wake with
    units := s.dispatched.units,
    qExec := s.qExec ++ (s.readyIssued ++ s.classify.readyWaiters) } :=
  (dispatchAll_spec (s.readyIssued ++ s.classify.readyWaiters) s.classify.wake).1

theorem dispatched_qExec (s : State) :
    s.dispatched.qExec = s.qExec ++ s.qTbe.filter s.isReady ++ s.qWait.filter s.isReady := by
  rw [dispatched_frame, classify_readyWaiters, List.append_assoc]
  rfl

/-- E4 leaves `Q_WAIT` as the dispatch left it. -/
theorem execute_qWait (s : State) :
    s.execute.qWait = (s.qWait ++ s.qTbe).filter fun t => !s.isReady t := by
  obtain ⟨-, -, -, -, -, -, hcount, -⟩ := countDownAll_frame s.dispatched.qExec s.dispatched
  calc s.execute.qWait
      = s.dispatched.qWait := hcount
    _ = s.classify.wake.qWait := by rw [dispatched_frame]
    _ = (s.qWait ++ s.qTbe.filter fun t => !s.isReady t).filter fun t => !s.isReady t := rfl
    _ = (s.qWait ++ s.qTbe).filter fun t => !s.isReady t := by
      simp [List.filter_append, List.filter_filter]

/-! ### The latency -/

/-- R172: what the dispatch does to every unit. -/
theorem dispatched_unit (s : State) (t : Nat) : s.dispatched.unit t =
    if (t ∈ s.qTbe ++ s.qWait ∧ s.isReady t = true) ∧ t ≠ 0 ∧ t ≤ s.units.length then
      { s.unit t with remaining := latency s.cfg s.lines (s.unit t) }
    else s.unit t := by
  obtain ⟨-, -, hunit⟩ :=
    dispatchAll_spec (s.readyIssued ++ s.classify.readyWaiters) s.classify.wake
  simp only [mem_readyList_iff] at hunit
  exact hunit t

/-- R66, R67: a lookup hits where an address of the memory has a valid line that holds its tag. -/
theorem accessTerm_eq (s : State) (ea : Word) : s.accessTerm ea =
    if lookupAddress s.cfg s.lines ea = true then s.cfg.hitLat else s.cfg.missPenalty := by
  have hbounds : inBounds s.cfg ea 1 = true ↔ 0 ≤ ea.toInt ∧ ea.toInt < (s.cfg.memSize : Int) := by
    simp only [inBounds, Bool.and_eq_true, decide_eq_true_eq]
    omega
  simp only [State.accessTerm, lookupAddress_iff, hbounds, lookup_iff, and_assoc]

/-- R172, R173: the hit or miss term of a unit with a resolved base is looked up at base plus offset. -/
theorem cacheTerm_of_base {s : State} {u : FunctionalUnit} {base : Word}
    (hbase : u.j = .resolved base) :
    cacheTerm s.cfg s.lines u = s.accessTerm (base + u.imm) := by
  have haddr : u.address? = some (base + u.imm) := by
    unfold FunctionalUnit.address?
    rw [hbase]
    rfl
  unfold cacheTerm
  rw [haddr, accessTerm_eq]

end Sys2Proof.Machine

namespace Sys2Proof
open Machine

/-- Settles O39: the ready check by its slots, the two queues by the sub-steps E1 to E3. -/
theorem readyUnitsAreDispatched : Obligations.ReadyUnitsAreDispatched := by
  refine ⟨fun s t => FunctionalUnit.ready_iff, fun s => ⟨dispatched_qExec s, ?_, execute_qWait s⟩⟩
  obtain ⟨-, -, -, -, -, hempty, -⟩ := execute_frame s
  exact hempty

/-- Settles O40: each row of R172's table is one arm of `latency`, with the term of a load or store at its
resolved base. -/
theorem dispatchSetsLatency : Obligations.DispatchSetsLatency := by
  refine ⟨dispatched_qExec, fun s t h0 hpool => ⟨fun hmem hready base hbase => ?_, fun hnot => ?_⟩⟩
  · refine ⟨latency s.cfg s.lines (s.unit t), ?_, ?_⟩
    · rw [dispatched_unit, if_pos ⟨⟨hmem, hready⟩, h0, hpool⟩]
    · unfold latency
      rw [cacheTerm_of_base hbase]
      cases (s.unit t).op <;> trivial
  · rw [dispatched_unit, if_neg fun h => hnot h.1]

end Sys2Proof
end

section
/-! PROOFS. Reset and the first cycle (10_state.md R37, 70_reset_and_hazards.md R310, R311): what each accessor
answers on the reset state, and what phases W and E do when they have nothing to do. -/

namespace Sys2Proof.Machine

/-! ### The reset state -/

/-- R310: the host is answered the reset state exactly when the admission check passes. -/
theorem bootWith_eq_next_iff {c : Config} {p : List Record} {s : State} :
    bootWith c p = .next s ↔ admission c p = none ∧ State.resetWith c p = s := by
  unfold bootWith
  cases admission c p <;> simp

theorem resetWith_shaped (c : Config) (p : List Record) : (State.resetWith c p).Shaped where
  gprSize := List.length_replicate
  fprSize := List.length_replicate
  unitsSize := List.length_replicate
  linesSize := List.length_replicate

@[simp] theorem reg_resetWith (c : Config) (p : List Record) (r : Reg) :
    (State.resetWith c p).reg r = Register.reset := by
  obtain ⟨file, index⟩ := r
  cases file
  case gpr => exact List.getElem?_getD_replicate_default_eq ..
  case fpr => exact List.getElem?_getD_replicate_default_eq ..

@[simp] theorem unit_resetWith (c : Config) (p : List Record) (t : Nat) :
    (State.resetWith c p).unit t = FunctionalUnit.reset := by
  cases t with
  | zero => rfl
  | succ n => exact List.getElem?_getD_replicate_default_eq ..

@[simp] theorem lineAt_resetWith (c : Config) (p : List Record) (i : Nat) :
    lineAt c (State.resetWith c p).lines i = CacheLine.reset c :=
  List.getElem?_getD_replicate_default_eq ..

@[simp] theorem isSet_reset (a : Anomaly) : Warnings.reset.isSet a = false := by
  cases a <;> rfl

/-! ### Phases with nothing to do -/

/-- R162 to R168: with no bus event to clear, no unit to free and no result to service, phase W is the
identity. -/
theorem writeback_of_nothing {s : State} (hbus : s.busEvent = none) (hresult : s.qResult = [])
    (hclear : s.qClear = []) : s.writeback = s := by
  have hquiet : s.clearBus = s := by
    unfold State.clearBus
    rw [← hbus]
  have hfreed : s.freeCleared = s := by
    unfold State.freeCleared
    rw [hclear, List.foldl_nil, ← hclear]
  unfold State.writeback State.serviceOldest
  rw [hquiet, hfreed, hresult]

/-- R169 to R178: with no unit to classify, to wake or to count down, phase E is the identity. -/
theorem execute_of_nothing {s : State} (htbe : s.qTbe = []) (hwait : s.qWait = [])
    (hexec : s.qExec = []) : s.execute = s := by
  have hclassified : s.classify = s := by
    unfold State.classify
    rw [htbe, List.filter_nil, List.append_nil, ← htbe]
  have hwoken : s.wake = s := by
    unfold State.wake
    rw [hwait, List.filter_nil, ← hwait]
  have hready : s.readyIssued ++ s.readyWaiters = [] := by
    rw [State.readyIssued, State.readyWaiters, htbe, hwait, List.filter_nil, List.append_nil]
  have hdispatched : s.dispatched = s := by
    unfold State.dispatched State.dispatchAll
    rw [hclassified, hwoken, hready, List.foldl_nil]
  unfold State.execute State.countDownAll
  rw [hdispatched, hexec, List.foldl_nil]

/-- R141, R160: a step that fetches a record is that record's meaning, with the cycle counted. -/
theorem step_of_fetch_some {s : State} {w : Record} (hadm : s.admission = none)
    (hf : s.writeback.execute.fetch s.branchStall = some w) :
    step s = mapNext State.endCycle (exec (decode w) s.writeback.execute) := by
  unfold step State.issuePhase
  rw [hadm, hf]
  rfl

/-! ### A fresh state -/

/-- R310, R312: the preload writes register values and memory bytes only, so the pc, the stall bit and the bus
are as the reset left them. -/
theorem State.Fresh.frontEnd {s : State} (h : s.Fresh) :
    s.pc = 0 ∧ s.branchStall = false ∧ s.busEvent = none :=
  ⟨congrArg State.pc h.restReset, congrArg State.branchStall h.restReset,
    congrArg State.busEvent h.restReset⟩

theorem State.Fresh.queues {s : State} (h : s.Fresh) :
    s.qTbe = [] ∧ s.qWait = [] ∧ s.qExec = [] ∧ s.qResult = [] ∧ s.qClear = [] :=
  ⟨congrArg State.qTbe h.restReset, congrArg State.qWait h.restReset,
    congrArg State.qExec h.restReset, congrArg State.qResult h.restReset,
    congrArg State.qClear h.restReset⟩

theorem State.Fresh.writeback_execute {s : State} (h : s.Fresh) : s.writeback.execute = s := by
  obtain ⟨-, -, hbus⟩ := h.frontEnd
  obtain ⟨htbe, hwait, hexec, hresult, hclear⟩ := h.queues
  rw [writeback_of_nothing hbus hresult hclear, execute_of_nothing htbe hwait hexec]

end Sys2Proof.Machine

namespace Sys2Proof
open Machine

/-- Settles O59: the boot is admitted, and each accessor answers its reset value. -/
theorem resetValues : Obligations.ResetValues := by
  intro c p hadm
  refine ⟨State.resetWith c p, bootWith_eq_next_iff.mpr ⟨hadm, rfl⟩, rfl, rfl, resetWith_shaped c p,
    reg_resetWith c p, fun t => ?_, rfl, rfl, rfl, rfl, rfl, rfl, rfl, isSet_reset, rfl, fun i => ?_,
    Memory.read_nil, rfl⟩
  · rw [unit_resetWith]
    rfl
  · rw [lineAt_resetWith]
    exact ⟨rfl, rfl, rfl⟩

/-- Settles O60: phases W and E leave the fresh state as it is, so the Issue phase fetches at pc 0. -/
theorem executionStartsAtIndexZero : Obligations.ExecutionStartsAtIndexZero := by
  intro s hfresh
  obtain ⟨hpc, hrunning, -⟩ := hfresh.frontEnd
  have hphases : s.writeback.execute = s := hfresh.writeback_execute
  refine ⟨hpc, hphases, fun w hw => ?_⟩
  have hfetch : s.writeback.execute.fetch s.branchStall = some w := by
    rw [hphases, hrunning, fetch_running, hpc]
    exact hw
  rw [step_of_fetch_some hfresh.admitted hfetch, hphases]

end Sys2Proof
end

section
/-! PROOFS. The record word (30_encoding.md R100 to R104): the decoder reads each field of the layout where R100 puts
it, so it undoes the encoder, which writes that layout with the reserved pairs 0. -/

namespace Sys2Proof

/-- R100: the layout of a record word, the reserved pairs `x`, `y`, `z` included. -/
def layout (op : BitVec 8) (d a b : BitVec 6) (x y z : BitVec 2) (imm : BitVec 16)
    (target : InstrIndex) : Record :=
  target ++ imm ++ z ++ b ++ y ++ a ++ x ++ d ++ op

theorem recordWord_eq_layout (op : Opcode) (d a b : BitVec 6) (imm : BitVec 16)
    (target : InstrIndex) :
    recordWord op d a b imm target = layout (byteOfOpcode op) d a b 0 0 0 imm target := rfl

/-! ### The fields of the layout -/

section
variable (op : BitVec 8) (d a b : BitVec 6) (x y z : BitVec 2) (imm : BitVec 16)
  (target : InstrIndex)

theorem extract_opcode :
    BitVec.extractLsb' 0 8 (target ++ imm ++ z ++ b ++ y ++ a ++ x ++ d ++ op) = op := by
  rw [BitVec.extractLsb'_append_eq_of_add_le (by decide), BitVec.extractLsb'_eq_self]

theorem extract_dest :
    BitVec.extractLsb' 8 6 (target ++ imm ++ z ++ b ++ y ++ a ++ x ++ d ++ op) = d := by
  simp +decide only [BitVec.extractLsb'_append_eq_of_le, BitVec.extractLsb'_append_eq_of_add_le]
  exact BitVec.extractLsb'_eq_self

theorem extract_src1 :
    BitVec.extractLsb' 16 6 (target ++ imm ++ z ++ b ++ y ++ a ++ x ++ d ++ op) = a := by
  simp +decide only [BitVec.extractLsb'_append_eq_of_le, BitVec.extractLsb'_append_eq_of_add_le]
  exact BitVec.extractLsb'_eq_self

theorem extract_src2 :
    BitVec.extractLsb' 24 6 (target ++ imm ++ z ++ b ++ y ++ a ++ x ++ d ++ op) = b := by
  simp +decide only [BitVec.extractLsb'_append_eq_of_le, BitVec.extractLsb'_append_eq_of_add_le]
  exact BitVec.extractLsb'_eq_self

theorem extract_imm :
    BitVec.extractLsb' 32 16 (target ++ imm ++ z ++ b ++ y ++ a ++ x ++ d ++ op) = imm := by
  simp +decide only [BitVec.extractLsb'_append_eq_of_le, BitVec.extractLsb'_append_eq_of_add_le]
  exact BitVec.extractLsb'_eq_self

theorem extract_target :
    BitVec.extractLsb' 48 16 (target ++ imm ++ z ++ b ++ y ++ a ++ x ++ d ++ op) = target := by
  simp +decide only [BitVec.extractLsb'_append_eq_of_le]
  exact BitVec.extractLsb'_eq_self

/-- R104: the row of an opcode, from the register names and fields of the record. -/
def instrOfFields (op : Opcode) (d a b : Reg) (imm : BitVec 16) (target : InstrIndex) : Instr :=
  match op with
  | .unknown => .unknown
  | .dadd => .dadd d a b imm target
  | .dsub => .dsub d a b imm target
  | .daddi => .daddi d a imm target
  | .dsubi => .dsubi d a imm target
  | .dmul => .dmul d a b imm target
  | .ddiv => .ddiv d a b imm target
  | .addD => .addD d a b imm target
  | .subD => .subD d a b imm target
  | .mulD => .mulD d a b imm target
  | .divD => .divD d a b imm target
  | .lw => .lw d a imm target
  | .ld => .ld d a imm target
  | .sw => .sw a b imm target
  | .sd => .sd a b imm target
  | .beq => .beq a b imm target
  | .bne => .bne a b imm target

theorem decode_eq_instrOfFields (w : Record) :
    decode w = instrOfFields (opcodeOfByte (w.extractLsb' 0 8)) (destField w) (src1Field w)
      (src2Field w) (immField w) (targetField w) := by
  unfold decode instrOfFields
  cases opcodeOfByte (w.extractLsb' 0 8) <;> rfl

/-- R104: what the decoder makes of a record word laid out by R100. -/
theorem decode_layout : decode (layout op d a b x y z imm target) =
    instrOfFields (opcodeOfByte op) (regOfField d) (regOfField a) (regOfField b) imm target := by
  have hop : (layout op d a b x y z imm target).extractLsb' 0 8 = op := extract_opcode ..
  have hdest : destField (layout op d a b x y z imm target) = regOfField d :=
    congrArg regOfField (extract_dest ..)
  have hsrc1 : src1Field (layout op d a b x y z imm target) = regOfField a :=
    congrArg regOfField (extract_src1 ..)
  have hsrc2 : src2Field (layout op d a b x y z imm target) = regOfField b :=
    congrArg regOfField (extract_src2 ..)
  have himm : immField (layout op d a b x y z imm target) = imm := extract_imm ..
  have htarget : targetField (layout op d a b x y z imm target) = target := extract_target ..
  rw [decode_eq_instrOfFields, hop, hdest, hsrc1, hsrc2, himm, htarget]

end

/-! ### Decoding what the encoder writes -/

theorem opcodeOfByte_byteOfOpcode (op : Opcode) : opcodeOfByte (byteOfOpcode op) = op := by
  cases op <;> rfl

/-- R101: a register field names the register it was written from. -/
theorem regOfField_fieldOfReg (r : Reg) : regOfField (fieldOfReg r) = r := by
  obtain ⟨file, index⟩ := r
  have hindex : ∀ bit : BitVec 1, BitVec.extractLsb' 0 5 (bit ++ index) = index := fun bit =>
    (BitVec.extractLsb'_append_eq_of_add_le (by decide)).trans BitVec.extractLsb'_eq_self
  have hfile : ∀ bit : BitVec 1, (bit ++ index).getLsbD 5 = bit.getLsbD 0 := fun bit =>
    BitVec.getLsbD_append
  cases file
  case gpr => exact congrArg₂ Reg.mk (if_neg (ne_true_of_eq_false (hfile 0))) (hindex 0)
  case fpr => exact congrArg₂ Reg.mk (if_pos (hfile 1)) (hindex 1)

theorem decode_recordWord (op : Opcode) (d a b : BitVec 6) (imm : BitVec 16)
    (target : InstrIndex) : decode (recordWord op d a b imm target) =
      instrOfFields op (regOfField d) (regOfField a) (regOfField b) imm target := by
  rw [recordWord_eq_layout, decode_layout, opcodeOfByte_byteOfOpcode]

/-! ### The reserved pairs -/

/-- R100: the reserved pairs alone, all ones, stand in the layout at the bits of the mask. -/
theorem recordWord_reserved (op : Opcode) (d a b : BitVec 6) (imm : BitVec 16)
    (target : InstrIndex) :
    recordWord op d a b imm target &&& 0x00000000C0C0C000#64 = 0#64 := by
  have hmask : 0x00000000C0C0C000#64 = layout 0 0 0 0 3 3 3 0 0 := by decide
  rw [recordWord_eq_layout, hmask]
  have hpairs : (target ++ imm ++ 0#2 ++ b ++ 0#2 ++ a ++ 0#2 ++ d ++ byteOfOpcode op) &&&
      (0#16 ++ 0#16 ++ 3#2 ++ 0#6 ++ 3#2 ++ 0#6 ++ 3#2 ++ 0#6 ++ 0#8) = 0#_ := by
    simp only [BitVec.and_append, BitVec.and_zero, BitVec.zero_and, BitVec.zero_append_zero]
  exact hpairs

/-- The encoder writes a record word, whatever the instruction. -/
theorem encode_eq_recordWord (i : Instr) :
    ∃ d a b imm target, encode i = recordWord i.opcode d a b imm target := by
  cases i <;> exact ⟨_, _, _, _, _, rfl⟩

/-- Settles O1: the encoder writes R100's layout, and each field the instruction uses is read back. -/
theorem decodeOfEncode : Obligations.DecodeOfEncode := by
  intro i
  cases i <;> simp only [encode, decode_recordWord, regOfField_fieldOfReg, instrOfFields]

/-- Settles O2: the layout of R100 row by row; the encoder writes it with the reserved pairs 0. -/
theorem decodeReadsEveryField : Obligations.DecodeReadsEveryField := by
  refine ⟨fun d a b x y z imm target => ?_, fun i => ?_⟩
  · have hreg : ∀ f : BitVec 6,
        (⟨if f.getLsbD 5 then .fpr else .gpr, f.setWidth 5⟩ : Reg) = regOfField f := fun f => by
      rw [regOfField, BitVec.setWidth_eq_extractLsb' (by decide)]
    have hword : ∀ op, decode (target ++ imm ++ z ++ b ++ y ++ a ++ x ++ d ++ op) =
        instrOfFields (opcodeOfByte op) (regOfField d) (regOfField a) (regOfField b) imm target :=
      fun op => decode_layout op d a b x y z imm target
    simp only [hreg, hword]
    exact ⟨rfl, rfl, rfl, rfl, rfl, rfl, rfl, rfl, rfl, rfl, rfl, rfl, rfl, rfl, rfl, rfl⟩
  · obtain ⟨d, a, b, imm, target, he⟩ := encode_eq_recordWord i
    rw [he]
    exact recordWord_reserved _ d a b imm target

/-- Settles O4: R116's seven words, run through the decoder. -/
theorem sampleRecordsDecode : Obligations.SampleRecordsDecode := by
  unfold Obligations.SampleRecordsDecode
  decide

end Sys2Proof
end

section
/-! PROOFS. The Issue phase (40_issue_and_rename.md R135, R141 to R149): the unit classes share out the tags, an
instruction whose class has a free unit is issued as its request says, and it is refused exactly on an absent
register. -/

namespace Sys2Proof.Machine

/-! ### The unit classes -/

/-- R25: each class's tags follow those of the class before it, from 1 to `N_UNITS`. -/
theorem exists_class_of_tag {c : Config} {t : Nat} (h0 : 1 ≤ t) (ht : t ≤ unitCount c) :
    ∃ k, t ∈ classTags c k := by
  simp only [mem_classTags]
  unfold unitCount at ht
  by_cases h1 : t ≤ classBase c .intMul
  · exact ⟨.intAdd, h0, by simp only [classBase, classCount] at *; omega⟩
  by_cases h2 : t ≤ classBase c .fpAdd
  · exact ⟨.intMul, by omega, h2⟩
  by_cases h3 : t ≤ classBase c .fpMul
  · exact ⟨.fpAdd, by omega, h3⟩
  by_cases h4 : t ≤ classBase c .load
  · exact ⟨.fpMul, by omega, h4⟩
  by_cases h5 : t ≤ classBase c .store
  · exact ⟨.load, by omega, h5⟩
  · exact ⟨.store, by omega, ht⟩

/-- R25: no tag belongs to two classes. -/
theorem class_unique {c : Config} {t : Nat} {k k' : UnitClass} (h : t ∈ classTags c k)
    (h' : t ∈ classTags c k') : k = k' := by
  rw [mem_classTags] at h h'
  cases k <;> cases k' <;> first | rfl | (simp only [classBase, classCount] at h h'; omega)

/-! ### A successful issue -/

/-- A tag that the allocator answers names a unit of the pool. -/
theorem allocate_range {s : State} (hs : s.Shaped) {k : UnitClass} {t : Nat}
    (h : s.allocate k = some t) : t ≠ 0 ∧ t ≤ s.units.length := by
  rw [hs.unitsSize]
  exact classTags_range (allocate_some h).1

/-- R143 to R148: with its registers present and a free unit of its class, an instruction issues into that
unit, as its request says. -/
theorem exec_issuedAs {s : State} {i : Instr} {q : IssueRequest} {t : Nat} (hs : s.Shaped)
    (hq : requestOf i = some q) (hw : i.wellFormed s.cfg = true) (ha : s.allocate q.cls = some t) :
    ∃ s', exec i s = .next s' ∧ IssuedAs s s' t q.op q.dest (s.slotOf q.dest t q.j)
      (s.slotOf q.dest t q.k) (s.slotOf q.dest t q.data) q.imm q.target := by
  obtain ⟨h0, hpool⟩ := allocate_range hs ha
  obtain ⟨-, -, hdest, -⟩ := requestOf_spec hq
  refine ⟨s.issuedInto q t, ?_, issuedInto_issuedAs h0 hpool fun d hd => ?_⟩
  · rw [exec_of_request hq]
    exact issue_of_allocate ((request_regs hq).trans hw) ha
  · exact holds_dest hs hw (hdest ▸ hd)

theorem slotFor_none (s : State) (t : Nat) (r : Reg) : s.slotFor none t r = s.capture r :=
  if_neg nofun

/-- A successful issue changes the unit, the register files, `Q_TBE`, the pc and the stall bit only. -/
theorem issuedInto_frame (s : State) (q : IssueRequest) (t : Nat) : s.issuedInto q t = { s with
    gpr := (s.issuedInto q t).gpr, fpr := (s.issuedInto q t).fpr
    units := (s.issuedInto q t).units, qTbe := s.qTbe ++ [t], pc := s.pc + 1
    branchStall := s.branchStall || isBranch q.op } := by
  unfold State.issuedInto State.enqueueIssued State.captureOperands
  rw [claimUnit_frame]
  cases t <;> rfl

/-! ### When a meaning is refused -/

theorem exec_eq_refused_iff {i : Instr} {s : State} {r : Refusal} :
    exec i s = .refused r ↔ r = .noSuchRegister ∧ i.wellFormed s.cfg = false := by
  cases hq : requestOf i with
  | none =>
    cases i <;> simp only [requestOf, reduceCtorEq] at hq
    simp [exec_unknown, Instr.wellFormed, Instr.dest, Instr.sources]
  | some q =>
    rw [exec_of_request hq, ← request_regs hq]
    rcases issue_cases s q with ⟨hr, hi⟩ | ⟨hr, -, hi⟩ | ⟨t, hr, -, hi⟩ <;> rw [hi, hr] <;>
      simp [eq_comm]

/-- R280: a meaning ends in no fault, so an instruction whose registers exist answers a next state. -/
theorem exec_answers_iff {i : Instr} {s : State} :
    (∃ s', exec i s = .next s') ↔ i.wellFormed s.cfg = true := by
  cases he : exec i s with
  | next s' =>
    have hnot := mt exec_eq_refused_iff.mpr (a := Refusal.noSuchRegister = .noSuchRegister ∧
      i.wellFormed s.cfg = false) (by simp [he])
    simpa using hnot
  | fault r => cases r
  | refused r =>
    obtain ⟨-, hw⟩ := exec_eq_refused_iff.mp he
    simp [hw]

end Sys2Proof.Machine

namespace Sys2Proof
open Machine

/-- Settles O5: the classes cover `1 .. N_UNITS` without overlap. -/
theorem unitClassesPartitionTags : Obligations.UnitClassesPartitionTags := by
  refine fun c t => ⟨⟨fun h => exists_class_of_tag h.1 h.2, ?_⟩, fun k k' => class_unique⟩
  rintro ⟨k, hk⟩
  obtain ⟨h0, ht⟩ := classTags_range hk
  exact ⟨Nat.one_le_iff_ne_zero.mpr h0, ht⟩

/-- Settles O7: the requests of DADD and DSUB. -/
theorem intAddIssues : Obligations.IntAddIssues := by
  intro s d a b imm target t hs hd ha hb hfree
  have hw : (Instr.dadd d a b imm target).wellFormed s.cfg = true := by
    simp [Instr.wellFormed, Instr.dest, Instr.sources, hd, ha, hb]
  exact ⟨exec_issuedAs hs rfl hw hfree, exec_issuedAs (i := .dsub ..) hs rfl hw hfree⟩

/-- Settles O8: the requests of DADDI and DSUBI, whose slot `k` is a value. -/
theorem immediateArithmeticIssues : Obligations.ImmediateArithmeticIssues := by
  intro s d a imm target t hs hd ha hfree
  have hw : (Instr.daddi d a imm target).wellFormed s.cfg = true := by
    simp [Instr.wellFormed, Instr.dest, Instr.sources, hd, ha]
  exact ⟨exec_issuedAs hs rfl hw hfree, exec_issuedAs (i := .dsubi ..) hs rfl hw hfree⟩

/-- Settles O9: the requests of DMUL and DDIV. -/
theorem intMulIssues : Obligations.IntMulIssues := by
  intro s d a b imm target t hs hd ha hb hfree
  have hw : (Instr.dmul d a b imm target).wellFormed s.cfg = true := by
    simp [Instr.wellFormed, Instr.dest, Instr.sources, hd, ha, hb]
  exact ⟨exec_issuedAs hs rfl hw hfree, exec_issuedAs (i := .ddiv ..) hs rfl hw hfree⟩

/-- Settles O10: the requests of the FP instructions, in their two classes. -/
theorem fpArithmeticIssues : Obligations.FpArithmeticIssues := by
  intro s d a b imm target t hs hd ha hb
  have hw : (Instr.addD d a b imm target).wellFormed s.cfg = true := by
    simp [Instr.wellFormed, Instr.dest, Instr.sources, hd, ha, hb]
  exact ⟨fun hfree => ⟨exec_issuedAs hs rfl hw hfree, exec_issuedAs (i := .subD ..) hs rfl hw hfree⟩,
    fun hfree => ⟨exec_issuedAs (i := .mulD ..) hs rfl hw hfree,
      exec_issuedAs (i := .divD ..) hs rfl hw hfree⟩⟩

/-- Settles O11: the requests of LW and LD, whose slot `j` is the base. -/
theorem loadIssues : Obligations.LoadIssues := by
  intro s d base imm target t hs hd hbase hfree
  have hw : (Instr.lw d base imm target).wellFormed s.cfg = true := by
    simp [Instr.wellFormed, Instr.dest, Instr.sources, hd, hbase]
  exact ⟨exec_issuedAs hs rfl hw hfree, exec_issuedAs (i := .ld ..) hs rfl hw hfree⟩

/-- Settles O12: the requests of SW and SD, which rename nothing. -/
theorem storeIssues : Obligations.StoreIssues := by
  intro s base data imm target t hs hbase hdata hfree
  have hw : (Instr.sw base data imm target).wellFormed s.cfg = true := by
    simp [Instr.wellFormed, Instr.dest, Instr.sources, hbase, hdata]
  rw [← slotFor_none s t base, ← slotFor_none s t data]
  exact ⟨exec_issuedAs hs rfl hw hfree, exec_issuedAs (i := .sd ..) hs rfl hw hfree⟩

/-- Settles O13: the requests of BEQ and BNE; the stall bit is `IssuedAs`'s, for a branch. -/
theorem branchIssues : Obligations.BranchIssues := by
  intro s a b imm target t hs ha hb hfree
  have hw : (Instr.beq a b imm target).wellFormed s.cfg = true := by
    simp [Instr.wellFormed, Instr.dest, Instr.sources, ha, hb]
  rw [← slotFor_none s t a, ← slotFor_none s t b]
  obtain ⟨s1, he1, hi1⟩ := exec_issuedAs hs rfl hw hfree
  obtain ⟨s2, he2, hi2⟩ := exec_issuedAs (i := .bne a b imm target) hs rfl hw hfree
  exact ⟨⟨s1, he1, hi1.stall.trans (Bool.or_true _), hi1⟩,
    ⟨s2, he2, hi2.stall.trans (Bool.or_true _), hi2⟩⟩

/-- Settles O17: the register check is the only thing an issue refuses on. -/
theorem onlyAbsentRegistersAreRefusedAtIssue : Obligations.OnlyAbsentRegistersAreRefusedAtIssue :=
  fun _ _ => ⟨fun _ => exec_eq_refused_iff, exec_answers_iff⟩

end Sys2Proof
end

section
/-! PROOFS. One cycle (41_scheduler_and_cdb.md R160): what a step answers, and that it writes neither of its
inputs. -/

namespace Sys2Proof.Machine

/-! ### What the phases leave of the cycle count -/

@[simp] theorem execute_cycle (s : State) : s.execute.cycle = s.cycle := by
  obtain ⟨-, -, -, -, -, -, -, -, -, hcycle, -⟩ :=
    countDownAll_frame s.dispatched.qExec s.dispatched
  refine hcycle.trans ?_
  rw [dispatched_frame]
  rfl

theorem exec_cycle {s s' : State} {i : Instr} (h : exec i s = .next s') : s'.cycle = s.cycle := by
  rcases exec_next_cases h with rfl | rfl | ⟨q, t, rfl⟩
  · rfl
  · rfl
  · rw [issuedInto_frame]

/-! ### The record fetched -/

theorem phases_cfg (s : State) : s.writeback.execute.cfg = s.cfg :=
  (execute_frame s.writeback).1.trans (writeback_frame s).1

theorem phases_imem (s : State) : s.writeback.execute.imem = s.imem :=
  (execute_frame s.writeback).2.1.trans (writeback_frame s).2.1

/-- R140: a record is fetched only by a running front end, and it is one of the program. -/
theorem fetch_eq_some_iff {s : State} {stalled : Bool} {w : Record} :
    s.fetch stalled = some w ↔ stalled = false ∧ s.imem[s.pc.toNat]? = some w := by
  cases stalled with
  | true => simp [fetch_stalled]
  | false => simp [fetch_running]

/-- R107: every record of an admitted program is well-formed. -/
theorem wellFormed_of_admission {s : State} (hadm : s.admission = none) {w : Record}
    (hw : w ∈ s.imem) : (decode w).wellFormed s.cfg = true := by
  unfold State.admission admission at hadm
  split at hadm
  · simp at hadm
  split at hadm
  · simp at hadm
  split at hadm
  · simp at hadm
  rename_i hprog
  simp only [Bool.not_eq_true', Bool.not_eq_false] at hprog
  exact List.all_eq_true.mp hprog w hw

/-- R7: an admitted state has an admissible configuration. -/
theorem configAdmissible_of_admission {s : State} (hadm : s.admission = none) :
    configAdmissible s.cfg = true := by
  unfold State.admission admission at hadm
  by_contra hc
  rw [if_pos (by simpa using hc)] at hadm
  cases hadm

/-- R29: the program of an admitted state has at most 65535 records. -/
theorem length_of_admission {s : State} (hadm : s.admission = none) : s.imem.length ≤ 65535 := by
  unfold State.admission admission at hadm
  split at hadm
  · simp at hadm
  split at hadm
  · simp at hadm
  rename_i hfits
  simp only [Bool.not_eq_true', Bool.not_eq_false] at hfits
  exact programFits_iff.mp hfits

/-! ### What a step answers -/

theorem step_of_admission {s : State} {r : Refusal} (h : s.admission = some r) :
    step s = .refused r := by
  unfold step
  rw [h]

/-- R280: every step of an admitted machine answers a next state. -/
theorem step_answers {s : State} (hadm : s.admission = none) : ∃ s', step s = .next s' := by
  cases hf : s.writeback.execute.fetch s.branchStall with
  | none => exact ⟨_, step_of_fetch_none hadm hf⟩
  | some w =>
    obtain ⟨-, hget⟩ := fetch_eq_some_iff.mp hf
    rw [phases_imem] at hget
    have hw : (decode w).wellFormed s.writeback.execute.cfg = true := by
      rw [phases_cfg]
      exact wellFormed_of_admission hadm (List.mem_of_getElem? hget)
    obtain ⟨s1, he⟩ := exec_answers_iff.mpr hw
    refine ⟨s1.endCycle, ?_⟩
    rw [step_of_fetch_some hadm hf, he]
    rfl

/-- R20, R35: a step keeps the configuration and the program and counts one cycle. -/
theorem step_inputs {s s' : State} (h : step s = .next s') :
    s'.cfg = s.cfg ∧ s'.imem = s.imem ∧ s'.cycle = s.cycle + 1 := by
  obtain ⟨-, -, -, -, -, -, -, hcycle⟩ := writeback_frame s
  have hphases : s.writeback.execute.cycle = s.cycle := (execute_cycle _).trans hcycle
  obtain ⟨-, ⟨-, rfl⟩ | ⟨w, s1, -, he, rfl⟩⟩ := step_next h
  · exact ⟨phases_cfg s, phases_imem s, congrArg (· + 1) hphases⟩
  · obtain ⟨hcfg, himem, -⟩ := exec_frame he
    exact ⟨hcfg.trans (phases_cfg s), himem.trans (phases_imem s),
      congrArg (· + 1) ((exec_cycle he).trans hphases)⟩

end Sys2Proof.Machine

namespace Sys2Proof
open Machine

/-- Settles O18: the record at the pc is fetched. -/
theorem stepRunsDecodedInstruction : Obligations.StepRunsDecodedInstruction := by
  rintro s w i hadm hrunning hget rfl
  refine step_of_fetch_some hadm (fetch_eq_some_iff.mpr ⟨hrunning, ?_⟩)
  rwa [phases_imem]

/-- Settles O20: the admission check decides. -/
theorem admittedStepAnswers : Obligations.AdmittedStepAnswers := by
  intro s
  cases hadm : s.admission with
  | none =>
    obtain ⟨s', hs⟩ := step_answers hadm
    simp [hs]
  | some r => simp [step_of_admission hadm]

/-- Settles O21, by the frames of the phases and of `exec`. -/
theorem stepKeepsItsInputs : Obligations.StepKeepsItsInputs := fun _ _ => step_inputs

end Sys2Proof
end

section
/-! PROOFS. What an arithmetic unit computes (42_int_arith.md R201 to R206, 43_fp_arith.md R220 to R224) and what a
branch does (45_branch.md R262 to R264), at completion with both operands resolved. -/

namespace Sys2Proof.Machine

/-! ### The completion of a unit with resolved operands -/

/-- R175: an arithmetic unit with its operands takes its result and raises `WARN[4]` if it must. -/
theorem completeArith_of_resolved {s : State} {t : Nat} {a b : Word}
    (hj : (s.unit t).j = .resolved a) (hk : (s.unit t).k = .resolved b)
    (warns : Word → Word → Bool) (f : Word → Word → Word) : s.completeArith t warns f =
      (if warns a b then s.warnOn .arithmetic else s).setResult t (f a b) := by
  unfold State.completeArith
  rw [hj, hk]

/-- R175: what the completion of any arithmetic opcode does. -/
theorem complete_arithmetic {s : State} {t : Nat} {a b v : Word}
    (hj : (s.unit t).j = .resolved a) (hk : (s.unit t).k = .resolved b)
    (hv : arithmeticResult s.cfg (s.unit t).op a b = some v) : s.complete t =
      (if arithmeticWarns s.cfg (s.unit t).op a b then s.warnOn .arithmetic else s).setResult t v := by
  unfold State.complete
  cases hop : (s.unit t).op <;> rw [hop] at hv <;>
    simp only [arithmeticResult, Option.some.injEq, reduceCtorEq] at hv <;> subst hv <;>
    exact completeArith_of_resolved hj hk _ _

section
variable {s : State} {t : Nat} {op : Opcode} {a b v : Word} (hj : (s.unit t).j = .resolved a)
  (hk : (s.unit t).k = .resolved b) (hop : (s.unit t).op = op)
include hj hk hop

/-- R175 for an opcode that raises no flag on its operands. -/
theorem complete_arithmetic_quiet (hv : arithmeticResult s.cfg op a b = some v)
    (hw : arithmeticWarns s.cfg op a b = false) : s.complete t = s.setResult t v := by
  subst hop
  rw [complete_arithmetic hj hk hv, if_neg (ne_true_of_eq_false hw)]

/-- R175 for an opcode that raises `WARN[4]` on its operands. -/
theorem complete_arithmetic_warned (hv : arithmeticResult s.cfg op a b = some v)
    (hw : arithmeticWarns s.cfg op a b = true) :
    s.complete t = (s.warnOn .arithmetic).setResult t v := by
  subst hop
  rw [complete_arithmetic hj hk hv, if_pos hw]

end

/-- R262: a branch with its operands releases the front end, and sets the pc if taken. -/
theorem completeBranch_of_resolved {s : State} {t : Nat} {a b : Word}
    (hj : (s.unit t).j = .resolved a) (hk : (s.unit t).k = .resolved b)
    (taken : Word → Word → Bool) : s.completeBranch t taken =
      { s with pc := if taken a b then (s.unit t).target else s.pc, branchStall := false } := by
  unfold State.completeBranch
  rw [hj, hk]

theorem complete_beq {s : State} {t : Nat} {a b : Word} (hj : (s.unit t).j = .resolved a)
    (hk : (s.unit t).k = .resolved b) (hop : (s.unit t).op = .beq) : s.complete t =
      { s with pc := if a = b then (s.unit t).target else s.pc, branchStall := false } := by
  unfold State.complete
  rw [hop]
  exact (completeBranch_of_resolved hj hk takenBeq).trans (by simp only [takenBeq, beq_iff_eq])

theorem complete_bne {s : State} {t : Nat} {a b : Word} (hj : (s.unit t).j = .resolved a)
    (hk : (s.unit t).k = .resolved b) (hop : (s.unit t).op = .bne) : s.complete t =
      { s with pc := if a = b then s.pc else (s.unit t).target, branchStall := false } := by
  unfold State.complete
  rw [hop]
  refine (completeBranch_of_resolved hj hk takenBne).trans ?_
  simp only [takenBne, bne_iff_ne, ne_eq, ite_not]

/-! ### Results modulo 2^64 -/

theorem ofInt_sub_toInt (a b : Word) : BitVec.ofInt 64 (a.toInt - b.toInt) = a - b := by
  rw [Int.sub_eq_add_neg, BitVec.ofInt_add, BitVec.ofInt_neg, BitVec.ofInt_toInt,
    BitVec.ofInt_toInt, BitVec.sub_eq_add_neg]

theorem ofInt_mul_toInt (a b : Word) : BitVec.ofInt 64 (a.toInt * b.toInt) = a * b := by
  rw [BitVec.ofInt_mul, BitVec.ofInt_toInt, BitVec.ofInt_toInt]

theorem ofNat_add_toNat (a b : Word) : BitVec.ofNat 64 (a.toNat + b.toNat) = a + b := by
  rw [BitVec.ofNat_add, BitVec.ofNat_toNat, BitVec.ofNat_toNat, BitVec.setWidth_eq,
    BitVec.setWidth_eq]

theorem ofNat_mul_toNat (a b : Word) : BitVec.ofNat 64 (a.toNat * b.toNat) = a * b := by
  rw [BitVec.ofNat_mul, BitVec.ofNat_toNat, BitVec.ofNat_toNat, BitVec.setWidth_eq,
    BitVec.setWidth_eq]

/-- R206: the quotient rounded toward zero, the overflowing one included. -/
theorem ofInt_tdiv_toInt (a b : Word) : BitVec.ofInt 64 (a.toInt.tdiv b.toInt) = a.sdiv b := by
  apply BitVec.eq_of_toInt_eq
  rw [BitVec.toInt_sdiv, BitVec.toInt_ofInt]

end Sys2Proof.Machine

namespace Sys2Proof
open Machine

/-- Settles O23: the results narrowed from Nat and Int are the word operations. -/
theorem integerResults : Obligations.IntegerResults := by
  intro s t a b hj hk
  rw [ofNat_add_toNat, ofInt_sub_toInt, ofNat_mul_toNat, ofInt_mul_toInt]
  exact ⟨fun hop => complete_arithmetic_quiet hj hk hop rfl rfl,
    fun hop => complete_arithmetic_quiet hj hk hop rfl rfl,
    fun hop => complete_arithmetic_quiet hj hk hop rfl rfl,
    fun hop => complete_arithmetic_quiet hj hk hop rfl rfl,
    fun hop => complete_arithmetic_quiet hj hk hop rfl rfl,
    fun hop => complete_arithmetic_quiet hj hk hop rfl rfl⟩

/-- Settles O24: the zero divisor, and `int_div` in its two choices. -/
theorem divideResult : Obligations.DivideResult := by
  intro s t a b hj hk hop
  refine ⟨fun hb => ?_, fun hb hdivision => ?_, fun hb hdivision => ?_⟩
  · exact complete_arithmetic_warned hj hk hop (congrArg some (if_pos hb)) (decide_eq_true hb)
  · rw [ofInt_tdiv_toInt]
    refine complete_arithmetic_quiet hj hk hop (congrArg some ?_) (decide_eq_false hb)
    rw [resultDdiv, if_neg hb, intDivide, hdivision]
  · refine complete_arithmetic_quiet hj hk hop (congrArg some ?_) (decide_eq_false hb)
    rw [resultDdiv, if_neg hb, intDivide, hdivision]

/-- Settles O25: the choice of `NUM` by the configuration, and one application of it per opcode. -/
theorem fpResults : Obligations.FpResults := by
  refine ⟨fun c a b => ⟨fun hnum => ?_, fun hnum => ?_⟩, fun s t a b hj hk => ?_⟩
  · simp only [numAdd, numSub, numMul, numDiv, numIsZero, hnum, and_self]
  · simp only [numAdd, numSub, numMul, numDiv, numIsZero, hnum, and_self]
  · refine ⟨fun hop => complete_arithmetic_quiet hj hk hop rfl rfl,
      fun hop => complete_arithmetic_quiet hj hk hop rfl rfl,
      fun hop => complete_arithmetic_quiet hj hk hop rfl rfl, fun hop hzero => ?_,
      fun hop hzero => ?_⟩
    · exact complete_arithmetic_quiet hj hk hop
        (congrArg some (if_neg (ne_true_of_eq_false hzero))) hzero
    · exact complete_arithmetic_warned hj hk hop (congrArg some (if_pos hzero)) hzero

/-- Settles O34: the completion of each branch. -/
theorem branchCompletes : Obligations.BranchCompletes :=
  fun _ _ _ _ hj hk => ⟨complete_beq hj hk, complete_bne hj hk⟩

end Sys2Proof
end

section
/-! PROOFS. The bytes of a value (20_memory.md R71, R72): a value is read back from the bytes a store writes of it,
in either byte order. -/

namespace Sys2Proof.Machine

theorem littleValue_append (l : List Byte) (b : Byte) :
    littleValue (l ++ [b]) = littleValue l + 256 ^ l.length * b.toNat := by
  induction l with
  | nil => simp [littleValue]
  | cons a l ih =>
    simp only [List.cons_append, littleValue, ih, List.length_cons]
    ring

/-- R71: the low bytes of a value, least significant first, are the value modulo their number. -/
theorem littleValue_bytes (v : Word) (n : Nat) :
    littleValue ((List.range n).map fun k => v.extractLsb' (8 * k) 8) = v.toNat % 2 ^ (8 * n) := by
  induction n with
  | zero => simp [littleValue, Nat.mod_one]
  | succ n ih =>
    have hpow : 256 ^ n = 2 ^ (8 * n) := by rw [Nat.pow_mul]
    rw [List.range_succ, List.map_append, List.map_singleton, littleValue_append, ih,
      List.length_map, List.length_range, hpow, BitVec.extractLsb'_toNat, Nat.shiftRight_eq_div_pow,
      Nat.mul_succ, Nat.pow_add, Nat.mod_mul]

/-- R71: the big-endian bytes are the little-endian ones in the opposite order. -/
theorem bytes_big_reverse (n : Nat) (v : Word) :
    (bytesOfValue .big n v).reverse = bytesOfValue .little n v := by
  apply List.ext_getElem
  · simp [bytesOfValue]
  · intro k hk _
    simp only [bytesOfValue, List.length_reverse, List.length_map, List.length_range] at hk
    simp only [bytesOfValue, List.getElem_reverse, List.getElem_map, List.getElem_range,
      List.length_map, List.length_range, byteOfValue]
    congr 2
    omega

/-- R71: the bytes that a store of `n` bytes writes stand for the value modulo `2^(8n)`. -/
theorem valueOfBytes_bytesOfValue (e : Endian) (n : Nat) (v : Word) :
    valueOfBytes e (bytesOfValue e n v) = v.toNat % 2 ^ (8 * n) := by
  cases e with
  | little => exact littleValue_bytes v n
  | big =>
    change littleValue (bytesOfValue .big n v).reverse = _
    rw [bytes_big_reverse]
    exact littleValue_bytes v n

@[simp] theorem length_bytesOfValue (e : Endian) (n : Nat) (v : Word) :
    (bytesOfValue e n v).length = n := by simp [bytesOfValue]

theorem getD_bytesOfValue {n k : Nat} (h : k < n) (e : Endian) (v : Word) :
    (bytesOfValue e n v).getD k 0 = byteOfValue e n k v := by
  simp [bytesOfValue, List.getD, h]

/-- R72: a value modulo `2^(8n)` extended from `n` bytes is its low `n` bytes, sign-extended. -/
theorem extendValue_mod (n : Nat) (v : Word) :
    extendValue n (v.toNat % 2 ^ (8 * n)) = (v.setWidth (8 * n)).signExtend 64 := by
  unfold extendValue
  congr 1
  apply BitVec.eq_of_toNat_eq
  simp

end Sys2Proof.Machine
end

section
/-! PROOFS. The lines of the cache under an access (20_memory.md R66 to R70, R75, R78, R80): each byte visits its own
line, and a visit makes its block resident and disturbs no other line. -/

namespace Sys2Proof.Machine

/-- R70, R75: what the access of one byte at `p` does to the lines, a read or a write: the block of `p` is
resident, any other block stays resident unless it stood in the line of `p`, no other line changes. -/
structure Visits (c : Config) (p : Nat) (lines lines' : List CacheLine) : Prop where
  length : lines'.length = lines.length
  hit : indexOf c p < lines.length → lookup c lines' p = true
  kept : ∀ q, (indexOf c q = indexOf c p → tagOf c q = tagOf c p) → lookup c lines q = true →
    lookup c lines' q = true
  otherLines : ∀ i, i ≠ indexOf c p → lineAt c lines' i = lineAt c lines i

/-- R78: the accesses of the `n` bytes from `p` on, each through its own line. -/
inductive VisitsFrom (c : Config) : Nat → Nat → List CacheLine → List CacheLine → Prop
  | nil (p : Nat) (lines : List CacheLine) : VisitsFrom c p 0 lines lines
  | cons {p n : Nat} {lines lines' lines'' : List CacheLine} (first : Visits c p lines lines')
    (others : VisitsFrom c (p + 1) n lines' lines'') : VisitsFrom c p (n + 1) lines lines''

theorem lookup_congr {c : Config} {lines lines' : List CacheLine} {q : Nat}
    (h : lineAt c lines' (indexOf c q) = lineAt c lines (indexOf c q)) :
    lookup c lines' q = lookup c lines q := by
  unfold lookup
  rw [h]

theorem ensureLine_visits (c : Config) (m : Memory) (lines : List CacheLine) (p : Nat) :
    Visits c p lines (ensureLine c m lines p) := by
  unfold ensureLine
  by_cases hp : lookup c lines p = true
  · rw [if_pos hp]
    exact ⟨rfl, fun _ => hp, fun _ _ hq => hq, fun _ _ => rfl⟩
  · rw [if_neg hp]
    have hother : ∀ i, i ≠ indexOf c p → lineAt c (fill c m lines p) i = lineAt c lines i :=
      fun i hi => lineAt_set_ne hi _
    refine ⟨List.length_set, fun hi => ?_, fun q hqp hq => ?_, hother⟩
    · rw [lookup_iff, fill, lineAt_set_same hi]
      exact ⟨rfl, rfl⟩
    · by_cases hi : indexOf c q = indexOf c p
      · rw [lookup_iff, hi, hqp hi, ← lookup_iff] at hq
        exact absurd hq hp
      · rwa [lookup_congr (hother _ hi)]

/-- A lookup reads the valid bit and the tag only. -/
theorem lookup_set_data (c : Config) (lines : List CacheLine) (i q : Nat) (data : List Byte) :
    lookup c (lines.set i { lineAt c lines i with data := data }) q = lookup c lines q := by
  by_cases hi : indexOf c q = i
  · subst hi
    by_cases hr : indexOf c q < lines.length
    · simp only [lookup, lineAt_set_same hr]
    · rw [List.set_eq_of_length_le (by omega)]
  · exact lookup_congr (lineAt_set_ne hi _)

/-- R75: after the block is resident, a write changes the data of its line only. -/
theorem writeByte_visits (c : Config) (m : Memory) (lines : List CacheLine) (p : Nat) (b : Byte) :
    Visits c p lines (writeByte c m lines p b).2 := by
  obtain ⟨hlen, hhit, hkept, hother⟩ := ensureLine_visits c (m.write p b) lines p
  exact ⟨List.length_set.trans hlen, fun hi => (lookup_set_data ..).trans (hhit hi),
    fun q hqp hq => (lookup_set_data ..).trans (hkept q hqp hq),
    fun i hi => (lineAt_set_ne hi _).trans (hother i hi)⟩

theorem readBytes_visits (c : Config) (m : Memory) (lines : List CacheLine) (p n : Nat) :
    VisitsFrom c p n lines (readBytes c m lines p n).2 := by
  induction n generalizing p lines with
  | zero => exact .nil p lines
  | succ n ih => exact .cons (ensureLine_visits c m lines p) (ih _ (p + 1))

theorem writeBytes_visits (c : Config) (m : Memory) (lines : List CacheLine) (p : Nat)
    (bs : List Byte) : VisitsFrom c p bs.length lines (writeBytes c m lines p bs).2 := by
  induction bs generalizing p m lines with
  | nil => exact .nil p lines
  | cons b bs ih => exact .cons (writeByte_visits c m lines p b) (ih _ _ (p + 1))

section
variable {c : Config} {p n : Nat} {lines lines' : List CacheLine}

/-- R68, R70: a line in which no byte of the access lies is as before. -/
theorem VisitsFrom.otherLines (h : VisitsFrom c p n lines lines') {i : Nat}
    (hi : ∀ k, k < n → indexOf c (p + k) ≠ i) : lineAt c lines' i = lineAt c lines i := by
  induction h with
  | nil => rfl
  | cons first others ih =>
    have hfirst := first.otherLines i (Ne.symm (hi 0 (by omega)))
    rw [← hfirst]
    refine ih fun k hk => ?_
    rw [Nat.add_assoc, Nat.add_comm 1]
    exact hi (k + 1) (by omega)

/-- R78: a resident block stays resident while no byte of the access drives it out of its line. -/
theorem VisitsFrom.kept (h : VisitsFrom c p n lines lines') {q : Nat}
    (hq : ∀ k, k < n → indexOf c q = indexOf c (p + k) → tagOf c q = tagOf c (p + k))
    (hres : lookup c lines q = true) : lookup c lines' q = true := by
  induction h with
  | nil => exact hres
  | cons first others ih =>
    refine ih (fun k hk => ?_) (first.kept q (hq 0 (by omega)) hres)
    rw [Nat.add_assoc, Nat.add_comm 1]
    exact hq (k + 1) (by omega)

/-- R75, R80: byte `k` of an access is resident afterwards, if no later byte drives its block out. -/
theorem VisitsFrom.resident (g : Geometry c) (h : VisitsFrom c p n lines lines')
    (hlen : lines.length = cacheLineCount c) {k : Nat} (hk : k < n)
    (hlater : ∀ l, k < l → l < n →
      indexOf c (p + k) = indexOf c (p + l) → tagOf c (p + k) = tagOf c (p + l)) :
    lookup c lines' (p + k) = true := by
  induction h generalizing k with
  | nil => omega
  | @cons p n lines lines' lines'' first others ih =>
    cases k with
    | zero =>
      refine others.kept (fun l hl => ?_) (first.hit (by rw [hlen]; exact indexOf_lt g p))
      rw [Nat.add_assoc, Nat.add_comm 1]
      exact hlater (l + 1) (by omega) (by omega)
    | succ k =>
      rw [← Nat.add_assoc, Nat.add_right_comm]
      refine ih (first.length.trans hlen) (by omega) fun l hl hln => ?_
      have := hlater (l + 1) (by omega) (by omega)
      rwa [← Nat.add_assoc, ← Nat.add_assoc, Nat.add_right_comm p k, Nat.add_right_comm p l] at this

end

/-- R63, R78: fewer blocks apart than there are lines, two addresses share a line only if they share the
block. -/
theorem tagOf_eq_of_near {c : Config} (g : Geometry c) {q d : Nat}
    (hd : q % c.blockSize + d < cacheLineCount c * c.blockSize)
    (hi : indexOf c q = indexOf c (q + d)) : tagOf c q = tagOf c (q + d) := by
  have hblock : (q + d) / c.blockSize =
      q / c.blockSize + (q % c.blockSize + d) / c.blockSize := by
    conv_lhs => rw [← Nat.div_add_mod q c.blockSize, Nat.add_assoc, Nat.mul_add_div g.blockPos]
  have hnear : (q % c.blockSize + d) / c.blockSize < cacheLineCount c :=
    (Nat.div_lt_iff_lt_mul g.blockPos).mpr hd
  have hzero : (q % c.blockSize + d) / c.blockSize = 0 := by
    unfold indexOf at hi
    rw [hblock] at hi
    have hmod : (q / c.blockSize + 0) % cacheLineCount c =
        (q / c.blockSize + (q % c.blockSize + d) / c.blockSize) % cacheLineCount c := hi
    have hcancel := Nat.ModEq.add_left_cancel' _ hmod
    exact (Nat.ModEq.eq_of_lt_of_lt hcancel g.linesPos hnear).symm
  unfold tagOf
  rw [← Nat.div_div_eq_div_mul, ← Nat.div_div_eq_div_mul, hblock, hzero, Nat.add_zero]

/-- R80, log entry 18: byte `k` of an access is resident afterwards, if the blocks from it on number at most
`CACHE_LINES`. -/
theorem VisitsFrom.resident_of_few {c : Config} (g : Geometry c) {p n : Nat}
    {lines lines' : List CacheLine} (h : VisitsFrom c p n lines lines')
    (hlen : lines.length = cacheLineCount c) {k : Nat} (hk : k < n)
    (hfew : (p + k) % c.blockSize + (n - k) ≤ cacheLineCount c * c.blockSize) :
    lookup c lines' (p + k) = true := by
  refine h.resident g hlen hk fun l hkl hln hi => ?_
  have hl : p + l = p + k + (l - k) := by omega
  rw [hl] at hi ⊢
  exact tagOf_eq_of_near g (by omega) hi

end Sys2Proof.Machine
end

section
/-! PROOFS. The two accesses (20_memory.md R72 to R81) and the loads and stores that make them (44_load_store.md
R241 to R244): the value read, the bytes written, and what is left alone. -/

namespace Sys2Proof.Machine

/-! ### Reads and writes -/

theorem inBounds_iff_access {s : State} {ea : Word} {n : Nat} :
    inBounds s.cfg ea n = true ↔ s.accessInBounds ea n := by
  simp only [inBounds, State.accessInBounds, Bool.and_eq_true, decide_eq_true_eq]

/-- R73: out of bounds a read gives 0 and sets `WARN[3]`. -/
theorem memRead_outOfBounds {s : State} {ea : Word} {w : Width}
    (h : ¬ s.accessInBounds ea w.bytes) : s.memRead ea w = (0, s.warnOn .outOfRange) := by
  rw [← inBounds_iff_access] at h
  exact if_neg h

/-- R76: out of bounds a write sets `WARN[3]`. -/
theorem memWrite_outOfBounds {s : State} {ea : Word} {w : Width} (v : Word)
    (h : ¬ s.accessInBounds ea w.bytes) : s.memWrite ea w v = s.warnOn .outOfRange := by
  rw [← inBounds_iff_access] at h
  exact if_neg h

/-- R72: in bounds a read leaves everything but the lines. -/
theorem memRead_frame {s : State} {ea : Word} {w : Width} (h : s.accessInBounds ea w.bytes) :
    (s.memRead ea w).2 = { s with lines := (s.memRead ea w).2.lines } := by
  rw [← inBounds_iff_access] at h
  unfold State.memRead
  rw [if_pos h]

/-- R75: in bounds a write leaves everything but the memory and the lines. -/
theorem memWrite_frame {s : State} {ea : Word} {w : Width} (v : Word)
    (h : s.accessInBounds ea w.bytes) : s.memWrite ea w v =
      { s with mem := (s.memWrite ea w v).mem, lines := (s.memWrite ea w v).lines } := by
  rw [← inBounds_iff_access] at h
  unfold State.memWrite
  rw [if_pos h]

theorem memRead_visits {s : State} {ea : Word} {w : Width} (h : s.accessInBounds ea w.bytes) :
    VisitsFrom s.cfg ea.toNat w.bytes s.lines (s.memRead ea w).2.lines := by
  rw [← inBounds_iff_access] at h
  unfold State.memRead
  rw [if_pos h]
  exact readBytes_visits ..

theorem memWrite_visits {s : State} {ea : Word} {w : Width} (v : Word)
    (h : s.accessInBounds ea w.bytes) :
    VisitsFrom s.cfg ea.toNat w.bytes s.lines (s.memWrite ea w v).lines := by
  rw [← inBounds_iff_access] at h
  unfold State.memWrite
  rw [if_pos h]
  simpa using writeBytes_visits s.cfg s.mem s.lines ea.toNat
    (bytesOfValue s.cfg.endian w.bytes v)

section
variable {s : State} (hc : configAdmissible s.cfg = true) (hcache : s.CacheInv) {ea : Word}
  {w : Width} (h : s.accessInBounds ea w.bytes)
include hc hcache h

/-- R72, R79: in bounds a read gives the memory's value, hit or miss. -/
theorem memRead_value : (s.memRead ea w).1 = s.memoryValue ea.toNat w.bytes := by
  have g := geometry hc
  rw [← inBounds_iff_access] at h
  have hfits := ((inBounds_iff g).mp h).2
  unfold State.memRead
  rw [if_pos h]
  exact congrArg (fun bytes => extendValue w.bytes (valueOfBytes s.cfg.endian bytes))
    (readBytes_ok g hcache hfits).1

/-- R79: a read keeps cache and memory in agreement. -/
theorem memRead_cacheInv : (s.memRead ea w).2.CacheInv := by
  have g := geometry hc
  rw [← inBounds_iff_access] at h
  have hfits := ((inBounds_iff g).mp h).2
  unfold State.memRead
  rw [if_pos h]
  exact (readBytes_ok g hcache hfits).2

/-- R75: in bounds a write puts the value's bytes at its addresses and changes no other byte. -/
theorem memWrite_read (v : Word) (p : Nat) : (s.memWrite ea w v).mem.read p =
    if ea.toNat ≤ p ∧ p < ea.toNat + w.bytes
    then byteOfValue s.cfg.endian w.bytes (p - ea.toNat) v else s.mem.read p := by
  have g := geometry hc
  rw [← inBounds_iff_access] at h
  have hfits := ((inBounds_iff g).mp h).2
  have hwritten := (writeBytes_ok g hcache (p := ea.toNat)
    (bs := bytesOfValue s.cfg.endian w.bytes v) (by simpa using hfits)).1 p
  unfold State.memWrite
  rw [if_pos h]
  refine hwritten.trans ?_
  rw [length_bytesOfValue]
  by_cases hp : ea.toNat ≤ p ∧ p < ea.toNat + w.bytes
  · rw [if_pos hp, if_pos hp, getD_bytesOfValue (by omega)]
  · rw [if_neg hp, if_neg hp]

/-- R79: a write keeps cache and memory in agreement. -/
theorem memWrite_cacheInv (v : Word) : (s.memWrite ea w v).CacheInv := by
  have g := geometry hc
  rw [← inBounds_iff_access] at h
  have hfits := ((inBounds_iff g).mp h).2
  unfold State.memWrite
  rw [if_pos h]
  exact (writeBytes_ok g hcache (by simpa using hfits)).2

/-- R71, R80: the value of the first `n` bytes after a write, from the bytes written. -/
theorem memWrite_memoryValue (v : Word) {n : Nat} (hn : n ≤ w.bytes) :
    (s.memWrite ea w v).memoryValue ea.toNat n = extendValue n (valueOfBytes s.cfg.endian
      ((List.range n).map fun k => byteOfValue s.cfg.endian w.bytes k v)) := by
  unfold State.memoryValue
  rw [memWrite_cfg]
  congr 2
  refine List.map_congr_left fun k hk => ?_
  have hkn : k < n := List.mem_range.mp hk
  rw [memWrite_read hc hcache h, if_pos ⟨by omega, by omega⟩, Nat.add_sub_cancel_left]

/-- R77, R80: what was just written is read back from the same width. -/
theorem memRead_memWrite (v : Word) : ((s.memWrite ea w v).memRead ea w).1 =
    (v.setWidth (8 * w.bytes)).signExtend 64 := by
  have hb : (s.memWrite ea w v).accessInBounds ea w.bytes := by
    unfold State.accessInBounds
    rw [memWrite_cfg]
    exact h
  rw [memRead_value (by rwa [memWrite_cfg]) (memWrite_cacheInv hc hcache h v) hb,
    memWrite_memoryValue hc hcache h v le_rfl, ← extendValue_mod]
  exact congrArg _ (valueOfBytes_bytesOfValue ..)

omit hc hcache in
theorem memRead_memWrite_warn (v : Word) :
    ((s.memWrite ea w v).memRead ea w).2.warn = s.warn := by
  have hb : (s.memWrite ea w v).accessInBounds ea w.bytes := by
    unfold State.accessInBounds
    rw [memWrite_cfg]
    exact h
  rw [memRead_frame hb, memWrite_frame v h]

end

/-- R71: the half of an 8-byte datum that the byte order puts at its address. -/
theorem valueOfBytes_half (e : Endian) (v : Word) :
    extendValue 4 (valueOfBytes e ((List.range 4).map fun k => byteOfValue e 8 k v)) =
      match e with
      | .little => (v.extractLsb' 0 32).signExtend 64
      | .big => (v.extractLsb' 32 32).signExtend 64 := by
  cases e with
  | little =>
    have hlow : valueOfBytes .little ((List.range 4).map fun k => byteOfValue .little 8 k v) =
        v.toNat % 2 ^ (8 * 4) := littleValue_bytes v 4
    rw [hlow, extendValue_mod, BitVec.setWidth_eq_extractLsb' (by decide)]
  | big =>
    have hbytes : ((List.range 4).map fun k => byteOfValue .big 8 k v) =
        bytesOfValue .big 4 (v >>> 32) := by
      refine List.map_congr_left fun k hk => ?_
      have hk4 : k < 4 := List.mem_range.mp hk
      apply BitVec.eq_of_getLsbD_eq
      intro i hi
      simp only [byteOfValue, BitVec.getLsbD_extractLsb', BitVec.getLsbD_ushiftRight]
      congr 2
      omega
    rw [hbytes, valueOfBytes_bytesOfValue, extendValue_mod]
    rfl

/-! ### Loads and stores -/

theorem address_of_base {u : FunctionalUnit} {base : Word} (h : u.j = .resolved base) :
    u.address? = some (base + u.imm) := by
  unfold FunctionalUnit.address?
  rw [h]
  rfl

/-- R241, R242: LW and LD complete as loads of 4 and of 8 bytes. -/
theorem complete_of_load {op : Opcode} {n : Nat} (h : op = .lw ∧ n = 4 ∨ op = .ld ∧ n = 8) :
    ∃ w : Width, w.bytes = n ∧
      ∀ (s : State) (t : Nat), (s.unit t).op = op → s.complete t = s.completeLoad t w := by
  obtain ⟨rfl, rfl⟩ | ⟨rfl, rfl⟩ := h
  · exact ⟨.four, rfl, fun s t hop => by unfold State.complete; rw [hop]; rfl⟩
  · exact ⟨.eight, rfl, fun s t hop => by unfold State.complete; rw [hop]; rfl⟩

/-- R243, R244: SW and SD complete and are serviced as stores of 4 and of 8 bytes. -/
theorem complete_service_of_store {op : Opcode} {n : Nat}
    (h : op = .sw ∧ n = 4 ∨ op = .sd ∧ n = 8) :
    ∃ w : Width, w.bytes = n ∧ ∀ (s : State) (t : Nat), (s.unit t).op = op →
      s.complete t = s.completeStore t ∧ s.service t = s.serviceStore t w := by
  obtain ⟨rfl, rfl⟩ | ⟨rfl, rfl⟩ := h
  · exact ⟨.four, rfl, fun s t hop => by
      unfold State.complete State.service; rw [hop]; exact ⟨rfl, rfl⟩⟩
  · exact ⟨.eight, rfl, fun s t hop => by
      unfold State.complete State.service; rw [hop]; exact ⟨rfl, rfl⟩⟩

theorem completeLoad_of_base {s : State} {t : Nat} {base : Word}
    (hj : (s.unit t).j = .resolved base) (w : Width) : s.completeLoad t w =
      (s.memRead (base + (s.unit t).imm) w).2.setResult t
        (s.memRead (base + (s.unit t).imm) w).1 := by
  unfold State.completeLoad
  rw [address_of_base hj]

theorem completeStore_of_resolved {s : State} {t : Nat} {base v : Word}
    (hj : (s.unit t).j = .resolved base) (hd : (s.unit t).data = .resolved v) :
    s.completeStore t = s := by
  unfold State.completeStore
  rw [hj, hd]
  rfl

theorem serviceStore_of_resolved {s : State} {t : Nat} {base v : Word}
    (hj : (s.unit t).j = .resolved base) (hd : (s.unit t).data = .resolved v)
    (hsq : (s.unit t).squashed = false) (w : Width) :
    s.serviceStore t w = s.memWrite (base + (s.unit t).imm) w v := by
  unfold State.serviceStore
  rw [hsq, address_of_base hj, hd]
  rfl

/-- R72: a line that no byte of the access touches is one that no visit is at. -/
theorem VisitsFrom.untouched {c : Config} {ea : Word} {n : Nat} {lines lines' : List CacheLine}
    (h : VisitsFrom c ea.toNat n lines lines') {i : Nat} (hi : ¬ touchesLine c ea n i) :
    lineAt c lines' i = lineAt c lines i :=
  h.otherLines fun k hk hik => hi ⟨k, hk, hik⟩

end Sys2Proof.Machine

namespace Sys2Proof
open Machine

/-- Settles O28: the completion is one `MemRead` whose value goes into the unit. -/
theorem loadCompletes : Obligations.LoadCompletes := by
  intro s t base hc hcache h0 hpool hj op n hopn hop ea
  obtain ⟨w, rfl, hload⟩ := complete_of_load hopn
  have hcomplete : s.complete t = (s.memRead ea w).2.setResult t (s.memRead ea w).1 :=
    (hload s t hop).trans (completeLoad_of_base hj w)
  refine ⟨fun hb => ?_, fun hb => ?_⟩
  · rw [memRead_value hc hcache hb] at hcomplete
    have hsame := (complete_completedAs s t).same
    have hunit : ((s.memRead ea w).2.setResult t (s.memoryValue ea.toNat w.bytes)).unit t =
        { (s.memRead ea w).2.unit t with result := some (s.memoryValue ea.toNat w.bytes) } :=
      unit_setUnit_same _ h0 (by simpa using hpool) _
    rw [unit_congr (memRead_units ..)] at hunit
    have hinv := memRead_cacheInv hc hcache hb
    rw [hcomplete] at hsame ⊢
    refine ⟨hsame, ?_, by simp, by simp, ?_, hunit, fun i hi => ?_⟩
    · unfold State.CacheInv at hinv ⊢
      simpa using hinv
    · rw [setResult_warn, memRead_frame hb]
    · rw [setResult_lines]
      exact (memRead_visits hb).untouched hi
  · rw [hcomplete, memRead_outOfBounds hb]

/-- Settles O29: the completion finds both operands, the service is one `MemWrite`. -/
theorem storeCompletesAndIsServiced : Obligations.StoreCompletesAndIsServiced := by
  intro s t base v hc hcache hj hd hsq op n hopn hop ea
  obtain ⟨w, rfl, hstore⟩ := complete_service_of_store hopn
  obtain ⟨hcomplete, hservice⟩ := hstore s t hop
  rw [completeStore_of_resolved hj hd] at hcomplete
  rw [serviceStore_of_resolved hj hd hsq] at hservice
  refine ⟨hcomplete, fun hb => ?_, fun hb => ?_⟩
  · rw [hservice]
    exact ⟨memWrite_read hc hcache hb v, memWrite_frame v hb, memWrite_cacheInv hc hcache hb v,
      fun i hi => (memWrite_visits v hb).untouched hi⟩
  · rw [hservice]
    exact memWrite_outOfBounds v hb

/-- Settles O30: a word is its own low 8 bytes. -/
theorem storeThenLoadGivesTheValue : Obligations.StoreThenLoadGivesTheValue := by
  refine fun s ea v hc hcache => ⟨fun hb => ?_, fun hb => ?_⟩
  · exact ⟨memRead_memWrite hc hcache (w := .four) hb v,
      memRead_memWrite_warn (w := .four) hb v⟩
  · refine ⟨(memRead_memWrite hc hcache (w := .eight) hb v).trans ?_,
      memRead_memWrite_warn (w := .eight) hb v⟩
    exact (BitVec.signExtend_eq _).trans (BitVec.setWidth_eq _)

/-- Settles O31: the first four of the eight bytes written. -/
theorem halfOfADatumFollowsByteOrder : Obligations.HalfOfADatumFollowsByteOrder := by
  intro s ea v hc hcache hb
  have hb4 : (s.memWrite ea .eight v).accessInBounds ea Width.four.bytes := by
    unfold State.accessInBounds at hb ⊢
    rw [memWrite_cfg]
    simp only [Width.bytes]
    omega
  rw [memRead_value (by rwa [memWrite_cfg])
      (memWrite_cacheInv hc hcache (w := .eight) hb v) hb4]
  exact (memWrite_memoryValue hc hcache (w := .eight) hb v (by decide)).trans
    (valueOfBytes_half s.cfg.endian v)

/-- Settles O32: in bounds both read the memory's value, out of bounds both read 0. -/
theorem cacheIsInvisibleToValues : Obligations.CacheIsInvisibleToValues := by
  intro s lines ea w hc hcache hcache'
  by_cases hb : s.accessInBounds ea w.bytes
  · have hb' : State.accessInBounds { s with lines := lines } ea w.bytes := hb
    have hc' : configAdmissible (State.cfg { s with lines := lines }) = true := hc
    rw [memRead_value hc hcache hb, memRead_value hc' hcache' hb', memRead_frame hb,
      memRead_frame hb']
    exact ⟨rfl, rfl⟩
  · have hb' : ¬ State.accessInBounds { s with lines := lines } ea w.bytes := hb
    rw [memRead_outOfBounds hb, memRead_outOfBounds hb']
    exact ⟨rfl, rfl⟩

/-- Settles O33: the visits of the access; the address itself is byte 0. -/
theorem readMakesItsBlockResident : Obligations.ReadMakesItsBlockResident := by
  intro s ea v w hc hcache hb
  have g := geometry hc
  have hvisits := memRead_visits hb
  have hvisits' := memWrite_visits v hb
  have hbyte : ∀ k, k < w.bytes →
      (ea.toNat + k) % s.cfg.blockSize + (w.bytes - k) ≤
        cacheLineCount s.cfg * s.cfg.blockSize →
      lookup s.cfg (s.memRead ea w).2.lines (ea.toNat + k) = true ∧
        lookup s.cfg (s.memWrite ea w v).lines (ea.toNat + k) = true := fun k hk hfew =>
    ⟨hvisits.resident_of_few g hcache.linesSize hk hfew,
      hvisits'.resident_of_few g hcache.linesSize hk hfew⟩
  refine ⟨fun hfew => ?_, hbyte⟩
  have hpos : 0 < w.bytes := by cases w <;> decide
  have hfirst := hbyte 0 hpos (by simpa using hfew)
  have hone : inBounds s.cfg ea 1 = true := by
    rw [inBounds_iff_access]
    unfold State.accessInBounds at hb ⊢
    omega
  simpa only [lookupAddress_iff, hone, true_and, Nat.add_zero] using hfirst

end Sys2Proof
end

section
/-! PROOFS. The Writeback phase in full (41_scheduler_and_cdb.md R162 to R168): what a service does is decided by the
serviced unit alone, and registers and units change only by what the bus then shows. -/

namespace Sys2Proof.Machine

/-! ### What a unit does at its service -/

/-- R165: what a unit publishes at its service. -/
def FunctionalUnit.published (u : FunctionalUnit) : Option Word :=
  if hasDest u.op then u.result else none

/-- R167, R176: the access that a store makes at its service. -/
def FunctionalUnit.storeAccess (u : FunctionalUnit) : Option (Word × Width × Word) :=
  match u.op, u.squashed, u.address?, u.data.value? with
  | .sw, false, some ea, some v => some (ea, .four, v)
  | .sd, false, some ea, some v => some (ea, .eight, v)
  | _, _, _, _ => none

theorem published_eq_some_iff {u : FunctionalUnit} {v : Word} :
    u.published = some v ↔ hasDest u.op = true ∧ u.result = some v := by
  unfold FunctionalUnit.published
  split <;> simp_all

theorem storeAccess_eq_some {u : FunctionalUnit} {ea v : Word} {w : Width}
    (h : u.storeAccess = some (ea, w, v)) : u.address? = some ea ∧
      (u.op = .sw ∧ w = .four ∨ u.op = .sd ∧ w = .eight) := by
  unfold FunctionalUnit.storeAccess at h
  split at h <;> simp_all

/-- R167: the service of a store is the access it makes, if it makes one. -/
theorem serviceStore_eq (s : State) (t : Nat) (w : Width) (op : Opcode)
    (hop : op = .sw ∧ w = .four ∨ op = .sd ∧ w = .eight) (h : (s.unit t).op = op) :
    (∃ ea v, (s.unit t).storeAccess = some (ea, w, v) ∧ s.serviceStore t w = s.memWrite ea w v) ∨
      (s.unit t).storeAccess = none ∧ s.serviceStore t w = s := by
  unfold State.serviceStore FunctionalUnit.storeAccess
  rw [h]
  cases (s.unit t).squashed <;> cases (s.unit t).address? <;> cases (s.unit t).data.value? <;>
    obtain ⟨rfl, rfl⟩ | ⟨rfl, rfl⟩ := hop <;> simp

/-- R165 to R168: everything a service can do, with the unit that decides it. -/
theorem service_effect (s : State) (t : Nat) :
    (∃ v, (s.unit t).published = some v ∧
      s.service t = { s.fanOut t v with busEvent := some (t, v) }) ∨
    (s.unit t).published = none ∧
      ((∃ ea w v, (s.unit t).storeAccess = some (ea, w, v) ∧ s.service t = s.memWrite ea w v) ∨
        (s.unit t).storeAccess = none ∧ s.service t = s) := by
  cases hp : (s.unit t).published with
  | some v =>
    obtain ⟨hd, hv⟩ := published_eq_some_iff.mp hp
    exact .inl ⟨v, rfl, service_of_result hd hv⟩
  | none =>
    refine .inr ⟨rfl, ?_⟩
    have hpublish : hasDest (s.unit t).op = true → s.publish t = s := by
      intro hd
      unfold FunctionalUnit.published at hp
      rw [if_pos hd] at hp
      unfold State.publish
      rw [hp]
    unfold State.service
    cases hop : (s.unit t).op
    case sw =>
      obtain ⟨ea, v, h⟩ | h := serviceStore_eq s t .four .sw (.inl ⟨rfl, rfl⟩) hop
      · exact .inl ⟨ea, .four, v, h⟩
      · exact .inr h
    case sd =>
      obtain ⟨ea, v, h⟩ | h := serviceStore_eq s t .eight .sd (.inr ⟨rfl, rfl⟩) hop
      · exact .inl ⟨ea, .eight, v, h⟩
      · exact .inr h
    all_goals
      refine .inr ⟨by unfold FunctionalUnit.storeAccess; rw [hop], ?_⟩
      first | rfl | exact hpublish (by rw [hop]; rfl)

/-- A published tag names a unit. -/
theorem published_ne_zero {s : State} {t : Nat} {v : Word} (h : (s.unit t).published = some v) :
    t ≠ 0 := by
  rintro rfl
  cases h

/-! ### What registers and units hear of the bus -/

/-- R132, R166: what a register makes of the bus event. -/
def Register.hear (event : Option (Nat × Word)) (x : Register) : Register :=
  match event with
  | none => x
  | some (t, v) => x.resolve t v

/-- R166: what a unit makes of the bus event. -/
def FunctionalUnit.hear (event : Option (Nat × Word)) (u : FunctionalUnit) : FunctionalUnit :=
  match event with
  | none => u
  | some (t, v) => u.deliver t v

@[simp] theorem hear_busy (e : Option (Nat × Word)) (u : FunctionalUnit) :
    (u.hear e).busy = u.busy := by cases e <;> simp [FunctionalUnit.hear]
@[simp] theorem hear_op (e : Option (Nat × Word)) (u : FunctionalUnit) :
    (u.hear e).op = u.op := by cases e <;> simp [FunctionalUnit.hear]
@[simp] theorem hear_target (e : Option (Nat × Word)) (u : FunctionalUnit) :
    (u.hear e).target = u.target := by cases e <;> simp [FunctionalUnit.hear]
@[simp] theorem hear_result (e : Option (Nat × Word)) (u : FunctionalUnit) :
    (u.hear e).result = u.result := by cases e <;> simp [FunctionalUnit.hear]
@[simp] theorem hear_squashed (e : Option (Nat × Word)) (u : FunctionalUnit) :
    (u.hear e).squashed = u.squashed := by cases e <;> simp [FunctionalUnit.hear]

theorem hear_of_free {u : FunctionalUnit} (h : u.busy = false) (e : Option (Nat × Word)) :
    u.hear e = u := by
  cases e with
  | none => rfl
  | some x => exact deliver_of_free h x.1 x.2

theorem deliver_eq_pending_iff {o : Operand} {t x : Nat} {v : Word} :
    o.deliver t v = .pending x ↔ o = .pending x ∧ x ≠ t := by
  cases o with
  | resolved w => simp
  | pending y =>
    rw [deliver_pending]
    by_cases hy : y = t
    · simp [hy]
      omega
    · simp [hy]
      omega

/-- R166: after the broadcast of `t` a unit waits for what it waited for before, but not for `t`. -/
theorem deliver_waitsOn_iff {u : FunctionalUnit} (hb : u.busy = true) {t x : Nat} {v : Word} :
    (u.deliver t v).waitsOn x ↔ u.waitsOn x ∧ x ≠ t := by
  rw [deliver_of_busy hb]
  unfold FunctionalUnit.waitsOn
  simp only [deliver_eq_pending_iff]
  tauto

/-- R132: a register that waits after the broadcast waited for the same tag before, and for another one than
the bus shows. -/
theorem hear_producer {x : Register} {e : Option (Nat × Word)} (h : (x.hear e).producer ≠ 0) :
    x.hear e = x ∧ ∀ v, e ≠ some (x.producer, v) := by
  cases e with
  | none => exact ⟨rfl, nofun⟩
  | some y =>
    have hne : x.producer ≠ y.1 := by
      intro he
      exact h (congrArg Register.producer (resolve_of_eq y.2 he))
    refine ⟨resolve_of_ne y.2 hne, fun v he => hne ?_⟩
    rw [Option.some.inj he]

/-- R165 to R168: what a service does to the registers, the units, the queues and an empty bus. -/
structure Serviced (s s' : State) (t : Nat) : Prop where
  tbe : s'.qTbe = s.qTbe
  wait : s'.qWait = s.qWait
  exec : s'.qExec = s.qExec
  result : s'.qResult = s.qResult
  reg : ∀ r, s'.reg r = (s.reg r).hear s'.busEvent
  unit : ∀ u, s'.unit u = (s.unit u).hear s'.busEvent
  bus : s'.busEvent = (s.unit t).published.map (t, ·)

theorem service_serviced {s : State} (hbus : s.busEvent = none) (t : Nat) :
    Serviced s (s.service t) t := by
  obtain ⟨v, hv, he⟩ | ⟨hnone, ⟨ea, w, v, -, he⟩ | ⟨-, he⟩⟩ := service_effect s t
  · rw [he]
    exact ⟨rfl, rfl, rfl, rfl, fun r => reg_fanOut s (published_ne_zero hv) v r,
      fun u => unit_fanOut s t v u, by rw [hv]; rfl⟩
  · have hquiet : (s.memWrite ea w v).busEvent = none := by rw [memWrite_busEvent, hbus]
    rw [he]
    exact ⟨by simp, by simp, by simp, by simp,
      fun r => by rw [hquiet]; exact reg_congr (by simp) (by simp) r,
      fun u => by rw [hquiet]; exact unit_congr (by simp) u, by rw [hquiet, hnone]; rfl⟩
  · rw [he]
    exact ⟨rfl, rfl, rfl, rfl, fun r => by rw [hbus]; rfl, fun u => by rw [hbus]; rfl,
      by rw [hbus, hnone]; rfl⟩

/-- The access of a store reads memory, lines, flags and configuration only. -/
theorem memWrite_congr {s s' : State} (hcfg : s'.cfg = s.cfg) (hmem : s'.mem = s.mem)
    (hlines : s'.lines = s.lines) (hwarn : s'.warn = s.warn) (ea : Word) (w : Width) (v : Word) :
    (s'.memWrite ea w v).mem = (s.memWrite ea w v).mem ∧
      (s'.memWrite ea w v).lines = (s.memWrite ea w v).lines ∧
      (s'.memWrite ea w v).warn = (s.memWrite ea w v).warn := by
  unfold State.memWrite
  rw [hcfg, hmem, hlines]
  split
  · exact ⟨rfl, rfl, hwarn⟩
  · exact ⟨hmem, hlines, congrArg (Warnings.raise · .outOfRange) hwarn⟩

/-! ### The phase -/

/-- R162 to R168: everything that the Writeback phase does to the registers, the units, the queues and the bus.
`writeback_frame` has the rest but memory, lines and flags. -/
structure WrittenBack (s s' : State) : Prop where
  tbe : s'.qTbe = s.qTbe
  wait : s'.qWait = s.qWait
  exec : s'.qExec = s.qExec
  result : s'.qResult = s.qResult.drop 1
  clear : s'.qClear = s.qResult.take 1
  reg : ∀ r, s'.reg r = (s.reg r).hear s'.busEvent
  unit : ∀ u, s'.unit u =
    if u ∈ s.qClear then FunctionalUnit.reset else (s.unit u).hear s'.busEvent
  bus : ∀ t v, s'.busEvent = some (t, v) ↔
    s.qResult.head? = some t ∧ t ∉ s.qClear ∧ (s.unit t).published = some v

/-- R167: what the Writeback phase does to memory, lines and flags: the access of the store that it services, or
nothing when it services none. -/
def StoreWritten (s s' : State) : Prop :=
  (∀ t, s.qResult.head? = some t → t ∉ s.qClear → (s.unit t).storeAccess = none) ∧
    s'.mem = s.mem ∧ s'.lines = s.lines ∧ s'.warn = s.warn ∨
  ∃ t ea w v, s.qResult.head? = some t ∧ (s.unit t).storeAccess = some (ea, w, v) ∧
    s'.mem = (s.memWrite ea w v).mem ∧ s'.lines = (s.memWrite ea w v).lines ∧
    s'.warn = (s.memWrite ea w v).warn

/-- R164: the state in which W2 services the oldest entry, when there is one. -/
def State.beforeService (s : State) : State :=
  { s.clearBus.freeCleared with qResult := s.qResult.drop 1 }

theorem beforeService_frame (s : State) : s.beforeService = { s with
    busEvent := none, qResult := s.qResult.drop 1, qClear := []
    units := s.beforeService.units } := by
  obtain ⟨hframe, -, -⟩ := freeCleared_spec s.clearBus
  unfold State.beforeService
  rw [hframe]
  rfl

section
variable (s : State)

@[simp] theorem beforeService_cfg : s.beforeService.cfg = s.cfg := by rw [beforeService_frame]
@[simp] theorem beforeService_qTbe : s.beforeService.qTbe = s.qTbe := by rw [beforeService_frame]
@[simp] theorem beforeService_qWait : s.beforeService.qWait = s.qWait := by
  rw [beforeService_frame]
@[simp] theorem beforeService_qExec : s.beforeService.qExec = s.qExec := by
  rw [beforeService_frame]
@[simp] theorem beforeService_qResult : s.beforeService.qResult = s.qResult.drop 1 := rfl
@[simp] theorem beforeService_qClear : s.beforeService.qClear = [] := by rw [beforeService_frame]
@[simp] theorem beforeService_busEvent : s.beforeService.busEvent = none := by
  rw [beforeService_frame]
@[simp] theorem beforeService_mem : s.beforeService.mem = s.mem := by rw [beforeService_frame]
@[simp] theorem beforeService_lines : s.beforeService.lines = s.lines := by
  rw [beforeService_frame]
@[simp] theorem beforeService_warn : s.beforeService.warn = s.warn := by rw [beforeService_frame]

theorem beforeService_reg (r : Reg) : s.beforeService.reg r = s.reg r := by
  rw [beforeService_frame]
  exact reg_congr rfl rfl r

theorem beforeService_unit (u : Nat) : s.beforeService.unit u =
    if u ∈ s.qClear then FunctionalUnit.reset else s.unit u := by
  obtain ⟨-, -, hunit⟩ := freeCleared_spec s.clearBus
  exact hunit u

end

theorem writeback_of_empty {s : State} (h : s.qResult = []) : s.writeback = s.beforeService := by
  obtain ⟨hframe, -, -⟩ := freeCleared_spec s.clearBus
  unfold State.writeback State.serviceOldest State.beforeService
  rw [hframe]
  simp only [clearBus_qResult, h, List.drop_nil]

theorem writeback_of_cons {s : State} {t : Nat} {rest : List Nat} (h : s.qResult = t :: rest) :
    s.writeback = { s.beforeService.service t with qClear := [t] } := by
  obtain ⟨hframe, -, -⟩ := freeCleared_spec s.clearBus
  have hresult : s.clearBus.freeCleared.qResult = t :: rest := by rw [hframe]; exact h
  have hbefore : { s.clearBus.freeCleared with qResult := rest } = s.beforeService := by
    unfold State.beforeService
    rw [h]
    rfl
  unfold State.writeback State.serviceOldest
  rw [hresult]
  simp only [hbefore, service_qClear, beforeService_qClear, List.nil_append]

/-- R162 to R168: registers and units hear what the bus shows, units of `Q_CLEAR` are freed, the oldest result
moves on, and the bus shows what that unit published. -/
theorem writeback_spec (s : State) : WrittenBack s s.writeback := by
  have hreg := beforeService_reg s
  have hunit := beforeService_unit s
  cases hr : s.qResult with
  | nil =>
    rw [writeback_of_empty hr]
    exact ⟨by simp, by simp, by simp, by simp, by simp [hr], 
      fun r => by rw [beforeService_busEvent]; exact hreg r,
      fun u => by rw [beforeService_busEvent]; exact hunit u, by simp [hr]⟩
  | cons t rest =>
    rw [writeback_of_cons hr]
    have h := service_serviced (beforeService_busEvent s) t
    refine ⟨by simp [h.tbe], by simp [h.wait], by simp [h.exec], by simp [h.result], by simp [hr],
      fun r => ?_, fun u => ?_, fun x v => ?_⟩
    · exact (h.reg r).trans (by rw [hreg])
    · refine (h.unit u).trans ?_
      rw [hunit]
      split
      · exact hear_of_free rfl _
      · rfl
    · refine (Eq.congr_left h.bus).trans ?_
      rw [hunit, hr]
      by_cases hc : t ∈ s.qClear
      · rw [if_pos hc]
        simp only [List.head?_cons, Option.some.injEq]
        exact ⟨nofun, fun hx => absurd (hx.1 ▸ hc) hx.2.1⟩
      · simp only [if_neg hc, Option.map_eq_some_iff, Prod.mk.injEq, List.head?_cons,
          Option.some.injEq]
        constructor
        · rintro ⟨_, hv, rfl, rfl⟩
          exact ⟨rfl, hc, hv⟩
        · rintro ⟨rfl, -, hv⟩
          exact ⟨v, hv, rfl, rfl⟩

/-- A unit that publishes makes no access to memory at its service. -/
theorem storeAccess_of_hasDest {u : FunctionalUnit} (h : hasDest u.op = true) :
    u.storeAccess = none := by
  unfold FunctionalUnit.storeAccess
  split <;> simp_all [hasDest]

/-- R167: the Writeback phase changes memory, lines and flags by the access of one store at most. -/
theorem writeback_storeWritten (s : State) : StoreWritten s s.writeback := by
  cases hr : s.qResult with
  | nil =>
    rw [writeback_of_empty hr]
    exact .inl ⟨by simp [hr], by simp, by simp, by simp⟩
  | cons t rest =>
    have hunit : ∀ x, s.qResult.head? = some x → x ∉ s.qClear →
        s.beforeService.unit t = s.unit x := fun x hx hc => by
      rw [hr] at hx
      obtain rfl := Option.some.inj hx
      rw [beforeService_unit, if_neg hc]
    rw [writeback_of_cons hr]
    obtain ⟨v, hv, he⟩ | ⟨-, ⟨ea, w, v, ha, he⟩ | ⟨hnone, he⟩⟩ :=
      service_effect s.beforeService t
    · have hnone := storeAccess_of_hasDest (published_eq_some_iff.mp hv).1
      exact .inl ⟨fun x hx hc => hunit x hx hc ▸ hnone, by simp [he], by simp [he], by simp [he]⟩
    · right
      have ha' : (s.unit t).storeAccess = some (ea, w, v) := by
        rw [beforeService_unit] at ha
        split at ha
        · cases ha
        · exact ha
      rw [he]
      exact ⟨t, ea, w, v, by rw [hr]; rfl, ha', memWrite_congr (beforeService_cfg s)
        (beforeService_mem s) (beforeService_lines s) (beforeService_warn s) ea w v⟩
    · exact .inl ⟨fun x hx hc => hunit x hx hc ▸ hnone, by simp [he], by simp [he], by simp [he]⟩

theorem step_mem {s s' : State} (h : step s = .next s') : s'.mem = s.writeback.mem := by
  obtain ⟨-, -, -, -, -, -, -, hmem⟩ := execute_frame s.writeback
  obtain ⟨-, ⟨-, rfl⟩ | ⟨w, s1, -, he, rfl⟩⟩ := step_next h
  · exact hmem
  · obtain ⟨-, -, -, hexec, -⟩ := exec_frame he
    exact hexec.trans hmem

/-! ### The one service of a cycle -/

/-- R164: the Writeback phase is the service of the oldest result, as the unit stood before the phase. -/
theorem writeback_of_service {s : State} {t : Nat} {rest : List Nat} (hr : s.qResult = t :: rest)
    (hc : t ∉ s.qClear) :
    (∀ r, s.writeback.reg r = (s.service t).reg r) ∧
    (∀ u, s.writeback.unit u =
      if u ∈ s.qClear then FunctionalUnit.reset else (s.service t).unit u) ∧
    s.writeback.mem = (s.service t).mem ∧ s.writeback.lines = (s.service t).lines ∧
    s.writeback.warn = (s.service t).warn ∧
    s.writeback.busEvent = (s.unit t).published.map (t, ·) := by
  have hhead : s.qResult.head? = some t := by rw [hr]; rfl
  have h := writeback_spec s
  have hbus : s.writeback.busEvent = (s.unit t).published.map (t, ·) := by
    apply Option.ext
    rintro ⟨x, v⟩
    rw [h.bus, hhead]
    simp only [Option.some.injEq, Option.map_eq_some_iff, Prod.mk.injEq]
    constructor
    · rintro ⟨rfl, -, hv⟩
      exact ⟨v, hv, rfl, rfl⟩
    · rintro ⟨_, hv, rfl, rfl⟩
      exact ⟨rfl, hc, hv⟩
  have hstore : ∀ x, s.qResult.head? = some x → x = t := fun x hx =>
    Option.some.inj (hx.symm.trans hhead)
  have hreg := h.reg
  have hunit := h.unit
  rw [hbus] at hreg hunit
  obtain ⟨v, hv, he⟩ | ⟨hnone, he⟩ := service_effect s t
  · rw [hv] at hreg hunit
    have hnostore := storeAccess_of_hasDest (published_eq_some_iff.mp hv).1
    obtain ⟨-, hmem, hlines, hwarn⟩ | ⟨x, ea, w, y, hx, ha, -⟩ := writeback_storeWritten s
    · rw [he]
      refine ⟨fun r => (hreg r).trans (reg_fanOut s (published_ne_zero hv) v r).symm,
        fun u => (hunit u).trans ?_, hmem, hlines, hwarn, hbus⟩
      exact congrArg (ite _ _) (unit_fanOut s t v u).symm
    · rw [hstore x hx, hnostore] at ha
      cases ha
  · rw [hnone] at hreg hunit
    obtain ⟨ea, w, v, ha, he⟩ | ⟨ha, he⟩ := he <;> rw [he]
    · refine ⟨fun r => (hreg r).trans (reg_congr (by simp) (by simp) r).symm,
        fun u => (hunit u).trans ?_, ?_⟩
      · exact congrArg (ite _ _) (unit_congr (by simp) u).symm
      obtain ⟨hnostore, -⟩ | ⟨x, ea', w', v', hx, ha', hmem, hlines, hwarn⟩ :=
        writeback_storeWritten s
      · rw [hnostore t hhead hc] at ha
        cases ha
      · rw [hstore x hx, ha] at ha'
        cases ha'
        exact ⟨hmem, hlines, hwarn, hbus⟩
    · refine ⟨hreg, hunit, ?_⟩
      obtain ⟨-, hmem, hlines, hwarn⟩ | ⟨x, ea', w', v', hx, ha', -⟩ := writeback_storeWritten s
      · exact ⟨hmem, hlines, hwarn, hbus⟩
      · rw [hstore x hx, ha] at ha'
        cases ha'

end Sys2Proof.Machine

namespace Sys2Proof
open Machine

/-- Settles O36: the queue exclusivity keeps the serviced unit out of `Q_CLEAR`. -/
theorem oneServicePerCycle : Obligations.OneServicePerCycle := by
  intro s hq
  have h := writeback_spec s
  refine ⟨h.result, fun hr => ?_, fun t rest hr => ?_⟩
  · have hbus : s.writeback.busEvent = none := by
      rw [writeback_of_empty hr, beforeService_busEvent]
    have hreg := h.reg
    have hunit := h.unit
    rw [hbus] at hreg hunit
    rw [writeback_of_empty hr] at hreg hunit ⊢
    exact ⟨by simp, hreg, hunit, by simp, by simp, by simp⟩
  · have hc : t ∉ s.qClear := by
      have honce := hq.once
      unfold State.queued at honce
      rw [List.nodup_append] at honce
      exact fun hc => honce.2.2 t (by simp [hr]) t hc rfl
    obtain ⟨hreg, hunit, hmem, hlines, hwarn, hbus⟩ := writeback_of_service hr hc
    refine ⟨fun hd v hv => ?_, fun hd => ?_, hreg, hunit, hmem, hlines, hwarn,
      fun s' hs' => (step_mem hs').trans hmem⟩
    · rw [hbus, published_eq_some_iff.mpr ⟨hd, hv⟩]
      rfl
    · rw [hbus, FunctionalUnit.published, hd]
      rfl

end Sys2Proof
end

section
/-! PROOFS. Completion in every case (41_scheduler_and_cdb.md R175, R176, 60_exceptions.md R281): flags are only ever
set, cache and memory stay in agreement, and with its operands resolved no unit meets the defensive check. -/

namespace Sys2Proof.Machine

/-! ### Flags -/

/-- R281: every flag set in `w` is set in `w'`. -/
def Warnings.SetIn (w w' : Warnings) : Prop := ∀ a, w.isSet a = true → w'.isSet a = true

theorem isSet_raise_self (w : Warnings) (a : Anomaly) : (w.raise a).isSet a = true := by
  cases a <;> rfl

theorem Warnings.setIn_raise (w : Warnings) (a : Anomaly) : w.SetIn (w.raise a) := by
  intro b hb
  cases a <;> cases b <;> first | exact hb | rfl

theorem Warnings.SetIn.refl (w : Warnings) : w.SetIn w := fun _ h => h

theorem Warnings.SetIn.trans {w w' w'' : Warnings} (h : w.SetIn w') (h' : w'.SetIn w'') :
    w.SetIn w'' := fun a ha => h' a (h a ha)

theorem memRead_warn_cases (s : State) (ea : Word) (w : Width) :
    (s.memRead ea w).2.warn = s.warn ∨ (s.memRead ea w).2.warn = s.warn.raise .outOfRange := by
  by_cases h : s.accessInBounds ea w.bytes
  · exact .inl (by rw [memRead_frame h])
  · exact .inr (by rw [memRead_outOfBounds h]; rfl)

theorem memWrite_warn_cases (s : State) (ea : Word) (w : Width) (v : Word) :
    (s.memWrite ea w v).warn = s.warn ∨ (s.memWrite ea w v).warn = s.warn.raise .outOfRange := by
  by_cases h : s.accessInBounds ea w.bytes
  · exact .inl (by rw [memWrite_frame v h])
  · exact .inr (by rw [memWrite_outOfBounds v h]; rfl)

/-! ### The five kinds of completion -/

/-- R175: the completion of an opcode is that of an arithmetic unit, a load, a store or a branch, or nothing. -/
theorem complete_cases (s : State) (t : Nat) :
    (∃ warns f, s.complete t = s.completeArith t warns f) ∨
    (∃ w, opcodeClass (s.unit t).op = some .load ∧ s.complete t = s.completeLoad t w) ∨
    s.complete t = s.completeStore t ∨ (∃ taken, s.complete t = s.completeBranch t taken) ∨
    s.complete t = s := by
  unfold State.complete
  cases (s.unit t).op
  case unknown => exact .inr (.inr (.inr (.inr rfl)))
  case lw => exact .inr (.inl ⟨.four, rfl, rfl⟩)
  case ld => exact .inr (.inl ⟨.eight, rfl, rfl⟩)
  case sw => exact .inr (.inr (.inl rfl))
  case sd => exact .inr (.inr (.inl rfl))
  case beq => exact .inr (.inr (.inr (.inl ⟨takenBeq, rfl⟩)))
  case bne => exact .inr (.inr (.inr (.inl ⟨takenBne, rfl⟩)))
  all_goals exact .inl ⟨_, _, rfl⟩

/-- R175, R176, R281: a completion sets one flag at most. -/
theorem complete_warn_cases (s : State) (t : Nat) :
    (s.complete t).warn = s.warn ∨ ∃ a, (s.complete t).warn = s.warn.raise a := by
  obtain ⟨warns, f, he⟩ | ⟨w, -, he⟩ | he | ⟨taken, he⟩ | he := complete_cases s t <;> rw [he]
  · unfold State.completeArith
    split
    · rw [setResult_warn]
      split
      · exact .inr ⟨.arithmetic, rfl⟩
      · exact .inl rfl
    · exact .inr ⟨.unresolved, setResult_warn ..⟩
  · unfold State.completeLoad
    split
    · rw [setResult_warn]
      exact (memRead_warn_cases ..).imp id fun h => ⟨_, h⟩
    · exact .inr ⟨.unresolved, setResult_warn ..⟩
  · unfold State.completeStore
    split
    · exact .inl rfl
    · exact .inr ⟨.unresolved, setUnit_warn ..⟩
  · unfold State.completeBranch
    split
    · exact .inl rfl
    · exact .inr ⟨.unresolved, rfl⟩
  · exact .inl rfl

theorem complete_setIn (s : State) (t : Nat) : s.warn.SetIn (s.complete t).warn := by
  obtain h | ⟨a, h⟩ := complete_warn_cases s t <;> rw [h]
  · exact Warnings.SetIn.refl _
  · exact Warnings.setIn_raise _ a

/-! ### Cache and memory -/

theorem cacheInv_congr {s s' : State} (hcfg : s'.cfg = s.cfg) (hmem : s'.mem = s.mem)
    (hlines : s'.lines = s.lines) (h : s.CacheInv) : s'.CacheInv := by
  unfold State.CacheInv
  rw [hcfg, hmem, hlines]
  exact h

/-- R79: a read in or out of bounds keeps cache and memory in agreement. -/
theorem cacheInv_memRead {s : State} (hc : configAdmissible s.cfg = true) (h : s.CacheInv)
    (ea : Word) (w : Width) : (s.memRead ea w).2.CacheInv := by
  by_cases hb : s.accessInBounds ea w.bytes
  · exact memRead_cacheInv hc h hb
  · rw [memRead_outOfBounds hb]
    exact cacheInv_congr rfl rfl rfl h

/-- R79: a write in or out of bounds keeps cache and memory in agreement. -/
theorem cacheInv_memWrite {s : State} (hc : configAdmissible s.cfg = true) (h : s.CacheInv)
    (ea : Word) (w : Width) (v : Word) : (s.memWrite ea w v).CacheInv := by
  by_cases hb : s.accessInBounds ea w.bytes
  · exact memWrite_cacheInv hc h hb v
  · rw [memWrite_outOfBounds v hb]
    exact cacheInv_congr rfl rfl rfl h

/-- R79: a completion keeps cache and memory in agreement; only a load touches the lines. -/
theorem cacheInv_complete {s : State} (hc : configAdmissible s.cfg = true) (h : s.CacheInv)
    (t : Nat) : (s.complete t).CacheInv := by
  have hdone := complete_completedAs s t
  by_cases hload : opcodeClass (s.unit t).op = some .load
  · have hkeep : ∀ (x : State) (v : Word), x.CacheInv → (x.setResult t v).CacheInv :=
      fun x v => cacheInv_congr (by simp) (by simp) (by simp)
    obtain ⟨w, he⟩ : ∃ w, s.complete t = s.completeLoad t w := by
      unfold State.complete
      cases hop : (s.unit t).op <;> rw [hop] at hload <;> cases hload
      case lw => exact ⟨.four, rfl⟩
      case ld => exact ⟨.eight, rfl⟩
    rw [he]
    unfold State.completeLoad
    split
    · exact hkeep _ _ (cacheInv_memRead hc h _ _)
    · exact hkeep _ _ (cacheInv_congr rfl rfl rfl h)
  · exact cacheInv_congr hdone.same.cfg hdone.same.mem (hdone.lines hload) h

/-! ### The defensive check -/

theorem setResult_squashed (s : State) (t : Nat) (v : Word) (u : Nat) :
    ((s.setResult t v).unit u).squashed = (s.unit u).squashed := by
  unfold State.setResult
  rw [unit_setUnit]
  split
  · rename_i h
    rw [h.1]
  · rfl

/-- R176: with its operands resolved a unit sets neither `WARN[2]` nor the squash bit. -/
theorem complete_of_ready {s : State} {t : Nat} (h : (s.unit t).ready = true) :
    ((s.complete t).unit t).squashed = (s.unit t).squashed ∧
      (s.complete t).warn.unresolved = s.warn.unresolved := by
  obtain ⟨a, b, c, hj, hk, hd⟩ := FunctionalUnit.ready_iff.mp h
  obtain ⟨warns, f, he⟩ | ⟨w, -, he⟩ | he | ⟨taken, he⟩ | he := complete_cases s t <;> rw [he]
  · rw [completeArith_of_resolved hj hk, setResult_squashed, setResult_warn]
    split <;> exact ⟨rfl, rfl⟩
  · rw [completeLoad_of_base hj, setResult_squashed, setResult_warn]
    refine ⟨by rw [unit_congr (memRead_units ..)], ?_⟩
    obtain h | h := memRead_warn_cases s (a + (s.unit t).imm) w <;> rw [h]
    rfl
  · rw [completeStore_of_resolved hj hd]
    exact ⟨rfl, rfl⟩
  · rw [completeBranch_of_resolved hj hk]
    exact ⟨rfl, rfl⟩
  · exact ⟨rfl, rfl⟩

end Sys2Proof.Machine
end

section
/-! PROOFS. The countdown of E4 (41_scheduler_and_cdb.md R174 to R178): what it makes of one unit, and what the
countdowns of several units, one after the other, make of each. -/

namespace Sys2Proof.Machine

/-! ### One unit -/

theorem tick_self {s : State} {t : Nat} (h0 : t ≠ 0) (ht : t ≤ s.units.length) :
    (s.tick t).unit t = { s.unit t with remaining := (s.unit t).remaining - 1 } := by
  rw [tick_unit, if_pos ⟨rfl, h0, ht⟩]

/-- R174: a unit with more than one cycle left counts one. -/
theorem countDown_of_running {s : State} {t : Nat} (h0 : t ≠ 0) (ht : t ≤ s.units.length)
    (h : 2 ≤ (s.unit t).remaining) : s.countDown t = s.tick t := by
  obtain ⟨-, he⟩ | ⟨hz, -⟩ := countDown_cases s t
  · exact he
  · rw [tick_self h0 ht] at hz
    simp only at hz
    omega

/-- R174, R178: a unit with at most one cycle left completes and joins `Q_RESULT`. -/
theorem countDown_of_last {s : State} {t : Nat} (h0 : t ≠ 0) (ht : t ≤ s.units.length)
    (h : (s.unit t).remaining ≤ 1) : s.countDown t =
      { (s.tick t).complete t with qExec := s.qExec.erase t, qResult := s.qResult ++ [t] } := by
  obtain ⟨hz, -⟩ | ⟨-, he⟩ := countDown_cases s t
  · rw [tick_self h0 ht] at hz
    simp only at hz
    omega
  · exact he

/-- A countdown completes the unit after the tick, or only ticks. -/
theorem countDown_from_tick (s : State) (t : Nat) : s.countDown t = s.tick t ∨
    s.countDown t =
      { (s.tick t).complete t with qExec := s.qExec.erase t, qResult := s.qResult ++ [t] } :=
  (countDown_cases s t).imp And.right And.right

theorem countDown_setIn (s : State) (t : Nat) : s.warn.SetIn (s.countDown t).warn := by
  obtain he | he := countDown_from_tick s t <;> rw [he]
  · rw [tick_warn]
    exact Warnings.SetIn.refl _
  · have h := complete_setIn (s.tick t) t
    rwa [tick_warn] at h

theorem cacheInv_countDown {s : State} (hc : configAdmissible s.cfg = true) (h : s.CacheInv)
    (t : Nat) : (s.countDown t).CacheInv := by
  have htick : (s.tick t).CacheInv := cacheInv_congr (by simp) (by simp) (by simp) h
  obtain he | he := countDown_from_tick s t <;> rw [he]
  · exact htick
  · exact cacheInv_congr (s := (s.tick t).complete t) rfl rfl rfl
      (cacheInv_complete (by rwa [tick_cfg]) htick t)

/-- R175: a retired unit may be seen from a state with the same configuration, memory and cache invariant, and
up to a state in which no flag is lost and the front end is not stalled again. -/
theorem RetiredAs.mono {s s0 s1 s' : State} {u u' : FunctionalUnit} (h : RetiredAs s0 s1 u u')
    (hcfg : s0.cfg = s.cfg) (hmem : s0.mem = s.mem)
    (hcache : configAdmissible s.cfg = true → s.CacheInv → s0.CacheInv)
    (hwarn : s1.warn.SetIn s'.warn) (hstall : s1.branchStall = false → s'.branchStall = false) :
    RetiredAs s s' u u' := by
  have hvalue : ∀ p n, s0.memoryValue p n = s.memoryValue p n := fun p n => by
    unfold State.memoryValue
    rw [hcfg, hmem]
  have hbounds : ∀ ea n, s0.accessInBounds ea n = s.accessInBounds ea n := fun ea n => by
    unfold State.accessInBounds
    rw [hcfg]
  refine ⟨fun a b v hj hk hv => ?_, fun base n hc hinv hj hop => ?_, h.store,
    fun a b hj hk hb => ?_⟩
  · obtain ⟨hu, hw⟩ := h.arithmetic a b v hj hk (by rwa [hcfg])
    rw [hcfg] at hw
    exact ⟨hu, fun hwarns => hwarn .arithmetic (hw hwarns)⟩
  · have hl := h.load base n (by rwa [hcfg]) (hcache hc hinv) hj hop
    rw [hbounds, hvalue] at hl
    exact ⟨hl.1, fun hb => ⟨(hl.2 hb).1, hwarn .outOfRange (hl.2 hb).2⟩⟩
  · obtain ⟨hu, hs⟩ := h.branch a b hj hk hb
    exact ⟨hu, hstall hs⟩

/-- R175: what the completion of an opcode makes of its unit, whose counter has run out. -/
theorem complete_retiredAs {s : State} {t : Nat} (h0 : t ≠ 0) (ht : t ≤ s.units.length)
    {u : FunctionalUnit} (hu : s.unit t = { u with remaining := 0 }) :
    RetiredAs s (s.complete t) u ((s.complete t).unit t) := by
  have hresult : ∀ (x : State) (v : Word), x.units = s.units →
      (x.setResult t v).unit t = { u with remaining := 0, result := some v } := fun x v hx => by
    refine (unit_setUnit_same x h0 (by rwa [hx]) _).trans ?_
    rw [unit_congr hx t, hu]
  have hop : (s.unit t).op = u.op := by rw [hu]
  have hj' : (s.unit t).j = u.j := by rw [hu]
  have hk' : (s.unit t).k = u.k := by rw [hu]
  have hdata' : (s.unit t).data = u.data := by rw [hu]
  have himm' : (s.unit t).imm = u.imm := by rw [hu]
  refine ⟨fun a b v hj hk hv => ?_, fun base n hc hinv hj hopn => ?_, fun base v hj hd hs => ?_,
    fun a b hj hk hb => ?_⟩
  · rw [complete_arithmetic (hj'.trans hj) (hk'.trans hk) (by rwa [hop]), hop]
    refine ⟨hresult _ v (by split <;> rfl), fun hw => ?_⟩
    rw [if_pos hw, setResult_warn]
    exact isSet_raise_self s.warn .arithmetic
  · obtain ⟨w, rfl, hload⟩ := complete_of_load (op := u.op) (by simpa using hopn)
    have he := (hload s t hop).trans (completeLoad_of_base (hj'.trans hj) w)
    rw [himm'] at he
    refine ⟨fun hb => ?_, fun hb => ?_⟩
    · rw [he, memRead_value hc hinv hb]
      exact hresult _ _ (memRead_units ..)
    · rw [he, memRead_outOfBounds hb]
      refine ⟨hresult _ _ rfl, ?_⟩
      rw [setResult_warn]
      exact isSet_raise_self s.warn .outOfRange
  · have hstore : s.complete t = s.completeStore t := by
      obtain hs | hs := hs
      · exact ((complete_service_of_store (.inl ⟨rfl, rfl⟩)).choose_spec.2 s t (hop.trans hs)).1
      · exact ((complete_service_of_store (.inr ⟨rfl, rfl⟩)).choose_spec.2 s t (hop.trans hs)).1
    rw [hstore, completeStore_of_resolved (hj'.trans hj) (hdata'.trans hd), hu]
  · have hcases : u.op = .beq ∨ u.op = .bne := by
      cases hc : u.op <;> rw [hc] at hb <;> simp [isBranch] at hb ⊢
    obtain hc | hc := hcases
    · rw [complete_beq (hj'.trans hj) (hk'.trans hk) (hop.trans hc)]
      exact ⟨hu, rfl⟩
    · rw [complete_bne (hj'.trans hj) (hk'.trans hk) (hop.trans hc)]
      exact ⟨hu, rfl⟩

/-- R174, R175: what the countdown of a unit with at most one cycle left makes of it. -/
theorem countDown_retiredAs {s : State} {t : Nat} (h0 : t ≠ 0) (ht : t ≤ s.units.length)
    (h : (s.unit t).remaining ≤ 1) :
    RetiredAs s (s.countDown t) (s.unit t) ((s.countDown t).unit t) := by
  rw [countDown_of_last h0 ht h]
  have hu : (s.tick t).unit t = { s.unit t with remaining := 0 } := by
    rw [tick_self h0 ht, Nat.sub_eq_zero_of_le h]
  have hlen : t ≤ (s.tick t).units.length := by simpa [State.tick] using ht
  exact (complete_retiredAs h0 hlen hu).mono (by simp) (by simp)
    (fun _ => cacheInv_congr (by simp) (by simp) (by simp)) (Warnings.SetIn.refl _) id

/-- R262 to R264: whether the unit is a branch that its operands take. -/
def FunctionalUnit.Takes (u : FunctionalUnit) : Prop :=
  ∃ a b, u.j = .resolved a ∧ u.k = .resolved b ∧ (u.op = .beq ∧ a = b ∨ u.op = .bne ∧ a ≠ b)

theorem takes_iff_of_resolved {u : FunctionalUnit} {a b : Word} (hj : u.j = .resolved a)
    (hk : u.k = .resolved b) : u.Takes ↔ u.op = .beq ∧ a = b ∨ u.op = .bne ∧ a ≠ b := by
  constructor
  · rintro ⟨a', b', hj', hk', h⟩
    rw [hj] at hj'
    rw [hk] at hk'
    cases hj'
    cases hk'
    exact h
  · exact fun h => ⟨a, b, hj, hk, h⟩

theorem FunctionalUnit.Takes.isBranch {u : FunctionalUnit} (h : u.Takes) : isBranch u.op = true := by
  obtain ⟨a, b, -, -, ⟨h, -⟩ | ⟨h, -⟩⟩ := h <;> rw [h] <;> rfl

/-- R175, R262: the pc after a completion: the target of a branch that is taken, else as before. -/
theorem complete_pc (s : State) (t : Nat) : (s.complete t).pc = s.pc ∧ ¬ (s.unit t).Takes ∨
    (s.complete t).pc = (s.unit t).target ∧ (s.unit t).Takes := by
  by_cases hres : ∃ a b, (s.unit t).j = .resolved a ∧ (s.unit t).k = .resolved b
  · obtain ⟨a, b, hj, hk⟩ := hres
    rw [takes_iff_of_resolved hj hk]
    by_cases hbeq : (s.unit t).op = .beq
    · rw [complete_beq hj hk hbeq, hbeq]
      by_cases hab : a = b <;> simp [hab]
    by_cases hbne : (s.unit t).op = .bne
    · rw [complete_bne hj hk hbne, hbne]
      by_cases hab : a = b <;> simp [hab]
    · have hb : isBranch (s.unit t).op = false := by
        cases hop : (s.unit t).op <;> simp [isBranch, hop] at hbeq hbne ⊢
      exact .inl ⟨(complete_completedAs s t).pc hb, by simp [hbeq, hbne]⟩
  · have hnot : ¬ (s.unit t).Takes := fun ⟨a, b, hj, hk, _⟩ => hres ⟨a, b, hj, hk⟩
    refine .inl ⟨?_, hnot⟩
    by_cases hb : isBranch (s.unit t).op = true
    · obtain ⟨taken, he⟩ : ∃ taken, s.complete t = s.completeBranch t taken := by
        unfold State.complete
        cases hop : (s.unit t).op <;> rw [hop] at hb <;> simp [isBranch] at hb
        case beq => exact ⟨takenBeq, rfl⟩
        case bne => exact ⟨takenBne, rfl⟩
      rw [he]
      unfold State.completeBranch
      split
      · rename_i a b hj hk
        exact absurd ⟨a, b, hj, hk⟩ hres
      · rfl
    · exact (complete_completedAs s t).pc (by simpa using hb)

/-- R174, R262: the pc after a countdown. -/
theorem countDown_pc (s : State) (t : Nat) : (s.countDown t).pc = s.pc ∨
    (s.unit t).remaining ≤ 1 ∧ (s.unit t).Takes ∧ (s.countDown t).pc = (s.unit t).target := by
  obtain ⟨-, he⟩ | ⟨hz, he⟩ := countDown_cases s t
  · exact .inl (by rw [he, tick_pc])
  · have hsame : (s.tick t).unit t =
        { s.unit t with remaining := ((s.tick t).unit t).remaining } := by
      rw [tick_unit]
      split <;> rfl
    have htakes : ((s.tick t).unit t).Takes ↔ (s.unit t).Takes := by
      rw [hsame]
      exact Iff.rfl
    obtain ⟨hpc, -⟩ | ⟨hpc, ht⟩ := complete_pc (s.tick t) t
    · exact .inl (by rw [he]; exact hpc.trans (tick_pc ..))
    · refine .inr ⟨?_, htakes.mp ht, ?_⟩
      · rw [tick_unit] at hz
        split at hz
        · simp only at hz
          omega
        · omega
      · rw [he]
        exact hpc.trans (by rw [hsame])

/-! ### Several units -/

section
variable {l : List Nat} {s : State}

theorem foldl_countDown_unit {u : Nat} (hu : u ∉ l) :
    (l.foldl State.countDown s).unit u = s.unit u := by
  induction l generalizing s with
  | nil => rfl
  | cons t l ih =>
    rw [List.mem_cons, not_or] at hu
    exact (ih hu.2).trans ((countDown_countedDown s t).otherUnits u hu.1)

theorem foldl_countDown_length (l : List Nat) (s : State) :
    (l.foldl State.countDown s).units.length = s.units.length :=
  (countDownAll_frame l s).2.2.2.2.1

theorem foldl_countDown_setIn (l : List Nat) (s : State) :
    s.warn.SetIn (l.foldl State.countDown s).warn := by
  induction l generalizing s with
  | nil => exact Warnings.SetIn.refl _
  | cons t l ih => exact (countDown_setIn s t).trans (ih _)

theorem cacheInv_foldl_countDown (hc : configAdmissible s.cfg = true) (h : s.CacheInv)
    (l : List Nat) : (l.foldl State.countDown s).CacheInv := by
  induction l generalizing s with
  | nil => exact h
  | cons t l ih =>
    exact ih (by rwa [(countDown_countedDown s t).cfg]) (cacheInv_countDown hc h t)

/-- R174: in a list without repetition, each unit meets its countdown as it stood before all of them, and keeps
what that countdown made of it. -/
theorem foldl_countDown_split (hnodup : l.Nodup) {t : Nat} (ht : t ∈ l) :
    ∃ before after, l = before ++ t :: after ∧
      (before.foldl State.countDown s).unit t = s.unit t ∧
      (l.foldl State.countDown s).unit t =
        ((before.foldl State.countDown s).countDown t).unit t := by
  obtain ⟨before, after, rfl⟩ := List.append_of_mem ht
  rw [List.nodup_append] at hnodup
  obtain ⟨-, hafter, hdisj⟩ := hnodup
  refine ⟨before, after, rfl, foldl_countDown_unit fun hb => hdisj t hb t (by simp) rfl, ?_⟩
  rw [List.foldl_append, List.foldl_cons]
  exact foldl_countDown_unit (List.nodup_cons.mp hafter).1

/-- R174, R177: `Q_EXEC` keeps the units with more than one cycle left, `Q_RESULT` takes the others in order. -/
theorem foldl_countDown_queues (hnodup : l.Nodup) (hexec : s.qExec.Nodup)
    (hrange : ∀ t ∈ l, t ≠ 0 ∧ t ≤ s.units.length) :
    (l.foldl State.countDown s).qExec =
      s.qExec.filter (fun t => decide (t ∉ l ∨ 2 ≤ (s.unit t).remaining)) ∧
    (l.foldl State.countDown s).qResult =
      s.qResult ++ l.filter (fun t => decide ((s.unit t).remaining ≤ 1)) := by
  induction l generalizing s with
  | nil => simp
  | cons x l ih =>
    obtain ⟨hx, hnodup⟩ := List.nodup_cons.mp hnodup
    obtain ⟨hx0, hxpool⟩ := hrange x (by simp)
    have hdown := countDown_countedDown s x
    have hunit : ∀ t, t ∈ l → (s.countDown x).unit t = s.unit t := fun t ht =>
      hdown.otherUnits t fun he => hx (he ▸ ht)
    have hrange' : ∀ t ∈ l, t ≠ 0 ∧ t ≤ (s.countDown x).units.length := fun t ht => by
      rw [hdown.length]
      exact hrange t (by simp [ht])
    have hresult : l.filter (fun t => decide (((s.countDown x).unit t).remaining ≤ 1)) =
        l.filter (fun t => decide ((s.unit t).remaining ≤ 1)) :=
      List.filter_congr fun t ht => by rw [hunit t ht]
    rw [List.foldl_cons]
    by_cases hlast : (s.unit x).remaining ≤ 1
    · have he := countDown_of_last hx0 hxpool hlast
      have hq : (s.countDown x).qExec = s.qExec.filter (fun t => t != x) := by
        rw [he]
        exact hexec.erase_eq_filter x
      have hr : (s.countDown x).qResult = s.qResult ++ [x] := by rw [he]
      obtain ⟨iexec, iresult⟩ := ih hnodup (by rw [hq]; exact hexec.filter _) hrange'
      rw [iexec, iresult, hresult, hq, hr, List.filter_filter, List.append_assoc]
      refine ⟨List.filter_congr fun t _ => ?_, by simp [hlast]⟩
      by_cases htx : t = x
      · simp [htx, hlast]
      · by_cases htl : t ∈ l <;> simp [htx, htl, hunit]
    · have he := countDown_of_running hx0 hxpool (by omega)
      have hq : (s.countDown x).qExec = s.qExec := by rw [he, tick_qExec]
      have hr : (s.countDown x).qResult = s.qResult := by rw [he, tick_qResult]
      obtain ⟨iexec, iresult⟩ := ih hnodup (by rwa [hq]) hrange'
      rw [iexec, iresult, hresult, hq, hr]
      refine ⟨List.filter_congr fun t _ => ?_, by simp [hlast]⟩
      by_cases htx : t = x
      · simp [htx, hx, show 2 ≤ (s.unit x).remaining by omega]
      · by_cases htl : t ∈ l <;> simp [htx, htl, hunit]

/-- R174, R175: each unit with at most one cycle left is retired as if it completed alone. -/
theorem foldl_countDown_retiredAs (hnodup : l.Nodup) {t : Nat} (ht : t ∈ l) (h0 : t ≠ 0)
    (hpool : t ≤ s.units.length) (hlast : (s.unit t).remaining ≤ 1) :
    RetiredAs s (l.foldl State.countDown s) (s.unit t) ((l.foldl State.countDown s).unit t) := by
  obtain ⟨before, after, rfl, hbefore, hafter⟩ := foldl_countDown_split (s := s) hnodup ht
  have hdone := countDown_retiredAs (s := before.foldl State.countDown s) h0
    (by rwa [foldl_countDown_length]) (by rwa [hbefore])
  rw [hbefore, ← hafter] at hdone
  obtain ⟨hcfg, -, -, -, -, -, -, hmem, -⟩ := countDownAll_frame before s
  refine hdone.mono hcfg hmem (fun hc h => cacheInv_foldl_countDown hc h before) ?_ ?_
  · rw [List.foldl_append, List.foldl_cons]
    exact foldl_countDown_setIn after _
  · rw [List.foldl_append, List.foldl_cons]
    obtain ⟨-, -, -, -, -, -, -, -, hstall, -⟩ :=
      countDownAll_frame after ((before.foldl State.countDown s).countDown t)
    exact hstall

/-- R262: the countdowns move the pc to the target of a branch that is taken and completes, or not at all. -/
theorem foldl_countDown_pc (hnodup : l.Nodup) : (l.foldl State.countDown s).pc = s.pc ∨
    ∃ t ∈ l, (s.unit t).remaining ≤ 1 ∧ (s.unit t).Takes ∧
      (l.foldl State.countDown s).pc = (s.unit t).target := by
  induction l generalizing s with
  | nil => exact .inl rfl
  | cons x l ih =>
    obtain ⟨hx, hnodup⟩ := List.nodup_cons.mp hnodup
    rw [List.foldl_cons]
    obtain hpc | ⟨t, ht, hlast, htakes, hpc⟩ := ih (s := s.countDown x) hnodup
    · rw [hpc]
      exact (countDown_pc s x).imp id fun h => ⟨x, by simp, h⟩
    · have hunit : (s.countDown x).unit t = s.unit t :=
        (countDown_countedDown s x).otherUnits t fun he => hx (he ▸ ht)
      rw [hunit] at hlast htakes hpc
      exact .inr ⟨t, by simp [ht], hlast, htakes, hpc⟩

/-- R175: units that are not branches leave the pc alone. -/
theorem foldl_countDown_pc_of_no_branch
    (hno : ∀ t ∈ l, isBranch (s.unit t).op = false) :
    (l.foldl State.countDown s).pc = s.pc := by
  induction l generalizing s with
  | nil => rfl
  | cons x l ih =>
    have hdown := countDown_countedDown s x
    have hx : (s.countDown x).pc = s.pc := by
      obtain ⟨-, -, -, -, hpc⟩ | ⟨-, -, -, hpc, -⟩ := hdown.moved
      · exact hpc
      · exact hpc (hno x (by simp))
    refine (ih fun t ht => ?_).trans hx
    rw [(countDown_sameRequest s x t).op]
    exact hno t (by simp [ht])

end

/-- R262: the only branch of the list decides the pc alone. -/
theorem foldl_countDown_pc_of_only {l : List Nat} {s : State} (hnodup : l.Nodup) {t : Nat}
    (ht : t ∈ l) (h0 : t ≠ 0) (hpool : t ≤ s.units.length) (hlast : (s.unit t).remaining ≤ 1)
    (honly : ∀ u ∈ l, isBranch (s.unit u).op = true → u = t) :
    (l.foldl State.countDown s).pc = s.pc ∧ ¬ (s.unit t).Takes ∨
      (l.foldl State.countDown s).pc = (s.unit t).target ∧ (s.unit t).Takes := by
  obtain ⟨before, after, rfl, hbefore, -⟩ := foldl_countDown_split (s := s) hnodup ht
  have hother : ∀ u ∈ before ++ after, isBranch (s.unit u).op = false := fun u hu => by
    by_contra hb
    have hut : u = t := honly u (by simp only [List.mem_append, List.mem_cons] at hu ⊢; tauto)
      (by simpa using hb)
    have := List.nodup_middle.mp hnodup
    exact (List.nodup_cons.mp this).1 (hut ▸ hu)
  set s1 := before.foldl State.countDown s
  have hpc1 : s1.pc = s.pc :=
    foldl_countDown_pc_of_no_branch fun u hu => hother u (List.mem_append_left _ hu)
  have hpc2 : (after.foldl State.countDown (s1.countDown t)).pc = (s1.countDown t).pc := by
    refine foldl_countDown_pc_of_no_branch fun u hu => ?_
    rw [(countDown_sameRequest s1 t u).op, (foldl_countDown_sameRequest before s u).op]
    exact hother u (List.mem_append_right _ hu)
  have hunit : (s1.tick t).unit t = { s.unit t with remaining := 0 } := by
    rw [tick_self h0 (by rwa [foldl_countDown_length]), hbefore, Nat.sub_eq_zero_of_le hlast]
  have htakes : ((s1.tick t).unit t).Takes ↔ (s.unit t).Takes := by
    rw [hunit]
    exact Iff.rfl
  rw [List.foldl_append, List.foldl_cons, hpc2,
    countDown_of_last h0 (by rwa [foldl_countDown_length]) (by rwa [hbefore]), ← htakes]
  have hdone := complete_pc (s1.tick t) t
  rw [tick_pc, hpc1] at hdone
  exact hdone.imp id (And.imp_left fun h => h.trans (by rw [hunit]))

/-! ### The Execute phase -/

theorem dispatched_length (s : State) : s.dispatched.units.length = s.units.length :=
  (dispatchAll_spec (s.readyIssued ++ s.classify.readyWaiters) s.classify.wake).2.1

section
variable {s : State} (hnodup : s.dispatched.qExec.Nodup)
  (hrange : ∀ t ∈ s.dispatched.qExec, t ≠ 0 ∧ t ≤ s.units.length)
include hnodup

/-- R262: the Execute phase moves the pc to the target of a branch that is taken and completes, or not at all. -/
theorem execute_pc_cases : s.execute.pc = s.pc ∨
    ∃ t ∈ s.dispatched.qExec, (s.dispatched.unit t).remaining ≤ 1 ∧ (s.dispatched.unit t).Takes ∧
      s.execute.pc = (s.dispatched.unit t).target := by
  have hpc : s.dispatched.pc = s.pc := by rw [dispatched_frame]; rfl
  rw [← hpc]
  exact foldl_countDown_pc hnodup

include hrange

theorem execute_qExec : s.execute.qExec =
    s.dispatched.qExec.filter (fun t => decide (2 ≤ (s.dispatched.unit t).remaining)) := by
  have h := (foldl_countDown_queues hnodup hnodup (by rwa [dispatched_length])).1
  exact h.trans (List.filter_congr fun t ht => by simp [ht])

theorem execute_qResult : s.execute.qResult = s.qResult ++
    s.dispatched.qExec.filter (fun t => decide ((s.dispatched.unit t).remaining ≤ 1)) := by
  have hresult : s.dispatched.qResult = s.qResult := by rw [dispatched_frame]; rfl
  have h := (foldl_countDown_queues hnodup hnodup (by rwa [dispatched_length])).2
  rwa [hresult] at h

theorem execute_unit_of_running {t : Nat} (ht : t ∈ s.execute.qExec) : s.execute.unit t =
    { s.dispatched.unit t with remaining := (s.dispatched.unit t).remaining - 1 } := by
  rw [execute_qExec hnodup hrange, List.mem_filter, decide_eq_true_eq] at ht
  obtain ⟨before, after, -, hbefore, hafter⟩ :=
    foldl_countDown_split (s := s.dispatched) hnodup ht.1
  obtain ⟨h0, hpool⟩ := hrange t ht.1
  have hpool' : t ≤ (before.foldl State.countDown s.dispatched).units.length := by
    rwa [foldl_countDown_length, dispatched_length]
  refine hafter.trans ?_
  rw [countDown_of_running h0 hpool' (by rw [hbefore]; exact ht.2), tick_self h0 hpool', hbefore]

theorem execute_retiredAs {t : Nat} (ht : t ∈ s.dispatched.qExec)
    (hlast : (s.dispatched.unit t).remaining ≤ 1) :
    RetiredAs s s.execute (s.dispatched.unit t) (s.execute.unit t) := by
  obtain ⟨h0, hpool⟩ := hrange t ht
  have hcfg : s.dispatched.cfg = s.cfg := by rw [dispatched_frame]; rfl
  have hmem : s.dispatched.mem = s.mem := by rw [dispatched_frame]; rfl
  have hlines : s.dispatched.lines = s.lines := by rw [dispatched_frame]; rfl
  exact (foldl_countDown_retiredAs hnodup ht h0 (by rwa [dispatched_length]) hlast).mono hcfg hmem
    (fun _ => cacheInv_congr hcfg hmem hlines) (Warnings.SetIn.refl _) id

/-- R262: the only branch in `Q_EXEC` decides the pc alone, when it completes. -/
theorem execute_pc_of_only {t : Nat} (ht : t ∈ s.dispatched.qExec)
    (hlast : (s.dispatched.unit t).remaining ≤ 1)
    (honly : ∀ u ∈ s.dispatched.qExec, isBranch (s.dispatched.unit u).op = true → u = t) :
    s.execute.pc = s.pc ∧ ¬ (s.dispatched.unit t).Takes ∨
      s.execute.pc = (s.dispatched.unit t).target ∧ (s.dispatched.unit t).Takes := by
  obtain ⟨h0, hpool⟩ := hrange t ht
  have hpc : s.dispatched.pc = s.pc := by rw [dispatched_frame]; rfl
  rw [← hpc]
  exact foldl_countDown_pc_of_only hnodup ht h0 (by rwa [dispatched_length]) hlast honly

end

end Sys2Proof.Machine

namespace Sys2Proof
open Machine

/-- Settles O41: the countdowns of E4 over the units that E1 to E3 leave in `Q_EXEC`. -/
theorem latencyCountsDown : Obligations.LatencyCountsDown := by
  intro s hnodup hrange
  obtain ⟨-, -, hgpr, hfpr, -, -, -, hmem⟩ := execute_frame s
  have hpc := execute_pc_cases hnodup
  refine ⟨execute_qExec hnodup hrange, execute_qResult hnodup hrange,
    fun t ht => execute_unit_of_running hnodup hrange ht, fun r => reg_congr hgpr hfpr r, hmem,
    hpc.imp id ?_, fun hno => hpc.resolve_right ?_,
    fun t ht hlast => ⟨execute_retiredAs hnodup hrange ht hlast, fun a b hj hk honly => ?_⟩⟩
  · rintro ⟨t, ht, hlast, ⟨a, b, hj, hk, htakes⟩, htarget⟩
    exact ⟨t, ht, hlast, htarget, a, b, hj, hk, htakes⟩
  · rintro ⟨t, ht, hlast, htakes, -⟩
    exact ne_true_of_eq_false (hno t ht hlast) htakes.isBranch
  · have honly := execute_pc_of_only hnodup hrange ht hlast honly
    rw [takes_iff_of_resolved hj hk] at honly
    obtain ⟨h, hnot⟩ | ⟨h, hyes⟩ := honly
    · rw [if_neg hnot]
      exact h
    · rw [if_pos hyes]
      exact h

end Sys2Proof
end

section
/-! PROOFS. The invariant (10_state.md R30, R36, 20_memory.md R79): each sub-step of a cycle keeps it, so every step
does, and the defensive check of R176 never fires. -/

namespace Sys2Proof.Machine

/-! ### What the invariant says of one tag -/

theorem State.Outstanding.mem_queued {s : State} {t : Nat} (h : s.Outstanding t) : t ∈ s.queued :=
  List.mem_append_left _ h.2

/-- R36 item 1: a tag of `Q_CLEAR` is in no other queue. -/
theorem State.QueueInv.not_mem_qClear {s : State} (h : s.QueueInv) {t : Nat}
    (ht : t ∈ s.qTbe ++ s.qWait ++ s.qExec ++ s.qResult) : t ∉ s.qClear := fun hc =>
  (List.nodup_append.mp h.once).2.2 t ht t hc rfl

theorem State.QueueInv.range {s : State} (h : s.QueueInv) {t : Nat} (ht : t ∈ s.queued) :
    t ≠ 0 ∧ t ≤ s.units.length := busy_range ((h.busyIff t).mpr ht)

theorem ready_iff_waits_on_nothing {u : FunctionalUnit} :
    u.ready = true ↔ ∀ t, ¬ u.waitsOn t := by
  have hslot : ∀ o : Operand, o.isResolved = true ↔ ∀ t, o ≠ .pending t := by
    intro o
    cases o <;> simp [Operand.isResolved]
  simp only [FunctionalUnit.ready, FunctionalUnit.waitsOn, Bool.and_eq_true, hslot, not_or]
  exact ⟨fun h t => ⟨h.1.1 t, h.1.2 t, h.2 t⟩,
    fun h => ⟨⟨fun t => (h t).1, fun t => (h t).2.1⟩, fun t => (h t).2.2⟩⟩

/-- R36 item 5: a unit outside `Q_TBE` and `Q_WAIT` has its operands. -/
theorem State.DependencyInv.ready {s : State} (h : s.DependencyInv) {u : Nat}
    (hu : u ∉ s.qTbe ++ s.qWait) : (s.unit u).ready = true :=
  ready_iff_waits_on_nothing.mpr fun t hw => hu (h.slots u t hw).1

theorem State.QueueInv.ready_of_mem_qExec {s : State} (hq : s.QueueInv) (hd : s.DependencyInv) {t : Nat}
    (ht : t ∈ s.qExec) : (s.unit t).ready = true := by
  refine hd.ready fun hw => ?_
  have honce := hq.once
  unfold State.queued at honce
  rw [List.append_assoc, List.append_assoc] at honce
  exact (List.nodup_append.mp honce).2.2 t hw t (by simp [ht]) rfl

/-! ### Units that change queue -/

/-- What keeps the invariant when units change queue or execute, and no unit is taken or freed. -/
structure Requeued (s s' : State) : Prop where
  cfg : s'.cfg = s.cfg
  imem : s'.imem = s.imem
  gpr : s'.gpr = s.gpr
  fpr : s'.fpr = s.fpr
  length : s'.units.length = s.units.length
  cache : s'.CacheInv
  unit : ∀ u, SameRequest (s.unit u) (s'.unit u)
  squashed : ∀ u, (s'.unit u).squashed = (s.unit u).squashed
  free : ∀ u, (s.unit u).busy = false → s'.unit u = s.unit u
  clear : s'.qClear = s.qClear
  active : (s'.qTbe ++ s'.qWait ++ s'.qExec ++ s'.qResult).Perm
    (s.qTbe ++ s.qWait ++ s.qExec ++ s.qResult)
  oneIssued : s'.qTbe.length ≤ 1
  waiting : ∀ u t, (s.unit u).waitsOn t → u ∈ s.qTbe ++ s.qWait → u ∈ s'.qTbe ++ s'.qWait
  results : ∀ t ∈ s'.qResult, hasDest (s.unit t).op = true → (s'.unit t).result ≠ none
  branch : s'.BranchInv

theorem State.Inv.requeued {s s' : State} (h : s.Inv) (r : Requeued s s') : s'.Inv := by
  have hqueued : s'.queued.Perm s.queued := by
    unfold State.queued
    rw [r.clear]
    exact r.active.append_right _
  have hout : ∀ t, s.Outstanding t → s'.Outstanding t := fun t ht =>
    ⟨by rw [(r.unit t).op]; exact ht.1, r.active.mem_iff.mpr ht.2⟩
  have hreg : ∀ x, s'.reg x = s.reg x := reg_congr r.gpr r.fpr
  refine ⟨?_, ⟨?_, ?_, ?_, ?_⟩, r.cache, ⟨?_, fun t => ?_, fun t ht => ?_, r.oneIssued⟩,
    ⟨fun t ht => ?_, fun x hx => ?_, fun u t hw => ?_, fun t ht hd => ?_, fun t => ?_⟩, r.branch⟩
  · unfold State.admission
    rw [r.cfg, r.imem]
    exact h.admitted
  · rw [r.gpr, r.cfg]; exact h.shaped.gprSize
  · rw [r.fpr, r.cfg]; exact h.shaped.fprSize
  · rw [r.length, r.cfg]; exact h.shaped.unitsSize
  · exact r.cache.linesSize
  · exact hqueued.nodup_iff.mpr h.queue.once
  · rw [(r.unit t).busy, hqueued.mem_iff]
    exact h.queue.busyIff t
  · rw [(r.unit t).busy] at ht
    rw [r.free t ht]
    exact h.queue.freeReset t ht
  · rw [(r.unit t).op, r.cfg]
    exact h.dependency.ownClass t (hqueued.mem_iff.mp ht)
  · rw [hreg] at hx ⊢
    exact hout _ (h.dependency.producers x hx)
  · rw [(r.unit u).waitsOn] at hw
    obtain ⟨hu, ht⟩ := h.dependency.slots u t hw
    exact ⟨r.waiting u t hw hu, hout t ht⟩
  · rw [(r.unit t).op] at hd
    exact r.results t ht hd
  · rw [r.squashed]
    exact h.dependency.unsquashed t

/-- The invariant reads neither the pc, the flags, the bus nor the cycle count. -/
theorem State.Inv.congr {s s' : State} (h : s.Inv) (hcfg : s'.cfg = s.cfg) (himem : s'.imem = s.imem)
    (hgpr : s'.gpr = s.gpr) (hfpr : s'.fpr = s.fpr) (hunits : s'.units = s.units)
    (htbe : s'.qTbe = s.qTbe) (hwait : s'.qWait = s.qWait) (hexec : s'.qExec = s.qExec)
    (hresult : s'.qResult = s.qResult) (hclear : s'.qClear = s.qClear)
    (hstall : s'.branchStall = s.branchStall) (hlines : s'.lines = s.lines)
    (hmem : s'.mem = s.mem) : s'.Inv := by
  have hunit : ∀ t, s'.unit t = s.unit t := unit_congr hunits
  refine State.Inv.requeued h ⟨hcfg, himem, hgpr, hfpr, by rw [hunits],
    cacheInv_congr hcfg hmem hlines h.cache, fun u => by rw [hunit]; exact SameRequest.refl _,
    fun u => by rw [hunit], fun u _ => hunit u, hclear, by rw [htbe, hwait, hexec, hresult],
    by rw [htbe]; exact h.queue.oneIssued, fun u t _ hu => by rw [htbe, hwait]; exact hu,
    fun t ht hd => ?_, ?_⟩
  · rw [hunit]
    exact h.dependency.results t (by rwa [← hresult]) hd
  · have hb := h.branch
    unfold State.BranchInv at hb ⊢
    simp only [htbe, hwait, hexec, hstall, hunit]
    exact hb

/-! ### Writeback -/

/-- R165, R36 item 7: the oldest result, when something may wait for it, is what the bus shows. -/
theorem bus_of_outstanding {s : State} (h : s.Inv) {t : Nat} (hhead : s.qResult.head? = some t)
    (hd : hasDest (s.unit t).op = true) :
    ∃ v, (s.unit t).result = some v ∧ s.writeback.busEvent = some (t, v) := by
  have hmem : t ∈ s.qResult := List.mem_of_mem_head? hhead
  obtain ⟨v, hv⟩ := Option.ne_none_iff_exists'.mp (h.dependency.results t hmem hd)
  have hclear := h.queue.not_mem_qClear (t := t) (by simp [hmem])
  exact ⟨v, hv, ((writeback_spec s).bus t v).mpr
    ⟨hhead, hclear, published_eq_some_iff.mpr ⟨hd, hv⟩⟩⟩

/-- R163: the queues after the Writeback phase, as one list, are those before it without `Q_CLEAR`. -/
theorem writeback_queued (s : State) : s.writeback.queued.Perm
    (s.qTbe ++ s.qWait ++ s.qExec ++ s.qResult) := by
  have hw := writeback_spec s
  unfold State.queued
  rw [hw.tbe, hw.wait, hw.exec, hw.result, hw.clear, List.append_assoc]
  refine List.Perm.append_left _ ?_
  exact List.perm_append_comm.trans (by rw [List.take_append_drop])

/-- R36 item 4: what something may wait on outlives the Writeback phase unless it is published in it. -/
theorem writeback_outstanding {s : State} (h : s.Inv) {t : Nat} (ht : s.Outstanding t)
    (hbus : ∀ v, s.writeback.busEvent ≠ some (t, v)) : s.writeback.Outstanding t := by
  have hw := writeback_spec s
  obtain ⟨hd, hmem⟩ := ht
  refine ⟨?_, ?_⟩
  · rw [hw.unit t, if_neg (h.queue.not_mem_qClear hmem), hear_op]
    exact hd
  · rw [hw.tbe, hw.wait, hw.exec, hw.result]
    cases hr : s.qResult with
    | nil => simpa [hr] using hmem
    | cons x rest =>
      have hne : t ≠ x := by
        rintro rfl
        obtain ⟨v, -, hv⟩ := bus_of_outstanding h (by rw [hr]; rfl) hd
        exact hbus v hv
      simpa [hr, hne] using hmem

theorem writeback_cacheInv {s : State} (hc : configAdmissible s.cfg = true) (h : s.CacheInv) :
    s.writeback.CacheInv := by
  obtain ⟨hcfg, -⟩ := writeback_frame s
  obtain ⟨-, hmem, hlines, -⟩ | ⟨t, ea, w, v, -, -, hmem, hlines, -⟩ := writeback_storeWritten s
  · exact cacheInv_congr hcfg hmem hlines h
  · exact cacheInv_congr (hcfg.trans (memWrite_cfg ..).symm) hmem hlines
      (cacheInv_memWrite hc h ea w v)

/-- R163 to R168 keep the invariant. -/
theorem State.Inv.writeback {s : State} (h : s.Inv) : s.writeback.Inv := by
  have hw := writeback_spec s
  obtain ⟨hcfg, himem, -, hstall, hgpr, hfpr, hlen, -⟩ := writeback_frame s
  have hqueued := writeback_queued s
  have hcache := writeback_cacheInv (configAdmissible_of_admission h.admitted) h.cache
  have hkept : ∀ t, t ∉ s.qClear → s.writeback.unit t = (s.unit t).hear s.writeback.busEvent :=
    fun t ht => by rw [hw.unit t, if_neg ht]
  have hqueue : s.writeback.QueueInv := by
    refine ⟨hqueued.nodup_iff.mpr (List.nodup_append.mp h.queue.once).1, fun t => ?_, fun t ht => ?_,
      by rw [hw.tbe]; exact h.queue.oneIssued⟩
    · rw [writeback_unit_busy_iff, h.queue.busyIff, hqueued.mem_iff, State.queued, List.mem_append]
      have := h.queue.not_mem_qClear (t := t)
      tauto
    · rw [hw.unit t] at ht ⊢
      by_cases hc : t ∈ s.qClear
      · rw [if_pos hc]
      · rw [if_neg hc] at ht ⊢
        rw [hear_busy] at ht
        rw [hear_of_free ht]
        exact h.queue.freeReset t ht
  refine ⟨?_, ⟨?_, ?_, ?_, hcache.linesSize⟩, hcache, hqueue,
    ⟨fun t ht => ?_, fun r hr => ?_, fun u t hwait => ?_, fun t ht hd => ?_, fun t => ?_⟩, ?_⟩
  · unfold State.admission
    rw [hcfg, himem]
    exact h.admitted
  · rw [hgpr, hcfg]; exact h.shaped.gprSize
  · rw [hfpr, hcfg]; exact h.shaped.fprSize
  · rw [hlen, hcfg]; exact h.shaped.unitsSize
  · have hmem := hqueued.mem_iff.mp ht
    rw [hkept t (h.queue.not_mem_qClear hmem), hear_op, hcfg]
    exact h.dependency.ownClass t (List.mem_append_left _ hmem)
  · rw [hw.reg r] at hr ⊢
    obtain ⟨hsame, hbus⟩ := hear_producer hr
    rw [hsame] at hr ⊢
    exact writeback_outstanding h (h.dependency.producers r hr) hbus
  · by_cases hc : u ∈ s.qClear
    · rw [hw.unit u, if_pos hc] at hwait
      simp [FunctionalUnit.waitsOn, FunctionalUnit.reset] at hwait
    · rw [hkept u hc] at hwait
      have hslot : (s.unit u).waitsOn t ∧ ∀ v, s.writeback.busEvent ≠ some (t, v) := by
        cases he : s.writeback.busEvent with
        | none =>
          rw [he] at hwait
          exact ⟨hwait, nofun⟩
        | some x =>
          rw [he] at hwait
          have hbusy : (s.unit u).busy = true := by
            by_contra hfree
            have hfree : (s.unit u).busy = false := by simpa using hfree
            rw [hear_of_free hfree, h.queue.freeReset u hfree] at hwait
            simp [FunctionalUnit.waitsOn, FunctionalUnit.reset] at hwait
          obtain ⟨hwas, hne⟩ := (deliver_waitsOn_iff hbusy).mp hwait
          refine ⟨hwas, fun v hv => hne ?_⟩
          rw [Option.some.inj hv]
      obtain ⟨hu, ht⟩ := h.dependency.slots u t hslot.1
      rw [hw.tbe, hw.wait]
      exact ⟨hu, writeback_outstanding h ht hslot.2⟩
  · rw [hw.result] at ht
    have hmem := List.mem_of_mem_drop ht
    rw [hkept t (h.queue.not_mem_qClear (by simp [hmem]))] at hd ⊢
    rw [hear_op] at hd
    rw [hear_result]
    exact h.dependency.results t hmem hd
  · rw [hw.unit t]
    split
    · rfl
    · rw [hear_squashed]
      exact h.dependency.unsquashed t
  · have hb := h.branch
    unfold State.BranchInv at hb ⊢
    rw [hw.tbe, hw.wait, hw.exec, hstall, ← hb]
    congr 1
    refine List.filter_congr fun t ht => ?_
    rw [hkept t (h.queue.not_mem_qClear (List.mem_append_left _ ht)), hear_op]

theorem writeback_unresolved (s : State) : s.writeback.warn.unresolved = s.warn.unresolved := by
  obtain ⟨-, -, -, hwarn⟩ | ⟨t, ea, w, v, -, -, -, -, hwarn⟩ := writeback_storeWritten s
  · rw [hwarn]
  · obtain h | h := memWrite_warn_cases s ea w v <;> rw [hwarn, h]
    rfl

/-! ### Execute -/

theorem dispatched_qWait (s : State) :
    s.dispatched.qWait = (s.qWait ++ s.qTbe).filter fun t => !s.isReady t := by
  obtain ⟨-, -, -, -, -, -, hcount, -⟩ := countDownAll_frame s.dispatched.qExec s.dispatched
  exact hcount.symm.trans (execute_qWait s)

theorem dispatched_qTbe (s : State) : s.dispatched.qTbe = [] := by
  rw [dispatched_frame]
  rfl

/-- R169, R170: the ready and the waiting units of `Q_TBE` and `Q_WAIT` are all of them. -/
theorem dispatched_active (s : State) :
    (s.dispatched.qTbe ++ s.dispatched.qWait ++ s.dispatched.qExec).Perm
      (s.qTbe ++ s.qWait ++ s.qExec) := by
  rw [dispatched_qTbe, dispatched_qWait, dispatched_qExec, List.nil_append, List.append_assoc s.qExec,
    ← List.filter_append]
  calc (s.qWait ++ s.qTbe).filter (fun t => !s.isReady t) ++
        (s.qExec ++ (s.qTbe ++ s.qWait).filter s.isReady)
      |>.Perm ((s.qTbe ++ s.qWait).filter (fun t => !s.isReady t) ++
        ((s.qTbe ++ s.qWait).filter s.isReady ++ s.qExec)) :=
        (List.perm_append_comm.filter _).append List.perm_append_comm
    _ |>.Perm ((s.qTbe ++ s.qWait).filter s.isReady ++
        (s.qTbe ++ s.qWait).filter (fun t => !s.isReady t) ++ s.qExec) := by
        rw [← List.append_assoc]
        exact List.perm_append_comm.append_right _
    _ |>.Perm (s.qTbe ++ s.qWait ++ s.qExec) := (List.filter_append_perm _ _).append_right _

/-- R169 to R172 keep the invariant. -/
theorem State.Inv.dispatched {s : State} (h : s.Inv) : s.dispatched.Inv := by
  have hframe := dispatched_frame s
  have hcfg : s.dispatched.cfg = s.cfg := by rw [hframe]; rfl
  have hresult : s.dispatched.qResult = s.qResult := by rw [hframe]; rfl
  have hunit : ∀ u, s.dispatched.unit u =
      { s.unit u with remaining := (s.dispatched.unit u).remaining } := fun u => by
    rw [dispatched_unit]
    split <;> rfl
  refine State.Inv.requeued h ⟨hcfg, by rw [hframe]; rfl, by rw [hframe]; rfl, by rw [hframe]; rfl,
    dispatched_length s, cacheInv_congr hcfg (by rw [hframe]; rfl) (by rw [hframe]; rfl) h.cache,
    dispatched_sameRequest s, fun u => by rw [hunit], fun u hfree => ?_, by rw [hframe]; rfl, ?_,
    by rw [dispatched_qTbe]; exact Nat.zero_le 1, fun u t hwait hu => ?_, fun t ht hd => ?_, ?_⟩
  · refine (dispatched_unit s u).trans (if_neg fun hu => ?_)
    have hq : u ∈ s.queued := by
      simp only [State.queued, List.mem_append] at hu ⊢
      tauto
    rw [(h.queue.busyIff u).mpr hq] at hfree
    cases hfree
  · rw [hresult]
    exact (dispatched_active s).append_right _
  · have hnot : s.isReady u = false := by
      by_contra hready
      have hready : (s.unit u).ready = true := by
        simpa only [State.isReady, Bool.not_eq_false] using hready
      exact ready_iff_waits_on_nothing.mp hready t hwait
    rw [dispatched_qTbe, dispatched_qWait, List.nil_append, List.mem_filter]
    exact ⟨List.mem_append.mpr (List.mem_append.mp hu).symm, by simp [hnot]⟩
  · rw [hunit]
    exact h.dependency.results t (by rwa [← hresult]) hd
  · have hb := h.branch
    have hstall : s.dispatched.branchStall = s.branchStall := by rw [hframe]; rfl
    unfold State.BranchInv at hb ⊢
    rw [hstall, ← hb, ((dispatched_active s).filter _).length_eq]
    congr 1
    exact List.filter_congr fun t _ => by rw [(dispatched_sameRequest s t).op]

/-- R176: the countdown of a unit that has its operands. -/
theorem countDown_of_ready {s : State} {t : Nat} (h : (s.unit t).ready = true) :
    ((s.countDown t).unit t).squashed = (s.unit t).squashed ∧
      (s.countDown t).warn.unresolved = s.warn.unresolved := by
  have htick : ((s.tick t).unit t).squashed = (s.unit t).squashed ∧
      ((s.tick t).unit t).ready = true := by
    rw [tick_unit]
    split <;> exact ⟨rfl, h⟩
  obtain he | he := countDown_from_tick s t <;> rw [he]
  · exact ⟨htick.1, by rw [tick_warn]⟩
  · obtain ⟨hsquash, hwarn⟩ := complete_of_ready htick.2
    exact ⟨hsquash.trans htick.1, hwarn.trans (by rw [tick_warn])⟩

/-- R174: a unit that completes moves from `Q_EXEC` to `Q_RESULT`. -/
theorem perm_of_move (front : List Nat) {exec result : List Nat} {t : Nat} (ht : t ∈ exec) :
    (front ++ exec.erase t ++ (result ++ [t])).Perm (front ++ exec ++ result) := by
  have hmove : (exec.erase t ++ result ++ [t]).Perm (exec ++ result) :=
    (List.perm_append_singleton t _).trans ((List.perm_cons_erase ht).symm.append_right result)
  simpa only [List.append_assoc] using hmove.append_left front

/-- R30: a branch that leaves `Q_EXEC` is the one in flight. -/
theorem branchInv_of_retired {s s' : State} {t : Nat} (hb : s.BranchInv) (ht : t ∈ s.qExec)
    (hop : ∀ u, (s'.unit u).op = (s.unit u).op) (htbe : s'.qTbe = s.qTbe)
    (hwait : s'.qWait = s.qWait) (hexec : s'.qExec = s.qExec.erase t)
    (hstall : s'.branchStall = if isBranch (s.unit t).op then false else s.branchStall) :
    s'.BranchInv := by
  unfold State.BranchInv at hb ⊢
  simp only [hop, htbe, hwait, hexec, hstall, ← List.countP_eq_length_filter,
    List.countP_append] at hb ⊢
  have herase := List.countP_erase (fun u => isBranch (s.unit u).op) s.qExec t
  cases hbr : isBranch (s.unit t).op with
  | false => simp [herase, hbr, hb]
  | true =>
    have hpos : 0 < s.qExec.countP fun u => isBranch (s.unit u).op :=
      List.countP_pos_iff.mpr ⟨t, ht, hbr⟩
    simp only [ht, hbr, and_self, if_true] at herase
    simp only [if_true, Bool.false_eq_true, if_false]
    split at hb <;> omega

/-- R174, R175 for one unit of `Q_EXEC` keep the invariant. -/
theorem State.Inv.countDown {s : State} (h : s.Inv) {t : Nat} (ht : t ∈ s.qExec) :
    (s.countDown t).Inv := by
  have hdown := countDown_countedDown s t
  have hready := h.queue.ready_of_mem_qExec h.dependency ht
  have hbusy : (s.unit t).busy = true :=
    (h.queue.busyIff t).mpr (by simp only [State.queued, List.mem_append]; tauto)
  obtain ⟨h0, hpool⟩ := busy_range hbusy
  have hother := hdown.otherUnits
  have hsame := countDown_sameRequest s t
  have hnotin : t ∉ s.qResult := by
    have honce := (List.nodup_append.mp h.queue.once).1
    exact fun hr => (List.nodup_append.mp honce).2.2 t (by simp [ht]) t hr rfl
  refine State.Inv.requeued h ⟨hdown.cfg, hdown.imem, hdown.gpr, hdown.fpr, hdown.length,
    cacheInv_countDown (configAdmissible_of_admission h.admitted) h.cache t, hsame, fun u => ?_,
    fun u hfree => hother u fun he => ?_, hdown.clear, ?_,
    by rw [hdown.tbe]; exact h.queue.oneIssued, fun u x _ hu => by rw [hdown.tbe, hdown.wait]; exact hu,
    fun u hu hd => ?_, ?_⟩
  · by_cases hut : u = t
    · rw [hut]
      exact (countDown_of_ready hready).1
    · rw [hother u hut]
  · rw [he, hbusy] at hfree
    cases hfree
  · rw [hdown.tbe, hdown.wait]
    obtain ⟨hexec, hresult, -⟩ | ⟨hexec, hresult, -⟩ := hdown.moved <;> rw [hexec, hresult]
    exact perm_of_move _ ht
  · by_cases hut : u = t
    · subst hut
      obtain ⟨-, hresult, -⟩ | ⟨-, -, -, -, hdone⟩ := hdown.moved
      · exact absurd (hresult ▸ hu) hnotin
      · exact hdone h0 hpool hd
    · have hmem : u ∈ s.qResult := by
        obtain ⟨-, hresult, -⟩ | ⟨-, hresult, -⟩ := hdown.moved
        · exact hresult ▸ hu
        · simpa [hresult, hut] using hu
      rw [hother u hut]
      exact h.dependency.results u hmem hd
  · obtain ⟨hexec, -, hstall, -⟩ | ⟨hexec, -, hstall, -⟩ := hdown.moved
    · have hb := h.branch
      unfold State.BranchInv at hb ⊢
      rw [hdown.tbe, hdown.wait, hexec, hstall, ← hb]
      congr 1
      exact List.filter_congr fun u _ => by rw [(hsame u).op]
    · exact branchInv_of_retired h.branch ht (fun u => (hsame u).op) hdown.tbe hdown.wait hexec
        hstall

/-- R174 to R178 for several units of `Q_EXEC`. -/
theorem State.Inv.foldl_countDown {s : State} (h : s.Inv) {l : List Nat} (hnodup : l.Nodup)
    (hl : ∀ t ∈ l, t ∈ s.qExec) : (l.foldl State.countDown s).Inv ∧
      (l.foldl State.countDown s).warn.unresolved = s.warn.unresolved := by
  induction l generalizing s with
  | nil => exact ⟨h, rfl⟩
  | cons t l ih =>
    obtain ⟨ht, hnodup⟩ := List.nodup_cons.mp hnodup
    have hexec := hl t (by simp)
    have hkept : ∀ u ∈ l, u ∈ (s.countDown t).qExec := fun u hu => by
      have hut : u ≠ t := fun he => ht (he ▸ hu)
      obtain ⟨he, -⟩ | ⟨he, -⟩ := (countDown_countedDown s t).moved <;> rw [he]
      · exact hl u (by simp [hu])
      · exact (List.mem_erase_of_ne hut).mpr (hl u (by simp [hu]))
    obtain ⟨hinv, hwarn⟩ := ih (h.countDown hexec) hnodup hkept
    exact ⟨hinv, hwarn.trans
      (countDown_of_ready (h.queue.ready_of_mem_qExec h.dependency hexec)).2⟩

/-- R36 item 1: no unit is twice in `Q_EXEC` when the countdowns begin. -/
theorem State.Inv.dispatched_nodup {s : State} (h : s.Inv) : s.dispatched.qExec.Nodup := by
  have honce := h.dispatched.queue.once
  unfold State.queued at honce
  exact (List.nodup_append.mp (List.nodup_append.mp (List.nodup_append.mp honce).1).1).2.1

theorem State.Inv.dispatched_range {s : State} (h : s.Inv) :
    ∀ t ∈ s.dispatched.qExec, t ≠ 0 ∧ t ≤ s.units.length := fun t ht => by
  have hq : t ∈ s.dispatched.queued := by simp only [State.queued, List.mem_append]; tauto
  have hrange := h.dispatched.queue.range hq
  rwa [dispatched_length] at hrange

/-- R169 to R178 keep the invariant and never set `WARN[2]`. -/
theorem State.Inv.execute {s : State} (h : s.Inv) :
    s.execute.Inv ∧ s.execute.warn.unresolved = s.warn.unresolved := by
  obtain ⟨hinv, hwarn⟩ := h.dispatched.foldl_countDown h.dispatched_nodup fun _ ht => ht
  refine ⟨hinv, hwarn.trans ?_⟩
  rw [dispatched_frame]
  rfl

/-! ### Issue -/

/-- R143 to R148 keep the invariant: what an issue leaves when the front end runs and `Q_TBE` is empty. -/
theorem State.Inv.issuedAs {s s' : State} (h : s.Inv) {i : Instr} {q : IssueRequest} {t : Nat}
    (hq : requestOf i = some q) (ha : s.allocate q.cls = some t) (htbe : s.qTbe = [])
    (hstall : s.branchStall = false) (hlen : s'.units.length = s.units.length)
    (hgpr : s'.gpr.length = s.gpr.length) (hfpr : s'.fpr.length = s.fpr.length)
    (hi : IssuedAs s s' t q.op q.dest (s.slotOf q.dest t q.j) (s.slotOf q.dest t q.k)
      (s.slotOf q.dest t q.data) q.imm q.target) : s'.Inv := by
  obtain ⟨hop, hclass, hdest, hsome, -⟩ := requestOf_spec hq
  obtain ⟨htags, hfree⟩ := allocate_some ha
  have hnew : t ∉ s.queued := fun hmem => by
    rw [(h.queue.busyIff t).mpr hmem] at hfree
    cases hfree
  have hqueued : s'.queued = t :: s.queued := by
    unfold State.queued
    rw [hi.tbe, hi.wait, hi.exec, hi.result, hi.clear, htbe]
    rfl
  have hold : ∀ u ∈ s.queued, s'.unit u = s.unit u := fun u hu =>
    hi.otherUnits u fun he => hnew (he ▸ hu)
  have hout : ∀ x, s.Outstanding x → s'.Outstanding x := fun x hx => by
    refine ⟨by rw [hold x (hx.mem_queued)]; exact hx.1, ?_⟩
    rw [hi.tbe, hi.wait, hi.exec, hi.result]
    have hmem := hx.2
    simp only [List.mem_append] at hmem ⊢
    tauto
  have hself : q.dest ≠ none → s'.Outstanding t := fun hne => by
    refine ⟨?_, by rw [hi.tbe]; simp⟩
    rw [hi.unitTaken, hop, ← hsome, ← hdest]
    exact Option.isSome_iff_ne_none.mpr hne
  have hslot : ∀ src x, s.slotOf q.dest t src = .pending x → s'.Outstanding x := by
    intro src x hx
    cases src with
    | value v => cases hx
    | reg r =>
      simp only [State.slotOf, State.slotFor, State.capture] at hx
      split at hx
      · rename_i hr
        cases hx
        exact hself (by rw [hr]; nofun)
      · split at hx
        · cases hx
        · rename_i hp
          cases hx
          exact hout _ (h.dependency.producers r hp)
  have hcache : s'.CacheInv := cacheInv_congr hi.cfg hi.mem hi.lines h.cache
  refine ⟨?_, ⟨?_, ?_, ?_, hcache.linesSize⟩, hcache, ⟨?_, fun u => ?_, fun u hu => ?_, ?_⟩,
    ⟨fun u hu => ?_, fun r hr => ?_, fun u x hw => ?_, fun u hu hd => ?_, fun u => ?_⟩, ?_⟩
  · unfold State.admission
    rw [hi.cfg, hi.imem]
    exact h.admitted
  · rw [hgpr, hi.cfg]; exact h.shaped.gprSize
  · rw [hfpr, hi.cfg]; exact h.shaped.fprSize
  · rw [hlen, hi.cfg]; exact h.shaped.unitsSize
  · rw [hqueued]
    exact List.nodup_cons.mpr ⟨hnew, h.queue.once⟩
  · rw [hqueued, List.mem_cons]
    by_cases hut : u = t
    · subst hut
      simp [hi.unitTaken]
    · rw [hi.otherUnits u hut]
      simpa [hut] using h.queue.busyIff u
  · by_cases hut : u = t
    · subst hut
      rw [hi.unitTaken] at hu
      cases hu
    · rw [hi.otherUnits u hut] at hu ⊢
      exact h.queue.freeReset u hu
  · rw [hi.tbe, htbe]
    exact le_rfl
  · rw [hi.cfg]
    rw [hqueued, List.mem_cons] at hu
    obtain rfl | hu := hu
    · exact ⟨q.cls, by rw [hi.unitTaken, hop]; exact hclass, htags⟩
    · rw [hold u hu]
      exact h.dependency.ownClass u hu
  · rw [hi.registers r] at hr ⊢
    split at hr
    · rename_i hd
      rw [if_pos hd]
      exact hself (by rw [hd]; nofun)
    · rename_i hd
      rw [if_neg hd]
      exact hout _ (h.dependency.producers r hr)
  · rw [hi.tbe, hi.wait]
    by_cases hut : u = t
    · subst hut
      refine ⟨by simp, ?_⟩
      rw [hi.unitTaken] at hw
      obtain hx | hx | hx := hw
      · exact hslot q.j x hx
      · exact hslot q.k x hx
      · exact hslot q.data x hx
    · rw [hi.otherUnits u hut] at hw
      obtain ⟨hu, hx⟩ := h.dependency.slots u x hw
      refine ⟨?_, hout x hx⟩
      simp only [List.mem_append] at hu ⊢
      tauto
  · rw [hi.result] at hu
    have hmem : u ∈ s.queued := by simp only [State.queued, List.mem_append]; tauto
    rw [hold u hmem] at hd ⊢
    exact h.dependency.results u hu hd
  · by_cases hut : u = t
    · subst hut
      rw [hi.unitTaken]
    · rw [hi.otherUnits u hut]
      exact h.dependency.unsquashed u
  · have hb := h.branch
    unfold State.BranchInv at hb ⊢
    have hcount : (s.qWait ++ s.qExec).filter (fun u => isBranch (s'.unit u).op) =
        (s.qWait ++ s.qExec).filter (fun u => isBranch (s.unit u).op) :=
      List.filter_congr fun u hu => by
        rw [hold u (by simp only [State.queued, List.mem_append] at hu ⊢; tauto)]
    rw [htbe, hstall, List.nil_append] at hb
    rw [hi.tbe, hi.wait, hi.exec, hi.stall, htbe, hstall, List.nil_append, List.append_assoc,
      List.singleton_append, List.filter_cons, hcount, hi.unitTaken, Bool.false_or]
    cases isBranch q.op
    · exact hb
    · simpa using hb

/-- R141 to R149 keep the invariant and never set `WARN[2]`. -/
theorem State.Inv.after_exec {s s' : State} (h : s.Inv) {i : Instr} (htbe : s.qTbe = [])
    (hstall : s.branchStall = false) (he : exec i s = .next s') :
    s'.Inv ∧ s'.warn.unresolved = s.warn.unresolved := by
  have hw : i.wellFormed s.cfg = true := exec_answers_iff.mp ⟨s', he⟩
  obtain ⟨-, -, -, -, hgpr, hfpr, hlen⟩ := exec_frame he
  cases hq : requestOf i with
  | none =>
    cases i <;> simp only [requestOf, reduceCtorEq] at hq
    cases he
    exact ⟨h.congr rfl rfl rfl rfl rfl rfl rfl rfl rfl rfl rfl rfl rfl, rfl⟩
  | some q =>
    cases ha : s.allocate q.cls with
    | none =>
      rw [exec_of_request hq, issue_of_busy ((request_regs hq).trans hw) ha] at he
      cases he
      exact ⟨h.congr rfl rfl rfl rfl rfl rfl rfl rfl rfl rfl rfl rfl rfl, rfl⟩
    | some t =>
      obtain ⟨s1, he1, hi⟩ := exec_issuedAs h.shaped hq hw ha
      rw [he] at he1
      cases he1
      exact ⟨h.issuedAs hq ha htbe hstall hlen hgpr hfpr hi, by rw [hi.warn]⟩

/-! ### The step -/

theorem State.Inv.endCycle {s : State} (h : s.Inv) : s.endCycle.Inv :=
  h.congr rfl rfl rfl rfl rfl rfl rfl rfl rfl rfl rfl rfl rfl

/-- The invariant after the Writeback and Execute phases. -/
theorem State.Inv.phases {s : State} (h : s.Inv) : s.writeback.execute.Inv ∧
    s.writeback.execute.warn.unresolved = s.warn.unresolved :=
  ⟨h.writeback.execute.1, h.writeback.execute.2.trans (writeback_unresolved s)⟩

/-- R140: the Issue phase finds the front end running when it consumes a record. -/
theorem phases_running {s : State} {w : Record}
    (hf : s.writeback.execute.fetch s.branchStall = some w) :
    s.writeback.execute.branchStall = false := by
  obtain ⟨-, -, -, hstall, -⟩ := writeback_frame s
  obtain ⟨-, -, -, -, -, -, hkeeps, -⟩ := execute_frame s.writeback
  exact hkeeps (hstall.trans (fetch_eq_some_iff.mp hf).1)

theorem execute_qTbe (s : State) : s.execute.qTbe = [] := by
  obtain ⟨-, -, -, -, -, hempty, -⟩ := execute_frame s
  exact hempty

theorem State.Inv.after_step {s s' : State} (h : s.Inv) (hs : step s = .next s') :
    s'.Inv ∧ s'.warn.unresolved = s.warn.unresolved := by
  obtain ⟨hinv, hwarn⟩ := h.phases
  obtain ⟨-, ⟨-, rfl⟩ | ⟨w, s1, hf, he, rfl⟩⟩ := step_next hs
  · exact ⟨hinv.endCycle, hwarn⟩
  · obtain ⟨hinv1, hwarn1⟩ := hinv.after_exec (execute_qTbe _) (phases_running hf) he
    exact ⟨hinv1.endCycle, hwarn1.trans hwarn⟩

end Sys2Proof.Machine

namespace Sys2Proof
open Machine

/-- Settles O45: phase by phase. -/
theorem stepKeepsInvariant : Obligations.StepKeepsInvariant := fun _ _ h => h.after_step

/-- Settles O38: a tag that something holds is outstanding, and so not in `Q_CLEAR`. -/
theorem freedTagIsHeldByNothing : Obligations.FreedTagIsHeldByNothing := by
  intro s hq hd t ht
  have h0 : t ≠ 0 := (hq.range (mem_queued.mpr (by tauto))).1
  refine ⟨fun r hr => ?_, fun u hw => ?_⟩
  · have hout := hd.producers r (by rwa [hr])
    rw [hr] at hout
    exact hq.not_mem_qClear hout.2 ht
  · exact hq.not_mem_qClear (hd.slots u t hw).2.2 ht

end Sys2Proof
end

section
/-! PROOFS. Where a run may start (70_reset_and_hazards.md R310, R312, 60_exceptions.md R304): what a preload does,
that every fresh state meets the invariant, and that a run from one never stops. -/

namespace Sys2Proof.Machine

/-! ### Fresh states -/

/-- R310: units and lines of a fresh state are as the reset left them. -/
theorem State.Fresh.unit {s : State} (h : s.Fresh) (t : Nat) : s.unit t = FunctionalUnit.reset := by
  rw [unit_congr (congrArg State.units h.restReset) t]
  exact unit_resetWith s.cfg s.imem t

theorem State.Fresh.queued {s : State} (h : s.Fresh) : s.queued = [] := by
  obtain ⟨htbe, hwait, hexec, hresult, hclear⟩ := h.queues
  unfold State.queued
  rw [htbe, hwait, hexec, hresult, hclear]
  rfl

/-- R37, R79: a cold cache agrees with any memory. -/
theorem State.Fresh.cacheInv {s : State} (h : s.Fresh) : s.CacheInv := by
  have hlines : s.lines = List.replicate (cacheLineCount s.cfg) (CacheLine.reset s.cfg) :=
    congrArg State.lines h.restReset
  refine ⟨by rw [hlines, List.length_replicate], fun l hl => ?_, h.memWf, h.memBelow,
    fun i o _ _ hv => ?_⟩
  · rw [hlines] at hl
    rw [List.eq_of_mem_replicate hl]
    exact ⟨List.length_replicate, Nat.two_pow_pos _⟩
  · have hreset : lineAt s.cfg s.lines i = CacheLine.reset s.cfg := by
      rw [hlines]
      exact lineAt_resetWith s.cfg s.imem i
    rw [hreset] at hv
    cases hv

/-- R36, R312: every fresh state meets the invariant. -/
theorem State.Fresh.inv {s : State} (h : s.Fresh) : s.Inv := by
  obtain ⟨htbe, hwait, hexec, hresult, -⟩ := h.queues
  obtain ⟨-, hstall, -⟩ := h.frontEnd
  have hunits : s.units.length = unitCount s.cfg := by
    rw [congrArg State.units h.restReset]
    exact List.length_replicate
  refine ⟨h.admitted, ⟨h.gprSize, h.fprSize, hunits, h.cacheInv.linesSize⟩, h.cacheInv,
    ⟨?_, fun t => ?_, fun t _ => h.unit t, ?_⟩, ⟨?_, fun r hr => ?_, fun u t hw => ?_, ?_, fun t => ?_⟩,
    ?_⟩
  · rw [h.queued]
    exact List.nodup_nil
  · rw [h.queued, h.unit t]
    exact ⟨nofun, nofun⟩
  · rw [htbe]
    exact Nat.zero_le 1
  · rw [h.queued]
    exact nofun
  · exact absurd (h.noProducer r) hr
  · rw [h.unit u] at hw
    simp [FunctionalUnit.waitsOn, FunctionalUnit.reset] at hw
  · rw [hresult]
    exact nofun
  · rw [h.unit t]
    rfl
  · unfold State.BranchInv
    rw [htbe, hwait, hexec, hstall]
    rfl

theorem fresh_resetWith {c : Config} {p : List Record} (h : admission c p = none) :
    (State.resetWith c p).Fresh where
  admitted := h
  gprSize := List.length_replicate
  fprSize := List.length_replicate
  noProducer r := by rw [reg_resetWith]; rfl
  memWf := rfl
  memBelow := rfl
  restReset := rfl

/-! ### Preloads -/

theorem length_setReg (s : State) (r : Reg) (x : Register) :
    (s.setReg r x).gpr.length = s.gpr.length ∧ (s.setReg r x).fpr.length = s.fpr.length := by
  unfold State.setReg
  cases r.file <;> simp

/-- R304, R312: a preload of a register is answered exactly before the first cycle and for a register that
exists. -/
theorem preloadRegister_eq_next_iff {s s' : State} {r : Reg} {v : Word} :
    s.preloadRegister r v = .next s' ↔ s.cycle = 0 ∧ s.cfg.hasRegister r = true ∧
      s.setReg r { s.reg r with value := v } = s' := by
  unfold State.preloadRegister
  by_cases hcycle : s.cycle = 0
  · cases hr : s.cfg.hasRegister r <;> simp [hcycle]
  · simp [hcycle]

/-- R304, R312: a preload of a byte is answered exactly before the first cycle and for a byte of `MEM`. -/
theorem preloadByte_eq_next_iff {s s' : State} {a : Nat} {b : Byte} :
    s.preloadByte a b = .next s' ↔ s.cycle = 0 ∧ a < s.cfg.memSize ∧
      { s with mem := s.mem.write a b } = s' := by
  unfold State.preloadByte
  by_cases hcycle : s.cycle = 0
  · by_cases ha : s.cfg.memSize ≤ a
    · simp [hcycle, ha]
    · simp [hcycle, ha]
      omega
  · simp [hcycle]

theorem State.Fresh.cycle {s : State} (h : s.Fresh) : s.cycle = 0 :=
  congrArg State.cycle h.restReset

/-- R312: what a preload of a register leaves: its value field and nothing else. -/
theorem State.Fresh.reg_preload {s : State} (h : s.Fresh) {r : Reg}
    (hr : s.cfg.hasRegister r = true) (v : Word) (r' : Reg) :
    (s.setReg r { s.reg r with value := v }).reg r' =
      if r' = r then { value := v, producer := 0 } else s.reg r' := by
  by_cases hrr : r' = r
  · subst hrr
    rw [if_pos rfl, reg_setReg_same s (holds_of_hasRegister h.gprSize h.fprSize hr), ← h.noProducer r']
  · rw [if_neg hrr, reg_setReg_ne s hrr]

theorem State.Fresh.preloadRegister {s : State} (h : s.Fresh) {r : Reg}
    (hr : s.cfg.hasRegister r = true) (v : Word) :
    (s.setReg r { s.reg r with value := v }).Fresh := by
  obtain ⟨hgpr, hfpr⟩ := length_setReg s r { s.reg r with value := v }
  refine ⟨?_, by rw [hgpr, setReg_cfg, h.gprSize], by rw [hfpr, setReg_cfg, h.fprSize], fun r' => ?_,
    by rw [setReg_mem]; exact h.memWf, by rw [setReg_mem, setReg_cfg]; exact h.memBelow, ?_⟩
  · unfold State.admission
    rw [setReg_cfg, setReg_imem]
    exact h.admitted
  · rw [h.reg_preload hr]
    split
    · rfl
    · exact h.noProducer r'
  · have hrest := h.restReset
    rw [setReg_cfg, setReg_imem, setReg_mem]
    unfold State.setReg
    cases r.file <;> (conv_lhs => rw [hrest]) <;> rfl

theorem State.Fresh.preloadByte {s : State} (h : s.Fresh) {a : Nat} (ha : a < s.cfg.memSize)
    (b : Byte) : State.Fresh { s with mem := s.mem.write a b } where
  admitted := h.admitted
  gprSize := h.gprSize
  fprSize := h.fprSize
  noProducer := h.noProducer
  memWf := Memory.wf_write h.memWf a b
  memBelow := Memory.below_write h.memBelow ha b
  restReset := by conv_lhs => rw [h.restReset]

/-! ### Runs -/

/-- A run is one step and the rest of the run. -/
theorem core_run_succ {M : Host.Core} {s s1 : M.State} (h : M.step s = .next s1) (n : Nat) :
    M.run (n + 1) s = M.run n s1 := by
  rw [Host.Core.run, h]

/-- A run that answers has made its first step. -/
theorem core_run_succ_next {M : Host.Core} {s s' : M.State} {n : Nat}
    (h : M.run (n + 1) s = .next s') : ∃ s1, M.step s = .next s1 ∧ M.run n s1 = .next s' := by
  rw [Host.Core.run] at h
  cases hs : M.step s with
  | next s1 =>
    rw [hs] at h
    exact ⟨s1, rfl, h⟩
  | fault r =>
    rw [hs] at h
    cases h
  | refused r =>
    rw [hs] at h
    cases h

theorem run_succ_of_step {s s1 : State} (h : step s = .next s1) (n : Nat) :
    core.run (n + 1) s = core.run n s1 := core_run_succ (M := core) h n

theorem run_succ_next {s s' : State} {n : Nat} (h : core.run (n + 1) s = .next s') :
    ∃ s1, step s = .next s1 ∧ core.run n s1 = .next s' := core_run_succ_next (M := core) h

/-- A run of `m + n` cycles is a run of `m` and a run of `n`. -/
theorem run_add {s s1 : State} {m : Nat} (h : core.run m s = .next s1) (n : Nat) :
    core.run (m + n) s = core.run n s1 := by
  induction m generalizing s with
  | zero =>
    obtain rfl : s = s1 := Host.Outcome.next.inj h
    rw [Nat.zero_add]
  | succ m ih =>
    obtain ⟨s2, hs, hrun⟩ := run_succ_next h
    rw [Nat.succ_add, run_succ_of_step hs, ih hrun]

/-- R280: the invariant carries a run on for ever. -/
theorem State.Inv.run {s : State} (h : s.Inv) (n : Nat) : ∃ s', core.run n s = .next s' ∧ s'.Inv ∧
    s'.warn.unresolved = s.warn.unresolved := by
  induction n generalizing s with
  | zero => exact ⟨s, rfl, h, rfl⟩
  | succ n ih =>
    obtain ⟨s1, hs⟩ := step_answers h.admitted
    obtain ⟨hinv, hwarn⟩ := h.after_step hs
    obtain ⟨s', hrun, hinv', hwarn'⟩ := ih hinv
    exact ⟨s', (run_succ_of_step hs n).trans hrun, hinv', hwarn'.trans hwarn⟩

end Sys2Proof.Machine

namespace Sys2Proof
open Machine

/-- Settles O43: the reference configuration with the empty program is admitted. -/
theorem resetMeetsInvariant : Obligations.ResetMeetsInvariant :=
  (fresh_resetWith (by decide)).inv

/-- Settles O44: fresh states meet the invariant, and the host's calls answer fresh states. -/
theorem preloadedResetMeetsInvariant : Obligations.PreloadedResetMeetsInvariant := by
  refine ⟨fun s h => h.inv, fun c p s hboot => ?_, fun s r v h => ⟨?_, fun s' hs' => ?_⟩,
    fun s a b h => ⟨?_, fun s' hs' => ?_⟩, fun s r v a b hcycle => ⟨if_pos hcycle, if_pos hcycle⟩⟩
  · obtain ⟨hadm, rfl⟩ := bootWith_eq_next_iff.mp hboot
    exact fresh_resetWith hadm
  · simp [preloadRegister_eq_next_iff, h.cycle]
  · obtain ⟨-, hr, rfl⟩ := preloadRegister_eq_next_iff.mp hs'
    exact ⟨h.preloadRegister hr v, by simp, by simp, by simp, h.reg_preload hr v⟩
  · simp [preloadByte_eq_next_iff, h.cycle]
  · obtain ⟨-, ha, rfl⟩ := preloadByte_eq_next_iff.mp hs'
    exact ⟨h.preloadByte ha b, rfl, rfl, fun _ => rfl, Memory.read_write h.memWf a b⟩

/-- Settles O46: a fresh state meets the invariant and has no flag set. -/
theorem runsNeverStopAndKeepInvariant : Obligations.RunsNeverStopAndKeepInvariant := by
  intro s n h
  obtain ⟨s', hrun, hinv, hwarn⟩ := h.inv.run n
  refine ⟨s', hrun, hinv, hwarn.trans ?_⟩
  rw [congrArg State.warn h.restReset]
  rfl

end Sys2Proof
end

section
/-! PROOFS. What a cycle does to a waiting unit (41_scheduler_and_cdb.md R180 to R182, 40_issue_and_rename.md R148,
70_reset_and_hazards.md R320): it wakes when its producer is published, it waits for ever on its own tag, and its
stage moves as R181 lists. -/

namespace Sys2Proof.Machine

/-! ### The queues after a step -/

/-- The queues after a step, in terms of the state that the Writeback phase leaves (R160 to R178). -/
structure SteppedQueues (s s' : State) : Prop where
  tbe : s'.qTbe = [] ∨ ∃ t, s'.qTbe = [t] ∧ (s.writeback.execute.unit t).busy = false
  wait : s'.qWait = (s.qWait ++ s.qTbe).filter fun t => !s.writeback.isReady t
  exec : s'.qExec = s.writeback.execute.qExec
  result : s'.qResult = s.writeback.execute.qResult
  clear : s'.qClear = s.qResult.take 1

theorem execute_qClear (s : State) : s.execute.qClear = s.qClear := by
  have hfold : ∀ (l : List Nat) (x : State),
      (l.foldl State.countDown x).qClear = x.qClear := by
    intro l
    induction l with
    | nil => exact fun _ => rfl
    | cons t l ih => exact fun x => (ih _).trans (countDown_countedDown x t).clear
  refine (hfold _ _).trans ?_
  rw [dispatched_frame]
  rfl

/-- R143, R147: an instruction that is consumed takes a free unit or none, and moves no other between queues. -/
theorem exec_queues {s s' : State} {i : Instr} (he : exec i s = .next s') (htbe : s.qTbe = []) :
    (s'.qTbe = [] ∨ ∃ t, s'.qTbe = [t] ∧ (s.unit t).busy = false) ∧ s'.qWait = s.qWait ∧
      s'.qExec = s.qExec ∧ s'.qResult = s.qResult ∧ s'.qClear = s.qClear := by
  cases hq : requestOf i with
  | none =>
    cases i <;> simp only [requestOf, reduceCtorEq] at hq
    cases he
    exact ⟨.inl htbe, rfl, rfl, rfl, rfl⟩
  | some q =>
    rw [exec_of_request hq] at he
    obtain ⟨-, hi⟩ | ⟨-, -, hi⟩ | ⟨t, -, ha, hi⟩ := issue_cases s q <;> rw [hi] at he <;> cases he
    · exact ⟨.inl htbe, rfl, rfl, rfl, rfl⟩
    · rw [issuedInto_frame, htbe]
      exact ⟨.inr ⟨t, rfl, (allocate_some ha).2⟩, rfl, rfl, rfl, rfl⟩

theorem step_queues {s s' : State} (h : step s = .next s') : SteppedQueues s s' := by
  have hw := writeback_spec s
  have hwait : s.writeback.execute.qWait =
      (s.qWait ++ s.qTbe).filter fun t => !s.writeback.isReady t := by
    rw [execute_qWait, hw.wait, hw.tbe]
  have hclear : s.writeback.execute.qClear = s.qResult.take 1 :=
    (execute_qClear _).trans hw.clear
  obtain ⟨-, ⟨-, rfl⟩ | ⟨w, s1, -, he, rfl⟩⟩ := step_next h
  · exact ⟨.inl (execute_qTbe _), hwait, rfl, rfl, hclear⟩
  · obtain ⟨htbe, h1, h2, h3, h4⟩ := exec_queues he (execute_qTbe _)
    exact ⟨htbe, h1.trans hwait, h2, h3, h4.trans hclear⟩

/-- R174: a unit that is in `Q_EXEC` when the countdowns begin is in `Q_EXEC` or `Q_RESULT` after them. -/
theorem State.Inv.mem_after_execute {s : State} (h : s.Inv) {t : Nat}
    (ht : t ∈ s.dispatched.qExec) : t ∈ s.execute.qExec ∨ t ∈ s.execute.qResult := by
  rw [execute_qExec h.dispatched_nodup h.dispatched_range,
    execute_qResult h.dispatched_nodup h.dispatched_range]
  simp only [List.mem_append, List.mem_filter, decide_eq_true_eq, ht, true_and]
  omega

/-- R169, R170, R174: after a step a unit of `Q_TBE` or `Q_WAIT` waits, executes or has its result. -/
theorem waiting_after_step {s s' : State} (h : s.Inv) (hs : step s = .next s') {t : Nat}
    (ht : t ∈ s.qTbe ++ s.qWait) : if s.writeback.isReady t then t ∈ s'.qExec ∨ t ∈ s'.qResult
      else t ∈ s'.qWait := by
  have hw := writeback_spec s
  have hq := step_queues hs
  split
  · rename_i hready
    rw [hq.exec, hq.result]
    refine h.writeback.mem_after_execute ?_
    rw [dispatched_qExec, hw.tbe, hw.wait]
    simp only [List.mem_append, List.mem_filter, hready, and_true] at ht ⊢
    tauto
  · rename_i hready
    rw [hq.wait, List.mem_filter]
    exact ⟨List.mem_append.mpr (List.mem_append.mp ht).symm, by simpa using hready⟩

/-! ### Stages -/

section
variable {s : State} (h : s.queued.Nodup)
include h

/-- R36 item 1: a tag is in one queue only, and the stage names it. -/
theorem stage_iff (t : Nat) : (s.stage t = .tbe ↔ t ∈ s.qTbe) ∧ (s.stage t = .wait ↔ t ∈ s.qWait) ∧
    (s.stage t = .exec ↔ t ∈ s.qExec) ∧ (s.stage t = .result ↔ t ∈ s.qResult) ∧
    (s.stage t = .clear ↔ t ∈ s.qClear) ∧ (s.stage t = .free ↔ t ∉ s.queued) := by
  rw [mem_queued]
  unfold State.queued at h
  simp only [List.nodup_append, List.mem_append] at h
  obtain ⟨⟨⟨⟨-, -, hwait⟩, -, hexec⟩, -, hresult⟩, -, hclear⟩ := h
  unfold State.stage
  simp only [List.contains_iff_mem]
  by_cases htbe : t ∈ s.qTbe
  · have h1 := hwait t htbe t
    have h2 := hexec t (by tauto) t
    have h3 := hresult t (by tauto) t
    have h4 := hclear t (by tauto) t
    simp [htbe]
    tauto
  by_cases hw : t ∈ s.qWait
  · have h2 := hexec t (by tauto) t
    have h3 := hresult t (by tauto) t
    have h4 := hclear t (by tauto) t
    simp [htbe, hw]
    tauto
  by_cases he : t ∈ s.qExec
  · have h3 := hresult t (by tauto) t
    have h4 := hclear t (by tauto) t
    simp [htbe, hw, he]
    tauto
  by_cases hr : t ∈ s.qResult
  · have h4 := hclear t (by tauto) t
    simp [htbe, hw, he, hr]
    tauto
  by_cases hc : t ∈ s.qClear <;> simp [htbe, hw, he, hr, hc]

end

/-- R163, R143: a unit that is free or about to be freed is free or newly issued after a step. -/
theorem free_after_step {s s' : State} (h : s.Inv) (hs : step s = .next s') {t : Nat}
    (ht : t ∉ s.qTbe ++ s.qWait ++ s.qExec ++ s.qResult) : t ∉ s'.queued ∨ t ∈ s'.qTbe := by
  have hq := step_queues hs
  have hfree : t ∉ s.writeback.execute.queued := by
    rw [← h.phases.1.queue.busyIff, (execute_sameRequest s.writeback t).busy,
      writeback_unit_busy_iff, h.queue.busyIff, State.queued, List.mem_append]
    tauto
  rw [mem_queued] at hfree ⊢
  rw [hq.exec, hq.result, hq.clear, ← writeback_qClear, ← execute_qClear]
  have hwait : t ∉ s'.qWait := by
    rw [hq.wait]
    intro hmem
    have := List.mem_of_mem_filter hmem
    simp only [List.mem_append] at this ht
    tauto
  tauto

/-! ### A unit that waits on itself -/

/-- R143: an issue leaves every other unit alone. -/
theorem issuedInto_unit_ne (s : State) (q : IssueRequest) {t u : Nat} (h : u ≠ t) :
    (s.issuedInto q t).unit u = s.unit u := by
  have hclaim : (s.claimUnit q t).unit u = (s.setUnit t ((s.unit t).claim q)).unit u :=
    unit_congr (by rw [claimUnit_frame]) u
  calc (s.issuedInto q t).unit u
      = (s.claimUnit q t).unit u := unit_setUnit_ne _ h _
    _ = s.unit u := by rw [hclaim, unit_setUnit_ne _ h]

/-- R135, R143: an instruction leaves a busy unit alone. -/
theorem exec_unit_of_busy {s s' : State} {i : Instr} (he : exec i s = .next s') {u : Nat}
    (hu : (s.unit u).busy = true) : s'.unit u = s.unit u := by
  cases hq : requestOf i with
  | none =>
    cases i <;> simp only [requestOf, reduceCtorEq] at hq
    cases he
    rfl
  | some q =>
    rw [exec_of_request hq] at he
    obtain ⟨-, hi⟩ | ⟨-, -, hi⟩ | ⟨t, -, ha, hi⟩ := issue_cases s q <;> rw [hi] at he <;> cases he
    · rfl
    · refine issuedInto_unit_ne s q fun hut => ?_
      rw [hut, (allocate_some ha).2] at hu
      cases hu

/-- R143: every register an instruction reads is the source of one of its slots. -/
theorem source_of_request {i : Instr} {q : IssueRequest} (hq : requestOf i = some q) {r : Reg}
    (hr : r ∈ i.sources) : q.j = .reg r ∨ q.k = .reg r ∨ q.data = .reg r := by
  cases i <;> simp only [requestOf, Option.some.injEq, reduceCtorEq] at hq <;> subst hq <;>
    simp only [Instr.sources, List.mem_cons, List.not_mem_nil, or_false] at hr <;>
    simp only [Source.reg.injEq, reduceCtorEq, or_false, false_or] <;> tauto

/-- R148: an instruction that reads its own destination issues into a unit that waits on its own tag. -/
theorem waitsOn_of_selfDependent {s s' : State} {i : Instr} {q : IssueRequest} {t : Nat}
    (hself : selfDependent i = true) (hq : requestOf i = some q)
    (hi : IssuedAs s s' t q.op q.dest (s.slotOf q.dest t q.j) (s.slotOf q.dest t q.k)
      (s.slotOf q.dest t q.data) q.imm q.target) : (s'.unit t).waitsOn t := by
  obtain ⟨-, -, hdest, -⟩ := requestOf_spec hq
  unfold selfDependent at hself
  cases hd : i.dest with
  | none =>
    rw [hd] at hself
    cases hself
  | some d =>
    rw [hd] at hself
    have hslot : ∀ src, src = Source.reg d → s.slotOf q.dest t src = .pending t := by
      rintro _ rfl
      exact if_pos (hdest.trans hd)
    rw [hi.unitTaken]
    exact (source_of_request hq (by simpa using hself)).imp (hslot _) (Or.imp (hslot _) (hslot _))

/-- R148: a unit that waits on its own tag still does after a step: its tag is never published. -/
theorem selfWait_step {s s' : State} (h : s.Inv) {t : Nat} (hw : (s.unit t).waitsOn t)
    (hs : step s = .next s') : (s'.unit t).waitsOn t := by
  obtain ⟨hwaits, -⟩ := h.dependency.slots t t hw
  have hactive : t ∈ s.qTbe ++ s.qWait ++ s.qExec ++ s.qResult := by
    simp only [List.mem_append] at hwaits ⊢
    tauto
  have hclear := h.queue.not_mem_qClear hactive
  have hbusy : (s.unit t).busy = true :=
    (h.queue.busyIff t).mpr (List.mem_append_left _ hactive)
  have hspec := writeback_spec s
  have hback : (s.writeback.unit t).waitsOn t := by
    rw [hspec.unit t, if_neg hclear]
    cases hbus : s.writeback.busEvent with
    | none => exact hw
    | some x =>
      refine (deliver_waitsOn_iff hbusy).mpr ⟨hw, fun htx => ?_⟩
      obtain ⟨hhead, -⟩ := (hspec.bus x.1 x.2).mp hbus
      have hresult : t ∈ s.qResult := htx ▸ List.mem_of_mem_head? hhead
      have honce := (List.nodup_append.mp h.queue.once).1
      rw [List.append_assoc] at honce
      exact (List.nodup_append.mp honce).2.2 t hwaits t (by simp [hresult]) rfl
  have hexec : (s.writeback.execute.unit t).waitsOn t :=
    ((execute_sameRequest s.writeback t).waitsOn t).mpr hback
  have hstill : (s.writeback.execute.unit t).busy = true := by
    rw [(execute_sameRequest s.writeback t).busy, writeback_unit_busy_iff]
    exact ⟨hclear, hbusy⟩
  obtain ⟨-, ⟨-, rfl⟩ | ⟨w, s1, -, he, rfl⟩⟩ := step_next hs
  · exact hexec
  · rw [unit_congr (endCycle_units s1), exec_unit_of_busy he hstill]
    exact hexec

/-! ### The end of a run -/

/-- R180: no unit is busy exactly when no unit of the pool is. -/
theorem all_units_free_iff {s : State} :
    s.units.all (fun u => !u.busy) = true ↔ ∀ t, (s.unit t).busy = false := by
  simp only [List.all_eq_true, Bool.not_eq_true']
  constructor
  · intro h t
    cases t with
    | zero => rfl
    | succ n =>
      by_cases hn : n < s.units.length
      · refine h (s.units.getD n FunctionalUnit.reset) ?_
        rw [List.getD_eq_getElem _ _ hn]
        exact List.getElem_mem hn
      · rw [unit_of_length_lt s (by omega)]
        rfl
  · intro h u hu
    obtain ⟨n, hn, rfl⟩ := List.getElem_of_mem hu
    simpa [State.unit, List.getD, hn] using h (n + 1)

theorem isFinished_iff {s : State} : s.isFinished = true ↔
    s.imem.length ≤ s.pc.toNat ∧ (∀ t, (s.unit t).busy = false) ∧ s.queued = [] := by
  simp only [State.isFinished, Bool.and_eq_true, decide_eq_true_eq, all_units_free_iff,
    List.isEmpty_iff, State.queued, List.append_eq_nil_iff, and_assoc]

theorem not_finished_of_busy {s : State} {t : Nat} (h : (s.unit t).busy = true) :
    s.isFinished = false := by
  by_contra hfin
  obtain ⟨-, hfree, -⟩ := isFinished_iff.mp (by simpa using hfin)
  rw [hfree t] at h
  cases h

/-- R162: the bus is cleared first, so the Writeback phase does not see it. -/
theorem writeback_clearBus (s : State) : s.clearBus.writeback = s.writeback := rfl

/-- R180: a step on a finished state changes the cycle count and the bus only. -/
theorem step_of_finished {s : State} (hadm : s.admission = none) (h : s.isFinished = true) :
    step s = .next { s with busEvent := none, cycle := s.cycle + 1 } := by
  obtain ⟨hpc, -, hqueued⟩ := isFinished_iff.mp h
  simp only [State.queued, List.append_eq_nil_iff] at hqueued
  obtain ⟨⟨⟨⟨htbe, hwait⟩, hexec⟩, hresult⟩, hclear⟩ := hqueued
  have hphases : s.writeback.execute = s.clearBus := by
    have hquiet : s.clearBus.writeback = s.clearBus := writeback_of_nothing rfl hresult hclear
    rw [← writeback_clearBus, hquiet]
    exact execute_of_nothing htbe hwait hexec
  rw [step_of_fetch_none hadm, hphases]
  · rfl
  · rw [hphases]
    exact fetch_eq_none_iff.mpr (.inr hpc)

end Sys2Proof.Machine

namespace Sys2Proof
open Machine

/-- Settles O42: the broadcast resolves every slot of the unit, so E2 finds it ready. -/
theorem waiterWakesInTheSameCycle : Obligations.WaiterWakesInTheSameCycle := by
  intro s s' p t rest h hr hd ht honly hs
  have hspec := writeback_spec s
  obtain ⟨v, -, hbus⟩ := bus_of_outstanding h (by rw [hr]; rfl) hd
  have hclear : t ∉ s.qClear := h.queue.not_mem_qClear (by simp [ht])
  have hbusy : (s.unit t).busy = true := (h.queue.busyIff t).mpr (by rw [mem_queued]; tauto)
  have hready : s.writeback.isReady t = true := by
    refine ready_iff_waits_on_nothing.mpr fun x hx => ?_
    rw [hspec.unit t, if_neg hclear, hbus] at hx
    obtain ⟨hwas, hne⟩ := (deliver_waitsOn_iff hbusy).mp hx
    exact hne (honly x hwas)
  have hmoved := waiting_after_step h hs (t := t) (by simp [ht])
  rw [if_pos hready] at hmoved
  refine ⟨fun hwait => ?_, hmoved⟩
  rw [(step_queues hs).wait, List.mem_filter, hready] at hwait
  exact absurd hwait.2 (by decide)

/-- Settles O47: where the units of each queue go in one step. -/
theorem stagesMoveAsListed : Obligations.StagesMoveAsListed := by
  intro s s' t h hs
  obtain ⟨htbe, hwait, hexec, hresult, hclear, hfree⟩ := stage_iff h.queue.once t
  obtain ⟨htbe', hwait', hexec', hresult', hclear', hfree'⟩ :=
    stage_iff (h.after_step hs).1.queue.once t
  have hspec := writeback_spec s
  have hq := step_queues hs
  have hwaiting : t ∈ s.qTbe ++ s.qWait →
      s'.stage t = .wait ∨ s'.stage t = .exec ∨ s'.stage t = .result := fun ht => by
    have hmoved := waiting_after_step h hs ht
    rw [hwait', hexec', hresult']
    split at hmoved
    · exact .inr hmoved
    · exact .inl hmoved
  have hidle : t ∉ s.qTbe ++ s.qWait ++ s.qExec ++ s.qResult →
      s'.stage t = .free ∨ s'.stage t = .tbe := fun ht => by
    rw [hfree', htbe']
    exact free_after_step h hs ht
  cases hst : s.stage t with
  | free =>
    have ht := hfree.mp hst
    exact hidle fun hmem => ht (List.mem_append_left _ hmem)
  | tbe => exact hwaiting (List.mem_append_left _ (htbe.mp hst))
  | wait => exact hwaiting (List.mem_append_right _ (hwait.mp hst))
  | exec =>
    have ht := hexec.mp hst
    change s'.stage t = .exec ∨ s'.stage t = .result
    rw [hexec', hresult', hq.exec, hq.result]
    refine h.writeback.mem_after_execute ?_
    rw [dispatched_qExec, hspec.exec]
    simp [ht]
  | result =>
    have ht := hresult.mp hst
    change s'.stage t = .result ∨ s'.stage t = .clear
    rw [hresult', hclear', hq.result, hq.clear,
      execute_qResult h.writeback.dispatched_nodup h.writeback.dispatched_range, hspec.result]
    rw [← List.take_append_drop 1 s.qResult, List.mem_append] at ht
    exact ht.symm.imp (List.mem_append_left _) id
  | clear =>
    have ht := hclear.mp hst
    exact hidle fun hmem => h.queue.not_mem_qClear hmem ht

/-- Settles O48: the captured slot is the unit's own tag, and the wait outlives every step. -/
theorem selfDependentUnitWaitsForEver : Obligations.SelfDependentUnitWaitsForEver := by
  refine ⟨fun s s' i k t hshape hself hk ha he => ?_, fun s s' t n h hw hrun => ?_⟩
  · obtain ⟨q, hq, rfl⟩ := request_of_class hk
    obtain ⟨s1, he1, hi⟩ := exec_issuedAs hshape hq (exec_answers_iff.mp ⟨s', he⟩) ha
    rw [he] at he1
    cases he1
    exact waitsOn_of_selfDependent hself hq hi
  · induction n generalizing s with
    | zero =>
      obtain rfl : s = s' := Host.Outcome.next.inj hrun
      have hq : t ∈ s.queued := by
        obtain ⟨hmem, -⟩ := h.dependency.slots t t hw
        rw [mem_queued]
        simp only [List.mem_append] at hmem
        tauto
      have hbusy := (h.queue.busyIff t).mpr hq
      exact ⟨hw, hbusy, not_finished_of_busy hbusy⟩
    | succ n ih =>
      obtain ⟨s1, hs, hrun⟩ := run_succ_next hrun
      exact ih s1 (h.after_step hs).1 (selfWait_step h hw hs) hrun

/-- Settles O49: the phases find nothing to do, and no record stands at the pc. -/
theorem finishedStateIsStable : Obligations.FinishedStateIsStable :=
  fun _ => ⟨isFinished_iff, fun hfin hadm => step_of_finished hadm hfin⟩

end Sys2Proof
end

section
/-! PROOFS. What each kind of state can be changed by over a step (10_state.md R28, R31, R38, 60_exceptions.md R281):
registers by a broadcast, memory and lines by an access, the pc by an issue or a branch, flags by being set. -/

namespace Sys2Proof.Machine

/-! ### Registers -/

/-- R131: a rename changes no value field, whether the register exists or not. -/
theorem rename_value (s : State) (d : Reg) (t : Nat) (r : Reg) :
    ((s.rename d t).reg r).value = (s.reg r).value := by
  by_cases hrd : r = d
  · subst hrd
    by_cases hr : s.holds r
    · rw [reg_rename_same s hr]
    · have hsame : s.rename r t = s := by
        unfold State.rename State.setReg
        unfold State.holds at hr
        cases hf : r.file <;> simp only [hf, not_lt] at hr <;>
          simp only [List.set_eq_of_length_le hr]
      rw [hsame]
  · rw [reg_rename_ne s hrd]

/-- R143: no instruction changes a register's value at issue, and none shows anything on the bus. -/
theorem exec_keeps_values {s s' : State} {i : Instr} (he : exec i s = .next s') :
    (∀ r, (s'.reg r).value = (s.reg r).value) ∧ s'.busEvent = s.busEvent := by
  obtain rfl | rfl | ⟨q, t, rfl⟩ := exec_next_cases he
  · exact ⟨fun _ => rfl, rfl⟩
  · exact ⟨fun _ => rfl, rfl⟩
  · refine ⟨fun r => ?_, by rw [issuedInto_frame]⟩
    have hclaim : (s.issuedInto q t).reg r = (s.claimUnit q t).reg r :=
      reg_congr (setUnit_gpr ..) (setUnit_fpr ..) r
    have hset : (s.setUnit t ((s.unit t).claim q)).reg r = s.reg r :=
      reg_congr (setUnit_gpr ..) (setUnit_fpr ..) r
    rw [hclaim]
    unfold State.claimUnit
    cases q.dest with
    | none => exact congrArg Register.value hset
    | some d => exact (rename_value _ d t r).trans (congrArg Register.value hset)

theorem execute_busEvent (s : State) : s.execute.busEvent = s.busEvent := by
  obtain ⟨-, -, -, -, -, -, -, -, -, -, hbus⟩ := countDownAll_frame s.dispatched.qExec s.dispatched
  refine hbus.trans ?_
  rw [dispatched_frame]
  rfl

/-- R38: over a step registers keep their values but for what they hear of the bus. -/
theorem step_values {s s' : State} (h : step s = .next s') :
    (∀ r, (s'.reg r).value = ((s.reg r).hear s'.busEvent).value) ∧
      s'.busEvent = s.writeback.busEvent := by
  obtain ⟨-, -, hgpr, hfpr, -⟩ := execute_frame s.writeback
  have hreg : ∀ r, s.writeback.execute.reg r = (s.reg r).hear s.writeback.busEvent := fun r =>
    (reg_congr hgpr hfpr r).trans ((writeback_spec s).reg r)
  have hbus := execute_busEvent s.writeback
  obtain ⟨-, ⟨-, rfl⟩ | ⟨w, s1, -, he, rfl⟩⟩ := step_next h
  · refine ⟨fun r => ?_, hbus⟩
    rw [endCycle_busEvent, hbus]
    exact congrArg Register.value (hreg r)
  · obtain ⟨hvalue, hexec⟩ := exec_keeps_values he
    refine ⟨fun r => ?_, hexec.trans hbus⟩
    rw [endCycle_busEvent, hexec, hbus]
    exact (hvalue r).trans (congrArg Register.value (hreg r))

/-! ### Memory -/

/-- A write changes no byte but its own, in canonical form or not. -/
theorem read_write_ne (m : Memory) {a x : Nat} (b : Byte) (h : x ≠ a) :
    (m.write a b).read x = m.read x := by
  induction m with
  | nil =>
    unfold Memory.write
    split
    · rfl
    · rw [Memory.read_cons, if_neg (Ne.symm h)]
  | cons c m ih =>
    unfold Memory.write
    split
    · split
      · rfl
      · rw [Memory.read_cons, if_neg (Ne.symm h)]
    split
    · rename_i hac
      have hother : Memory.read (c :: m) x = Memory.read m x := by
        rw [Memory.read_cons, if_neg (by omega)]
      split
      · exact hother.symm
      · rw [Memory.read_cons, if_neg (Ne.symm h), hother]
    · rw [Memory.read_cons, Memory.read_cons, ih]

theorem writeBytes_read_outside (c : Config) (bs : List Byte) (m : Memory)
    (lines : List CacheLine) (p : Nat) {x : Nat} (h : x < p ∨ p + bs.length ≤ x) :
    (writeBytes c m lines p bs).1.read x = m.read x := by
  induction bs generalizing m lines p with
  | nil => rfl
  | cons b bs ih =>
    simp only [List.length_cons] at h
    exact (ih _ _ (p + 1) (by omega)).trans (read_write_ne m b (by omega))

/-- R75, R76: a write changes a byte only in bounds, and only one that the access covers. -/
theorem memWrite_changes {s : State} {ea : Word} {w : Width} {v : Word} {p : Nat}
    (h : (s.memWrite ea w v).mem.read p ≠ s.mem.read p) :
    s.accessInBounds ea w.bytes ∧ ea.toNat ≤ p ∧ p < ea.toNat + w.bytes := by
  by_cases hb : s.accessInBounds ea w.bytes
  · refine ⟨hb, ?_⟩
    by_contra hout
    rw [← inBounds_iff_access] at hb
    unfold State.memWrite at h
    rw [if_pos hb] at h
    refine h (writeBytes_read_outside s.cfg _ s.mem s.lines ea.toNat ?_)
    rw [length_bytesOfValue]
    omega
  · rw [memWrite_outOfBounds v hb] at h
    exact absurd rfl h

/-! ### Lines -/

/-- R83: an access changes a line only in bounds, and only one that it touches. -/
theorem memWrite_line_changes {s : State} {ea : Word} {w : Width} {v : Word} {i : Nat}
    (h : lineAt s.cfg (s.memWrite ea w v).lines i ≠ lineAt s.cfg s.lines i) :
    s.accessInBounds ea w.bytes ∧ touchesLine s.cfg ea w.bytes i := by
  by_cases hb : s.accessInBounds ea w.bytes
  · exact ⟨hb, by_contra fun hi => h ((memWrite_visits v hb).untouched hi)⟩
  · rw [memWrite_outOfBounds v hb] at h
    exact absurd rfl h

theorem memRead_line_changes {s : State} {ea : Word} {w : Width} {i : Nat}
    (h : lineAt s.cfg (s.memRead ea w).2.lines i ≠ lineAt s.cfg s.lines i) :
    s.accessInBounds ea w.bytes ∧ touchesLine s.cfg ea w.bytes i := by
  by_cases hb : s.accessInBounds ea w.bytes
  · exact ⟨hb, by_contra fun hi => h ((memRead_visits hb).untouched hi)⟩
  · rw [memRead_outOfBounds hb] at h
    exact absurd rfl h

/-- R83: the access by which the completion of a unit changes line `i`. -/
def LoadTouches (c : Config) (u : FunctionalUnit) (i : Nat) (ea : Word) (n : Nat) : Prop :=
  inBounds c ea n = true ∧ touchesLine c ea n i ∧ u.address? = some ea ∧
    (u.op = .lw ∧ n = 4 ∨ u.op = .ld ∧ n = 8)

/-- R83: a completion changes a line only as a load that touches it. -/
theorem complete_line_changes {s : State} {t i : Nat}
    (h : lineAt s.cfg (s.complete t).lines i ≠ lineAt s.cfg s.lines i) :
    ∃ ea n, LoadTouches s.cfg (s.unit t) i ea n := by
  have hload : opcodeClass (s.unit t).op = some .load := by
    by_contra hc
    rw [(complete_completedAs s t).lines hc] at h
    exact h rfl
  obtain ⟨op, n, hopn, hop⟩ : ∃ op n, (op = .lw ∧ n = 4 ∨ op = .ld ∧ n = 8) ∧
      (s.unit t).op = op := by
    cases hop : (s.unit t).op <;> rw [hop] at hload <;> cases hload
    case lw => exact ⟨.lw, 4, .inl ⟨rfl, rfl⟩, rfl⟩
    case ld => exact ⟨.ld, 8, .inr ⟨rfl, rfl⟩, rfl⟩
  obtain ⟨w, rfl, hcomplete⟩ := complete_of_load hopn
  rw [hcomplete s t hop] at h
  unfold State.completeLoad at h
  cases ha : (s.unit t).address? with
  | none =>
    rw [ha] at h
    exact absurd (by simp) h
  | some ea =>
    rw [ha] at h
    simp only [setResult_lines] at h
    obtain ⟨hb, htouch⟩ := memRead_line_changes h
    exact ⟨ea, w.bytes, inBounds_iff_access.mpr hb, htouch, ha, by rwa [hop]⟩

theorem countDown_line_changes {s : State} {t i : Nat}
    (h : lineAt s.cfg (s.countDown t).lines i ≠ lineAt s.cfg s.lines i) :
    (s.unit t).remaining ≤ 1 ∧ ∃ ea n, LoadTouches s.cfg (s.unit t) i ea n := by
  obtain ⟨-, he⟩ | ⟨hz, he⟩ := countDown_cases s t <;> rw [he] at h
  · rw [tick_lines] at h
    exact absurd rfl h
  · have hsame : (s.tick t).unit t =
        { s.unit t with remaining := ((s.tick t).unit t).remaining } := by
      rw [tick_unit]
      split <;> rfl
    have hchange : lineAt (s.tick t).cfg ((s.tick t).complete t).lines i ≠
        lineAt (s.tick t).cfg (s.tick t).lines i := by
      rw [tick_cfg, tick_lines]
      exact h
    obtain ⟨ea, n, hload⟩ := complete_line_changes hchange
    rw [tick_cfg, hsame] at hload
    refine ⟨?_, ea, n, hload⟩
    rw [tick_unit] at hz
    split at hz
    · simp only at hz
      omega
    · omega

theorem foldl_countDown_line_changes {l : List Nat} {s : State} (hnodup : l.Nodup) {i : Nat}
    (h : lineAt s.cfg (l.foldl State.countDown s).lines i ≠ lineAt s.cfg s.lines i) :
    ∃ t ∈ l, (s.unit t).remaining ≤ 1 ∧ ∃ ea n, LoadTouches s.cfg (s.unit t) i ea n := by
  induction l generalizing s with
  | nil => exact absurd rfl h
  | cons x l ih =>
    obtain ⟨hx, hnodup⟩ := List.nodup_cons.mp hnodup
    have hdown := countDown_countedDown s x
    by_cases hfirst : lineAt s.cfg (s.countDown x).lines i = lineAt s.cfg s.lines i
    · obtain ⟨t, ht, hload⟩ := ih (s := s.countDown x) hnodup (by rwa [hdown.cfg, hfirst])
      rw [hdown.cfg, hdown.otherUnits t fun he => hx (he ▸ ht)] at hload
      exact ⟨t, by simp [ht], hload⟩
    · exact ⟨x, by simp, countDown_line_changes hfirst⟩

/-! ### The pc -/

/-- R30: an unstalled front end has no branch in flight. -/
theorem State.Inv.stalled_of_branch {s : State} (h : s.Inv) {t : Nat}
    (ht : t ∈ s.qTbe ++ s.qWait ++ s.qExec) (hb : isBranch (s.unit t).op = true) :
    s.branchStall = true := by
  have hcount := h.branch
  unfold State.BranchInv at hcount
  have hpos : 0 < ((s.qTbe ++ s.qWait ++ s.qExec).filter fun t => isBranch (s.unit t).op).length :=
    List.length_pos_of_mem (List.mem_filter.mpr ⟨ht, hb⟩)
  by_contra hstall
  rw [if_neg hstall] at hcount
  omega

/-! ### Flags -/

/-- R281: no step clears a flag. -/
theorem step_setIn {s s' : State} (h : step s = .next s') : s.warn.SetIn s'.warn := by
  have hwrite : s.warn.SetIn s.writeback.warn := by
    obtain ⟨-, -, -, hwarn⟩ | ⟨t, ea, w, v, -, -, -, -, hwarn⟩ := writeback_storeWritten s <;>
      rw [hwarn]
    · exact Warnings.SetIn.refl _
    · obtain he | he := memWrite_warn_cases s ea w v <;> rw [he]
      · exact Warnings.SetIn.refl _
      · exact Warnings.setIn_raise _ _
  have hdispatch : s.writeback.dispatched.warn = s.writeback.warn := by
    rw [dispatched_frame]
    rfl
  have hexecute : s.writeback.warn.SetIn s.writeback.execute.warn := by
    rw [← hdispatch]
    exact foldl_countDown_setIn _ _
  refine (hwrite.trans hexecute).trans ?_
  obtain ⟨-, ⟨-, rfl⟩ | ⟨w, s1, -, he, rfl⟩⟩ := step_next h
  · exact Warnings.SetIn.refl _
  · obtain rfl | rfl | ⟨q, t, rfl⟩ := exec_next_cases he
    · exact Warnings.setIn_raise _ .unknownInstr
    · exact Warnings.setIn_raise _ .exhaustion
    · rw [endCycle_warn, issuedInto_frame]
      exact Warnings.SetIn.refl _

end Sys2Proof.Machine

namespace Sys2Proof
open Machine

/-- Settles O50: a register that hears of its producer takes the value that the bus shows. -/
theorem registerChangesOnlyByItsProducer : Obligations.RegisterChangesOnlyByItsProducer := by
  intro s s' r hs hchange
  obtain ⟨hvalue, hbus⟩ := step_values hs
  rw [hvalue r] at hchange ⊢
  cases he : s'.busEvent with
  | none =>
    rw [he] at hchange
    exact absurd rfl hchange
  | some x =>
    rw [he] at hchange
    have hprod : (s.reg r).producer = x.1 := by
      by_contra hne
      exact hchange (congrArg Register.value (resolve_of_ne x.2 hne))
    obtain ⟨-, -, hpub⟩ := ((writeback_spec s).bus x.1 x.2).mp (hbus.symm.trans he)
    refine ⟨by rw [hprod]; exact published_ne_zero hpub, ?_⟩
    change some x = some (_, ((s.reg r).resolve x.1 x.2).value)
    rw [resolve_of_eq x.2 hprod, hprod]

/-- Settles O51: the one store of the Writeback phase, and the loads of the Execute phase. -/
theorem memoryChangesOnlyByAStoreService : Obligations.MemoryChangesOnlyByAStoreService := by
  have hwidth : ∀ (op : Opcode) (w : Width), (op = .sw ∧ w = .four ∨ op = .sd ∧ w = .eight) →
      (op = .sw ∧ w.bytes = 4 ∨ op = .sd ∧ w.bytes = 8) := by
    rintro op w (⟨rfl, rfl⟩ | ⟨rfl, rfl⟩) <;> simp [Width.bytes]
  refine ⟨fun s s' p hs hchange => ?_, fun s s' i h hs hchange => ?_⟩
  · rw [step_mem hs] at hchange
    obtain ⟨-, hmem, -⟩ | ⟨t, ea, w, v, hhead, haccess, hmem, -⟩ := writeback_storeWritten s <;>
      rw [hmem] at hchange
    · exact absurd rfl hchange
    · obtain ⟨hb, hlow, hhigh⟩ := memWrite_changes hchange
      obtain ⟨haddr, hop⟩ := storeAccess_eq_some haccess
      exact ⟨t, s.qResult.tail, ea, w.bytes, List.eq_cons_of_mem_head? hhead, haddr,
        hwidth _ w hop, hb, hlow, hhigh⟩
  · have hlines : s'.lines = s.writeback.execute.lines := by
      obtain ⟨-, ⟨-, rfl⟩ | ⟨w, s1, -, he, rfl⟩⟩ := step_next hs
      · rfl
      · exact (exec_frame he).2.2.1
    have hcfg : s.writeback.dispatched.cfg = s.cfg := by
      rw [dispatched_frame]
      exact (writeback_frame s).1
    have hstart : s.writeback.dispatched.lines = s.writeback.lines := by
      rw [dispatched_frame]
      rfl
    rw [hlines] at hchange
    by_cases hback : lineAt s.cfg s.writeback.lines i = lineAt s.cfg s.lines i
    · rw [← hback, ← hstart, ← hcfg] at hchange
      obtain ⟨t, ht, hlast, ea, n, hb, htouch, haddr, hop⟩ :=
        foldl_countDown_line_changes h.writeback.dispatched_nodup hchange
      rw [hcfg] at hb htouch
      exact ⟨t, ea, n, inBounds_iff_access.mp hb, htouch, .inr ⟨ht, hlast, haddr, hop⟩⟩
    · obtain ⟨-, -, hsame, -⟩ | ⟨t, ea, w, v, hhead, haccess, -, hwritten, -⟩ :=
        writeback_storeWritten s
      · exact absurd (by rw [hsame]) hback
      · rw [hwritten] at hback
        obtain ⟨hb, htouch⟩ := memWrite_line_changes hback
        obtain ⟨haddr, hop⟩ := storeAccess_eq_some haccess
        exact ⟨t, ea, w.bytes, hb, htouch,
          .inl ⟨s.qResult.tail, List.eq_cons_of_mem_head? hhead, haddr, hwidth _ w hop⟩⟩

/-- Settles O52: the Execute phase moves the pc by a branch that completes, and then nothing is fetched. -/
theorem pcChangesOnlyByIssueOrBranch : Obligations.PcChangesOnlyByIssueOrBranch := by
  intro s s' h hs
  have hw := writeback_spec s
  obtain ⟨-, -, hpcw, hstallw, -⟩ := writeback_frame s
  obtain hpc | ⟨t, ht, hlast, htakes, hpc⟩ := execute_pc_cases h.writeback.dispatched_nodup
  · rw [hpcw] at hpc
    obtain ⟨-, ⟨-, rfl⟩ | ⟨w, s1, hf, he, rfl⟩⟩ := step_next hs
    · exact .inl hpc
    · rw [← hpc]
      exact (exec_consumes_at_most_one he).1.imp id fun hmoved =>
        .inl ⟨(fetch_eq_some_iff.mp hf).1, hmoved⟩
  · have hsame := dispatched_sameRequest s.writeback t
    have hmem : t ∈ s.qTbe ++ s.qWait ++ s.qExec := by
      rw [dispatched_qExec, hw.tbe, hw.wait, hw.exec] at ht
      simp only [List.mem_append, List.mem_filter] at ht ⊢
      tauto
    have hunit : s.writeback.unit t = (s.unit t).hear s.writeback.busEvent := by
      rw [hw.unit t, if_neg (h.queue.not_mem_qClear (List.mem_append_left _ hmem))]
    have hop : (s.writeback.dispatched.unit t).op = (s.unit t).op := by
      rw [hsame.op, hunit, hear_op]
    have htarget : (s.writeback.dispatched.unit t).target = (s.unit t).target := by
      rw [hsame.target, hunit, hear_target]
    have hbranch := htakes.isBranch
    obtain ⟨a, b, hj, hk, -⟩ := htakes
    obtain ⟨-, hreleased⟩ := (execute_retiredAs h.writeback.dispatched_nodup
      h.writeback.dispatched_range ht hlast).branch a b hj hk hbranch
    rw [hop] at hbranch
    have hstall := h.stalled_of_branch hmem hbranch
    obtain ⟨-, ⟨-, rfl⟩ | ⟨w, s1, hf, -, -⟩⟩ := step_next hs
    · exact .inr (.inr ⟨hstall, hreleased, t, hmem, hbranch, hpc.trans htarget⟩)
    · rw [(fetch_eq_some_iff.mp hf).1] at hstall
      cases hstall

/-- Settles O53. -/
theorem warningsAreSticky : Obligations.WarningsAreSticky := fun _ _ a hs => step_setIn hs a

end Sys2Proof
end

section
/-! PROOFS. Ignored fields (30_encoding.md R106) and the program in the back half of a cycle (41_scheduler_and_cdb.md
R160): the Writeback and Execute phases read neither the program nor the copies of the record fields that an
opcode does not use, so they commute with any change of these. -/

namespace Sys2Proof.Machine

/-! ### Views -/

/-- A change of the copies of `imm` and `target` in the units that leaves the immediate of loads and stores, the
target of branches and a unit at reset as they are (R106). -/
structure FieldView where
  imm : Opcode → Word → Word
  target : Opcode → InstrIndex → InstrIndex
  imm_load : ∀ op, opcodeClass op = some .load → ∀ x, imm op x = x
  imm_store : ∀ op, opcodeClass op = some .store → ∀ x, imm op x = x
  target_branch : ∀ op, isBranch op = true → ∀ x, target op x = x
  imm_reset : imm .unknown 0 = 0
  target_reset : target .unknown 0 = 0

/-- The view that changes nothing. -/
def FieldView.whole : FieldView where
  imm _ x := x
  target _ x := x
  imm_load _ _ _ := rfl
  imm_store _ _ _ := rfl
  target_branch _ _ _ := rfl
  imm_reset := rfl
  target_reset := rfl

/-- R106: the view that erases the ignored copies. -/
def FieldView.used : FieldView where
  imm op x := match opcodeClass op with
    | some .load | some .store => x
    | _ => 0
  target op x := if isBranch op then x else 0
  imm_load op h x := by rw [h]
  imm_store op h x := by rw [h]
  target_branch op h x := if_pos h
  imm_reset := rfl
  target_reset := rfl

/-- A unit under a view. -/
def FieldView.unit (f : FieldView) (u : FunctionalUnit) : FunctionalUnit :=
  { u with imm := f.imm u.op u.imm, target := f.target u.op u.target }

/-- A state under a view, with another program. -/
def State.seen (f : FieldView) (p : List Record) (s : State) : State :=
  { s with imem := p, units := s.units.map f.unit }

section
variable (f : FieldView) (p : List Record)

theorem FieldView.unit_reset : f.unit FunctionalUnit.reset = FunctionalUnit.reset := by
  have himm := f.imm_reset
  have htarget := f.target_reset
  unfold FieldView.unit FunctionalUnit.reset
  simp only [himm, htarget]

theorem FieldView.unit_deliver (t : Nat) (v : Word) (u : FunctionalUnit) :
    f.unit (u.deliver t v) = (f.unit u).deliver t v := by
  unfold FunctionalUnit.deliver
  by_cases hb : u.busy = true
  · rw [if_pos hb, if_pos (show (f.unit u).busy = true from hb)]
    rfl
  · rw [if_neg hb, if_neg (show ¬ (f.unit u).busy = true from hb)]

theorem FieldView.address_load {u : FunctionalUnit} (h : opcodeClass u.op = some .load) :
    (f.unit u).address? = u.address? := by
  unfold FunctionalUnit.address? FieldView.unit
  simp only [f.imm_load u.op h]

theorem FieldView.address_store {u : FunctionalUnit} (h : opcodeClass u.op = some .store) :
    (f.unit u).address? = u.address? := by
  unfold FunctionalUnit.address? FieldView.unit
  simp only [f.imm_store u.op h]

theorem FieldView.latency_unit (c : Config) (lines : List CacheLine) (u : FunctionalUnit) :
    latency c lines (f.unit u) = latency c lines u := by
  have hop : (f.unit u).op = u.op := rfl
  unfold latency cacheTerm
  rw [hop]
  cases h : u.op
  case lw | ld => rw [f.address_load (by rw [h]; rfl)]
  case sw | sd => rw [f.address_store (by rw [h]; rfl)]
  all_goals rfl

theorem FieldView.published_unit (u : FunctionalUnit) : (f.unit u).published = u.published := rfl

theorem FieldView.storeAccess_unit (u : FunctionalUnit) :
    (f.unit u).storeAccess = u.storeAccess := by
  have hop : (f.unit u).op = u.op := rfl
  unfold FunctionalUnit.storeAccess
  rw [hop]
  cases h : u.op
  case sw | sd => rw [f.address_store (by rw [h]; rfl)]; rfl
  all_goals rfl

/-! ### The operations under a view -/

variable (s : State)

theorem seen_unit (t : Nat) : (s.seen f p).unit t = f.unit (s.unit t) := by
  cases t with
  | zero => exact f.unit_reset.symm
  | succ n =>
    simp only [State.unit, State.seen, List.getD_eq_getElem?_getD, List.getElem?_map]
    cases s.units[n]? with
    | none => exact f.unit_reset.symm
    | some u => rfl

theorem seen_setUnit (t : Nat) (u : FunctionalUnit) :
    (s.setUnit t u).seen f p = (s.seen f p).setUnit t (f.unit u) := by
  cases t with
  | zero => rfl
  | succ n => simp only [State.setUnit, State.seen, List.map_set]

theorem seen_setResult (t : Nat) (v : Word) :
    (s.setResult t v).seen f p = (s.seen f p).setResult t v := by
  unfold State.setResult
  rw [seen_setUnit, seen_unit]
  rfl

theorem seen_fanOut (t : Nat) (v : Word) :
    (s.fanOut t v).seen f p = (s.seen f p).fanOut t v := by
  simp only [State.fanOut, State.seen, List.map_map]
  congr 1
  exact List.map_congr_left fun u _ => f.unit_deliver t v u

theorem seen_memRead (ea : Word) (w : Width) : (s.seen f p).memRead ea w =
    ((s.memRead ea w).1, (s.memRead ea w).2.seen f p) := by
  by_cases hb : s.accessInBounds ea w.bytes
  · have hb' : (s.seen f p).accessInBounds ea w.bytes := hb
    rw [← inBounds_iff_access] at hb hb'
    unfold State.memRead
    rw [if_pos hb, if_pos hb']
    rfl
  · have hb' : ¬ (s.seen f p).accessInBounds ea w.bytes := hb
    rw [memRead_outOfBounds hb, memRead_outOfBounds hb']
    rfl

theorem seen_memWrite (ea : Word) (w : Width) (v : Word) :
    (s.memWrite ea w v).seen f p = (s.seen f p).memWrite ea w v := by
  by_cases hb : s.accessInBounds ea w.bytes
  · have hb' : (s.seen f p).accessInBounds ea w.bytes := hb
    rw [← inBounds_iff_access] at hb hb'
    unfold State.memWrite
    rw [if_pos hb, if_pos hb']
    rfl
  · have hb' : ¬ (s.seen f p).accessInBounds ea w.bytes := hb
    rw [memWrite_outOfBounds v hb, memWrite_outOfBounds v hb']
    rfl

theorem seen_service (t : Nat) : (s.service t).seen f p = (s.seen f p).service t := by
  have hother := service_effect (s.seen f p) t
  rw [seen_unit, f.published_unit, f.storeAccess_unit] at hother
  obtain ⟨v, hv, he⟩ | ⟨hnone, ⟨ea, w, v, ha, he⟩ | ⟨ha, he⟩⟩ := service_effect s t
  · rw [hv] at hother
    obtain ⟨v', hv', he'⟩ | ⟨hnone', -⟩ := hother
    · cases hv'
      rw [he, he', ← seen_fanOut]
      rfl
    · cases hnone'
  · rw [hnone, ha] at hother
    obtain ⟨v', hv', -⟩ | ⟨-, ⟨ea', w', v', ha', he'⟩ | ⟨ha', -⟩⟩ := hother
    · cases hv'
    · cases ha'
      rw [he, he', seen_memWrite]
    · cases ha'
  · rw [hnone, ha] at hother
    obtain ⟨v', hv', -⟩ | ⟨-, ⟨ea', w', v', ha', -⟩ | ⟨-, he'⟩⟩ := hother
    · cases hv'
    · cases ha'
    · rw [he, he']

/-! ### Completion -/

theorem seen_completeArith (t : Nat) (warns : Word → Word → Bool) (g : Word → Word → Word) :
    (s.completeArith t warns g).seen f p = (s.seen f p).completeArith t warns g := by
  have hj : ((s.seen f p).unit t).j = (s.unit t).j := by rw [seen_unit]; rfl
  have hk : ((s.seen f p).unit t).k = (s.unit t).k := by rw [seen_unit]; rfl
  unfold State.completeArith
  rw [hj, hk]
  split
  · rw [seen_setResult]
    split <;> rfl
  · rw [seen_setResult]
    rfl

theorem seen_completeLoad (t : Nat) (w : Width) (hload : opcodeClass (s.unit t).op = some .load) :
    (s.completeLoad t w).seen f p = (s.seen f p).completeLoad t w := by
  have haddress : ((s.seen f p).unit t).address? = (s.unit t).address? := by
    rw [seen_unit, f.address_load hload]
  unfold State.completeLoad
  rw [haddress]
  split
  · rw [seen_setResult, seen_memRead]
  · rw [seen_setResult]
    rfl

theorem seen_completeStore (t : Nat) :
    (s.completeStore t).seen f p = (s.seen f p).completeStore t := by
  have hj : ((s.seen f p).unit t).j = (s.unit t).j := by rw [seen_unit]; rfl
  have hdata : ((s.seen f p).unit t).data = (s.unit t).data := by rw [seen_unit]; rfl
  unfold State.completeStore
  rw [hj, hdata]
  split
  · rfl
  · rw [seen_setUnit, seen_unit]
    rfl

theorem seen_completeBranch (t : Nat) (taken : Word → Word → Bool)
    (hbranch : isBranch (s.unit t).op = true) :
    (s.completeBranch t taken).seen f p = (s.seen f p).completeBranch t taken := by
  have hj : ((s.seen f p).unit t).j = (s.unit t).j := by rw [seen_unit]; rfl
  have hk : ((s.seen f p).unit t).k = (s.unit t).k := by rw [seen_unit]; rfl
  have htarget : ((s.seen f p).unit t).target = (s.unit t).target := by
    rw [seen_unit]; exact f.target_branch _ hbranch _
  unfold State.completeBranch
  rw [hj, hk, htarget]
  split <;> rfl

theorem seen_complete (t : Nat) : (s.complete t).seen f p = (s.seen f p).complete t := by
  have hop : ((s.seen f p).unit t).op = (s.unit t).op := by rw [seen_unit]; rfl
  unfold State.complete
  rw [hop]
  cases h : (s.unit t).op
  case unknown => rfl
  case lw | ld => exact seen_completeLoad f p s t _ (by rw [h]; rfl)
  case sw | sd => exact seen_completeStore f p s t
  case beq | bne => exact seen_completeBranch f p s t _ (by rw [h]; rfl)
  all_goals exact seen_completeArith f p s t _ _

/-! ### The phases under a view -/

theorem seen_freeUnit (t : Nat) : (s.freeUnit t).seen f p = (s.seen f p).freeUnit t := by
  unfold State.freeUnit
  rw [seen_setUnit, f.unit_reset]

theorem seen_foldl {op : State → Nat → State}
    (hop : ∀ s t, (op s t).seen f p = op (s.seen f p) t) (l : List Nat) :
    (l.foldl op s).seen f p = l.foldl op (s.seen f p) := by
  induction l generalizing s with
  | nil => rfl
  | cons t l ih => rw [List.foldl_cons, List.foldl_cons, ih, hop]

theorem seen_serviceOldest : s.serviceOldest.seen f p = (s.seen f p).serviceOldest := by
  have hresult : (s.seen f p).qResult = s.qResult := rfl
  unfold State.serviceOldest
  rw [hresult]
  cases s.qResult with
  | nil => rfl
  | cons t rest =>
    have hservice := seen_service f p { s with qResult := rest } t
    exact congrArg (fun x : State => { x with qClear := x.qClear ++ [t] }) hservice

theorem seen_writeback : s.writeback.seen f p = (s.seen f p).writeback := by
  unfold State.writeback
  rw [seen_serviceOldest]
  unfold State.freeCleared
  rw [seen_foldl f p _ (seen_freeUnit f p)]
  rfl

theorem seen_isReady (t : Nat) : (s.seen f p).isReady t = s.isReady t := by
  unfold State.isReady
  rw [seen_unit]
  rfl

theorem seen_dispatchUnit (t : Nat) :
    (s.dispatchUnit t).seen f p = (s.seen f p).dispatchUnit t := by
  have hset : (s.setUnit t { s.unit t with
        remaining := latency s.cfg s.lines (s.unit t) }).seen f p =
      (s.seen f p).setUnit t { (s.seen f p).unit t with
        remaining := latency s.cfg s.lines ((s.seen f p).unit t) } := by
    rw [seen_setUnit, seen_unit, f.latency_unit]
    rfl
  exact congrArg (fun x : State => { x with qExec := x.qExec ++ [t] }) hset

theorem seen_dispatched : s.dispatched.seen f p = (s.seen f p).dispatched := by
  have hready : (s.seen f p).isReady = s.isReady := funext (seen_isReady f p s)
  have hwake : s.classify.wake.seen f p = (s.seen f p).classify.wake := by
    have hwake' : ((s.classify).seen f p).isReady = s.classify.isReady :=
      funext (seen_isReady f p s.classify)
    have hclassify : s.classify.seen f p = (s.seen f p).classify := by
      unfold State.classify
      rw [hready]
      rfl
    rw [← hclassify]
    unfold State.wake
    rw [hwake']
    rfl
  have hlist : (s.seen f p).readyIssued ++ (s.seen f p).classify.readyWaiters =
      s.readyIssued ++ s.classify.readyWaiters := by
    rw [classify_readyWaiters, classify_readyWaiters]
    unfold State.readyIssued
    rw [hready]
    rfl
  unfold State.dispatched State.dispatchAll
  rw [hlist, seen_foldl f p _ (seen_dispatchUnit f p), hwake]

theorem seen_tick (t : Nat) : (s.tick t).seen f p = (s.seen f p).tick t := by
  unfold State.tick
  rw [seen_setUnit, seen_unit]
  rfl

theorem seen_retire (t : Nat) : (s.retire t).seen f p = (s.seen f p).retire t :=
  congrArg (fun x : State => { x with qExec := x.qExec.erase t, qResult := x.qResult ++ [t] })
    (seen_complete f p s t)

theorem seen_countDown (t : Nat) : (s.countDown t).seen f p = (s.seen f p).countDown t := by
  have hremaining : (((s.seen f p).tick t).unit t).remaining = ((s.tick t).unit t).remaining := by
    rw [← seen_tick, seen_unit]
    rfl
  unfold State.countDown
  simp only [hremaining]
  split
  · rw [seen_retire, seen_tick]
  · exact seen_tick f p s t

/-- R106, R160: the Writeback and Execute phases commute with a view. -/
theorem seen_phases : s.writeback.execute.seen f p = (s.seen f p).writeback.execute := by
  unfold State.execute State.countDownAll
  rw [seen_foldl f p _ (seen_countDown f p), ← seen_writeback, ← seen_dispatched]
  rfl

/-! ### Issue under a view -/

variable {f p s} {x y : State}

theorem seen_rename (x : State) (r : Reg) (t : Nat) :
    (x.rename r t).seen f p = (x.seen f p).rename r t := by
  have hreg : (x.seen f p).reg r = x.reg r := rfl
  unfold State.rename State.setReg
  rw [hreg]
  split <;> rfl

theorem claim_seen_eq {u v : FunctionalUnit} (h : f.unit u = f.unit v) (q : IssueRequest)
    {imm : BitVec 16} {target : InstrIndex}
    (himm : f.imm q.op (sext64 imm) = f.imm q.op (sext64 q.imm))
    (htarget : f.target q.op target = f.target q.op q.target) :
    f.unit (u.claim q) = f.unit (v.claim { q with imm := imm, target := target }) := by
  have hj : u.j = v.j := (congrArg FunctionalUnit.j h :)
  have hk : u.k = v.k := (congrArg FunctionalUnit.k h :)
  have hdata : u.data = v.data := (congrArg FunctionalUnit.data h :)
  unfold FieldView.unit FunctionalUnit.claim
  simp only [hj, hk, hdata, himm, htarget]

theorem captureOperands_seen (x : State) (q : IssueRequest) (t : Nat) :
    (x.captureOperands q t).seen f p = (x.seen f p).captureOperands q t := by
  have hcapture : (x.seen f p).captureSource = x.captureSource := rfl
  unfold State.captureOperands
  rw [seen_setUnit, seen_unit, hcapture]
  rfl

/-- R106, R143: two requests that differ in fields the view does not show issue alike on two states that look
alike. -/
theorem issuedInto_seen_eq (h : x.seen f p = y.seen f p) (q : IssueRequest) (t : Nat)
    {imm : BitVec 16} {target : InstrIndex}
    (himm : f.imm q.op (sext64 imm) = f.imm q.op (sext64 q.imm))
    (htarget : f.target q.op target = f.target q.op q.target) :
    (x.issuedInto q t).seen f p =
      (y.issuedInto { q with imm := imm, target := target } t).seen f p := by
  have hunit : f.unit (x.unit t) = f.unit (y.unit t) := by
    rw [← seen_unit f p, ← seen_unit f p, h]
  have htaken : (x.setUnit t ((x.unit t).claim q)).seen f p =
      (y.setUnit t ((y.unit t).claim { q with imm := imm, target := target })).seen f p := by
    rw [seen_setUnit, seen_setUnit, h, claim_seen_eq hunit q himm htarget]
  have hclaim : (x.claimUnit q t).seen f p =
      (y.claimUnit { q with imm := imm, target := target } t).seen f p := by
    unfold State.claimUnit
    cases hd : q.dest with
    | none => simpa only [hd] using htaken
    | some d => simpa only [hd, seen_rename] using congrArg (State.rename · d t) htaken
  have hcaptured : ((x.claimUnit q t).captureOperands q t).seen f p =
      ((y.claimUnit { q with imm := imm, target := target } t).captureOperands
        { q with imm := imm, target := target } t).seen f p := by
    rw [captureOperands_seen, captureOperands_seen, hclaim]
    rfl
  exact congrArg (fun z : State => z.enqueueIssued q t) hcaptured

theorem issue_seen_eq (h : x.seen f p = y.seen f p) (q : IssueRequest)
    {imm : BitVec 16} {target : InstrIndex}
    (himm : f.imm q.op (sext64 imm) = f.imm q.op (sext64 q.imm))
    (htarget : f.target q.op target = f.target q.op q.target) :
    mapNext (State.seen f p) (x.issue q) =
      mapNext (State.seen f p) (y.issue { q with imm := imm, target := target }) := by
  have hcfg : x.cfg = y.cfg := (congrArg State.cfg h :)
  have hbusy : ∀ t, (x.unit t).busy = (y.unit t).busy := fun t => by
    have hunit : f.unit (x.unit t) = f.unit (y.unit t) := by
      rw [← seen_unit f p, ← seen_unit f p, h]
    exact (congrArg FunctionalUnit.busy hunit :)
  have hallocate : x.allocate q.cls = y.allocate q.cls := by
    unfold State.allocate
    simp only [hcfg, hbusy]
  have hwarn : (x.warnOn .exhaustion).seen f p = (y.warnOn .exhaustion).seen f p :=
    congrArg (fun z : State => z.warnOn .exhaustion) h
  have hregs : IssueRequest.regs { q with imm := imm, target := target } = q.regs := rfl
  unfold State.issue
  rw [hregs, hcfg]
  simp only [hallocate]
  split
  · split
    · exact congrArg Host.Outcome.next hwarn
    · rename_i t _
      exact congrArg Host.Outcome.next (issuedInto_seen_eq h q t himm htarget)
  · rfl

end

/-! ### The program is read by the Issue phase only -/

theorem seen_whole (p : List Record) (s : State) : s.seen .whole p = { s with imem := p } := by
  have hunits : s.units.map FieldView.whole.unit = s.units :=
    (List.map_congr_left fun _ _ => rfl).trans (List.map_id _)
  unfold State.seen
  rw [hunits]

/-- R160: the Writeback and Execute phases do not read the program. -/
theorem phases_with_program (s : State) (p : List Record) :
    ({ s with imem := p } : State).writeback.execute =
      { s.writeback.execute with imem := p } := by
  rw [← seen_whole, ← seen_phases, seen_whole]

/-- Log entry 10: the placed record stands where the next step fetches. -/
theorem fetch_placeRecord (s : State) (w : Record) :
    (s.placeRecord w).writeback.execute.fetch (s.placeRecord w).branchStall = some w := by
  have hstall : (s.placeRecord w).branchStall = false := rfl
  rw [hstall, fetch_eq_some_iff, phases_imem]
  refine ⟨rfl, ?_⟩
  unfold State.placeRecord
  rw [phases_with_program]
  simp only
  rw [List.getElem?_set_self]
  rw [List.length_append, List.length_replicate]
  omega

/-! ### Ignored fields -/

theorem eraseIgnored_eq_seen (s : State) :
    ({ s.eraseIgnored with imem := [] } : State) = s.seen .used [] := rfl

theorem wellFormed_eraseIgnoredFields (c : Config) (i : Instr) :
    (eraseIgnoredFields i).wellFormed c = i.wellFormed c := by
  cases i <;> rfl

/-- R106, R143: erasing the ignored fields of an instruction erases them from its request. -/
theorem requestOf_eraseIgnoredFields {i : Instr} {q : IssueRequest} (h : requestOf i = some q) :
    ∃ imm target,
      requestOf (eraseIgnoredFields i) = some { q with imm := imm, target := target } ∧
      FieldView.used.imm q.op (sext64 imm) = FieldView.used.imm q.op (sext64 q.imm) ∧
      FieldView.used.target q.op target = FieldView.used.target q.op q.target := by
  cases i <;> simp only [requestOf, Option.some.injEq, reduceCtorEq] at h <;> subst h <;>
    exact ⟨_, _, rfl, rfl, rfl⟩

theorem exec_eraseIgnoredFields {x y : State} (h : x.seen .used [] = y.seen .used []) (i : Instr) :
    mapNext (State.seen .used []) (exec i x) =
      mapNext (State.seen .used []) (exec (eraseIgnoredFields i) y) := by
  cases hq : requestOf i with
  | none =>
    cases i <;> simp only [requestOf, reduceCtorEq] at hq
    exact congrArg (fun z : State => (Host.Outcome.next
      { z.warnOn .unknownInstr with pc := z.pc + 1 } : Host.Outcome State Fault Refusal)) h
  | some q =>
    obtain ⟨imm, target, hq', himm, htarget⟩ := requestOf_eraseIgnoredFields hq
    rw [exec_of_request hq, exec_of_request hq']
    exact issue_seen_eq h q himm htarget

/-- R106: instructions that differ in ignored fields do the same to states that look the same. -/
theorem exec_ignores_fields {x y x' : State} {i i' : Instr}
    (h : x.seen .used [] = y.seen .used []) (hi : eraseIgnoredFields i = eraseIgnoredFields i')
    (he : exec i x = .next x') :
    ∃ y', exec i' y = .next y' ∧ x'.seen .used [] = y'.seen .used [] := by
  have hmap : mapNext (State.seen .used []) (exec i x) =
      mapNext (State.seen .used []) (exec i' y) := by
    rw [exec_eraseIgnoredFields h, hi, ← exec_eraseIgnoredFields rfl]
  rw [he] at hmap
  cases hy : exec i' y with
  | next y' =>
    rw [hy] at hmap
    exact ⟨y', rfl, Host.Outcome.next.inj hmap⟩
  | fault r => cases r
  | refused r =>
    rw [hy] at hmap
    cases hmap

section
variable {s s' : State}

theorem SameButIgnored.seen (h : SameButIgnored s s') : s.seen .used [] = s'.seen .used [] := h.rest

theorem SameButIgnored.record (h : SameButIgnored s s') (k : Nat) :
    s.imem[k]?.map (fun w => eraseIgnoredFields (decode w)) =
      s'.imem[k]?.map (fun w => eraseIgnoredFields (decode w)) := by
  rw [← List.getElem?_map, ← List.getElem?_map, h.program]

theorem SameButIgnored.length (h : SameButIgnored s s') : s.imem.length = s'.imem.length := by
  simpa using congrArg List.length h.program

/-- R106, R107: ignored fields play no part in admission. -/
theorem SameButIgnored.admission (h : SameButIgnored s s') : s'.admission = s.admission := by
  have hcfg : s.cfg = s'.cfg := (congrArg State.cfg h.rest :)
  have herase : ∀ p : List Record, programWellFormed s.cfg p =
      (p.map fun w => eraseIgnoredFields (decode w)).all (Instr.wellFormed s.cfg) := fun p => by
    unfold programWellFormed
    rw [List.all_map]
    exact congrArg (p.all ·) (funext fun w => (wellFormed_eraseIgnoredFields s.cfg (decode w)).symm)
  have hwf : programWellFormed s.cfg s.imem = programWellFormed s.cfg s'.imem := by
    rw [herase, herase, h.program]
  unfold State.admission Machine.admission programFits
  rw [← hcfg, hwf, h.length]

/-- R106: the Issue phase fetches records that differ at most in ignored fields, or none on both sides. -/
theorem SameButIgnored.fetch (h : SameButIgnored s s') :
    (s.writeback.execute.fetch s.branchStall).map (fun w => eraseIgnoredFields (decode w)) =
      (s'.writeback.execute.fetch s'.branchStall).map fun w => eraseIgnoredFields (decode w) := by
  have hphases := congrArg (fun z : State => z.writeback.execute) h.seen
  simp only [← seen_phases] at hphases
  have hpc : s.writeback.execute.pc = s'.writeback.execute.pc := (congrArg State.pc hphases :)
  have hstall : s.branchStall = s'.branchStall := (congrArg State.branchStall h.rest :)
  unfold State.fetch
  rw [hpc, hstall, phases_imem, phases_imem]
  split
  · rfl
  · exact h.record _

/-- R106: a step keeps two machines alike. -/
theorem SameButIgnored.step {t : State} (h : SameButIgnored s s') (hs : Machine.step s = .next t) :
    ∃ t', Machine.step s' = .next t' ∧ SameButIgnored t t' := by
  have hphases := congrArg (fun z : State => z.writeback.execute) h.seen
  simp only [← seen_phases] at hphases
  have hcycle : ∀ {x y : State}, x.seen .used [] = y.seen .used [] →
      x.endCycle.seen .used [] = y.endCycle.seen .used [] := fun hxy =>
    congrArg State.endCycle hxy
  have hfetch := h.fetch
  have hafter : ∃ t', Machine.step s' = .next t' ∧ t.seen .used [] = t'.seen .used [] := by
    obtain ⟨hadm, ⟨hnone, rfl⟩ | ⟨w, x, hsome, he, rfl⟩⟩ := step_next hs
    · rw [hnone] at hfetch
      exact ⟨_, step_of_fetch_none (h.admission.trans hadm)
        (Option.map_eq_none_iff.mp hfetch.symm), hcycle hphases⟩
    · rw [hsome] at hfetch
      obtain ⟨w', hsome', hw'⟩ := Option.map_eq_some_iff.mp hfetch.symm
      obtain ⟨y, hy, hxy⟩ := exec_ignores_fields hphases hw'.symm he
      refine ⟨y.endCycle, ?_, hcycle hxy⟩
      rw [step_of_fetch_some (h.admission.trans hadm) hsome', hy]
      rfl
  obtain ⟨t', ht', hseen⟩ := hafter
  refine ⟨t', ht', ?_, hseen⟩
  rw [(step_inputs hs).2.1, (step_inputs ht').2.1, h.program]

end
end Sys2Proof.Machine

namespace Sys2Proof
open Machine

/-- Settles O22: the phases before the Issue phase do not read the program, so they leave the pc where the
record was placed. -/
theorem placedRecordIsConsumedNext : Obligations.PlacedRecordIsConsumedNext := by
  intro s nbits w hadm
  exact step_of_fetch_some hadm (fetch_placeRecord s (recordOfBits nbits w))

/-- Settles O54: the phases commute with erasing the ignored fields, and the Issue phase cannot tell erased
records apart. -/
theorem ignoredFieldsChangeNothing : Obligations.IgnoredFieldsChangeNothing :=
  fun _ _ _ h hs => h.step hs

end Sys2Proof
end

section
/-! PROOFS. One instruction alone in the machine (41_scheduler_and_cdb.md R190, R193): its issue on an idle machine,
the cycles of its latency, its completion, its service, and the cycle that frees its unit. -/

namespace Sys2Proof.Machine

/-! ### Issue on an idle machine -/

/-- The value a source has when every register is resolved. -/
def State.sourceValue (s : State) : Source → Word
  | .reg r => (s.reg r).value
  | .value v => v

/-- What the issue of a request into unit `t` of the idle machine `s` leaves, at any later count of cycles. -/
structure IssuedAlone (s : State) (q : IssueRequest) (t : Nat) (x : State) : Prop where
  nonzero : t ≠ 0
  inPool : t ≤ x.units.length
  unit : x.unit t =
    { busy := true, op := q.op, j := .resolved (s.sourceValue q.j),
      k := .resolved (s.sourceValue q.k), data := .resolved (s.sourceValue q.data),
      imm := sext64 q.imm, target := q.target, remaining := 0, result := none, squashed := false }
  otherUnits : ∀ u, u ≠ t → x.unit u = FunctionalUnit.reset
  registers : ∀ r, x.reg r = if q.dest = some r then { s.reg r with producer := t } else s.reg r
  tbe : x.qTbe = [t]
  wait : x.qWait = []
  exec : x.qExec = []
  result : x.qResult = []
  clear : x.qClear = []
  pc : x.pc = s.pc + 1
  stall : x.branchStall = isBranch q.op
  warn : x.warn = s.warn
  busEvent : x.busEvent = none
  lines : x.lines = s.lines
  mem : x.mem = s.mem
  cfg : x.cfg = s.cfg
  imem : x.imem = s.imem

theorem IssuedAlone.later {s x : State} {q : IssueRequest} {t : Nat} (h : IssuedAlone s q t x)
    (n : Nat) : IssuedAlone s q t { x with cycle := n } :=
  ⟨h.nonzero, h.inPool, h.unit, h.otherUnits, h.registers, h.tbe, h.wait, h.exec, h.result, h.clear,
    h.pc, h.stall, h.warn, h.busEvent, h.lines, h.mem, h.cfg, h.imem⟩

theorem IssuedAlone.ready {s x : State} {q : IssueRequest} {t : Nat} (h : IssuedAlone s q t x) :
    (x.unit t).ready = true := by
  rw [h.unit]
  rfl

/-- R7: every class has a unit. -/
theorem first_mem_classTags {c : Config} (hc : configAdmissible c = true) (k : UnitClass) :
    classBase c k + 1 ∈ classTags c k := by
  have hcounts : countsAdmissible c = true := by
    unfold configAdmissible at hc
    simp only [Bool.and_eq_true] at hc
    exact hc.1.1
  simp only [countsAdmissible, Bool.and_eq_true, decide_eq_true_eq] at hcounts
  rw [mem_classTags]
  cases k <;> simp only [classCount] <;> omega

section
variable {s : State}

theorem State.Idle.queues (h : s.Idle) :
    s.qTbe = [] ∧ s.qWait = [] ∧ s.qExec = [] ∧ s.qResult = [] ∧ s.qClear = [] := by
  have hqueued := h.queuesEmpty
  simp only [State.queued, List.append_eq_nil_iff] at hqueued
  obtain ⟨⟨⟨⟨htbe, hwait⟩, hexec⟩, hresult⟩, hclear⟩ := hqueued
  exact ⟨htbe, hwait, hexec, hresult, hclear⟩

/-- On an idle machine the phases before the Issue phase only clear the bus. -/
theorem State.Idle.phases (h : s.Idle) : s.writeback.execute = s.clearBus := by
  obtain ⟨htbe, hwait, hexec, hresult, hclear⟩ := h.queues
  have hquiet : s.clearBus.writeback = s.clearBus := writeback_of_nothing rfl hresult hclear
  rw [← writeback_clearBus, hquiet]
  exact execute_of_nothing htbe hwait hexec

theorem State.Idle.allocates (h : s.Idle) (hc : configAdmissible s.cfg = true) (k : UnitClass) :
    ∃ t, s.allocate k = some t := by
  cases ha : s.allocate k with
  | some t => exact ⟨t, rfl⟩
  | none =>
    have hbusy := allocate_none.mp ha _ (first_mem_classTags hc k)
    rw [h.unitsFree] at hbusy
    cases hbusy

theorem State.Idle.slotOf (h : s.Idle) {dest : Option Reg} (t : Nat) {x : Source}
    (hx : ∀ r ∈ x.regs, dest ≠ some r) :
    s.slotOf dest t x = .resolved (s.sourceValue x) := by
  cases x with
  | value v => rfl
  | reg r =>
    have hne : dest ≠ some r := hx r (List.mem_singleton_self r)
    exact (if_neg hne).trans (if_pos (h.noProducer r))

/-- R143 to R148: an instruction that does not read its destination issues on an idle machine into a unit whose
slots are all resolved. -/
theorem State.Idle.issue (h : s.Idle) (hs : s.Shaped) (hadm : s.admission = none) {w : Record}
    (hw : s.imem[s.pc.toNat]? = some w) {q : IssueRequest} (hq : requestOf (decode w) = some q)
    (hself : ∀ r ∈ (decode w).sources, q.dest ≠ some r) :
    ∃ t x, step s = .next x ∧ IssuedAlone s q t x := by
  obtain ⟨-, -, hdest, -, hregs⟩ := requestOf_spec hq
  obtain ⟨htbe, hwait, hexec, hresult, hclear⟩ := h.queues
  obtain ⟨t, ha⟩ := h.allocates (configAdmissible_of_admission hadm) q.cls
  obtain ⟨x, he, hi⟩ := exec_issuedAs (s := s.clearBus) ⟨hs.1, hs.2, hs.3, hs.4⟩ hq
    (wellFormed_of_admission hadm (List.mem_of_getElem? hw)) ha
  have hfetch : s.writeback.execute.fetch s.branchStall = some w := by
    rw [h.phases, fetch_eq_some_iff]
    exact ⟨h.running, hw⟩
  have hstep : step s = .next x.endCycle := by
    rw [step_of_fetch_some hadm hfetch, h.phases, he]
    rfl
  obtain ⟨h0, hpool⟩ := allocate_range hs ha
  obtain ⟨-, -, -, -, -, -, hlength⟩ := exec_frame he
  have hslots : ∀ y : Source, (∀ r ∈ y.regs, r ∈ q.j.regs ++ q.k.regs ++ q.data.regs) →
      s.slotOf q.dest t y = .resolved (s.sourceValue y) := fun y hy =>
    h.slotOf t fun r hr => hself r <| by
      have hmem := hy r hr
      simp only [IssueRequest.regs, hdest, List.append_assoc, List.append_cancel_left_eq] at hregs
      rwa [← hregs, ← List.append_assoc]
  have hj := hslots q.j fun r hr => by simp [hr]
  have hk := hslots q.k fun r hr => by simp [hr]
  have hdata := hslots q.data fun r hr => by simp [hr]
  refine ⟨t, x.endCycle, hstep, h0, hlength ▸ hpool, ?_, fun u hu => ?_, hi.registers, ?_,
    hi.wait.trans hwait, hi.exec.trans hexec, hi.result.trans hresult, hi.clear.trans hclear, hi.pc,
    ?_, hi.warn, hi.busEvent, hi.lines, hi.mem, hi.cfg, hi.imem⟩
  · refine hi.unitTaken.trans ?_
    rw [← hj, ← hk, ← hdata]
    rfl
  · exact (hi.otherUnits u hu).trans (h.unitsFree u)
  · exact hi.tbe.trans (congrArg (· ++ [t]) htbe)
  · refine hi.stall.trans ?_
    rw [show s.clearBus.branchStall = false from h.running, Bool.false_or]

end

/-! ### Execution -/

/-- `x` with its one unit dispatched and `n` cycles of latency left. -/
def State.executing (x : State) (t n : Nat) : State :=
  { x.setUnit t { x.unit t with remaining := n } with qTbe := [], qExec := [t] }

/-- `x` with its one unit completed. -/
def State.retired (x : State) (t : Nat) : State :=
  { (x.executing t 0).complete t with qExec := [], qResult := [t] }

theorem dispatched_of_nothing {s : State} (htbe : s.qTbe = []) (hwait : s.qWait = []) :
    s.dispatched = s := by
  have hclassified : s.classify = s := by
    unfold State.classify
    rw [htbe, List.filter_nil, List.append_nil, ← htbe]
  have hwoken : s.wake = s := by
    unfold State.wake
    rw [hwait, List.filter_nil, ← hwait]
  have hready : s.readyIssued ++ s.readyWaiters = [] := by
    rw [State.readyIssued, State.readyWaiters, htbe, hwait, List.filter_nil, List.append_nil]
  unfold State.dispatched State.dispatchAll
  rw [hclassified, hwoken, hready, List.foldl_nil]

theorem executing_frame (x : State) (t n : Nat) : x.executing t n = { x with
    units := (x.executing t n).units, qTbe := [], qExec := [t] } := by
  unfold State.executing
  cases t <;> rfl

section
variable (x : State) (t n : Nat)

@[simp] theorem executing_qTbe : (x.executing t n).qTbe = [] := by rw [executing_frame]
@[simp] theorem executing_qExec : (x.executing t n).qExec = [t] := by rw [executing_frame]
@[simp] theorem executing_cfg : (x.executing t n).cfg = x.cfg := by rw [executing_frame]
@[simp] theorem executing_imem : (x.executing t n).imem = x.imem := by rw [executing_frame]
@[simp] theorem executing_gpr : (x.executing t n).gpr = x.gpr := by rw [executing_frame]
@[simp] theorem executing_fpr : (x.executing t n).fpr = x.fpr := by rw [executing_frame]
@[simp] theorem executing_qWait : (x.executing t n).qWait = x.qWait := by rw [executing_frame]
@[simp] theorem executing_qResult : (x.executing t n).qResult = x.qResult := by rw [executing_frame]
@[simp] theorem executing_qClear : (x.executing t n).qClear = x.qClear := by rw [executing_frame]
@[simp] theorem executing_pc : (x.executing t n).pc = x.pc := by rw [executing_frame]
@[simp] theorem executing_branchStall : (x.executing t n).branchStall = x.branchStall := by
  rw [executing_frame]
@[simp] theorem executing_warn : (x.executing t n).warn = x.warn := by rw [executing_frame]
@[simp] theorem executing_busEvent : (x.executing t n).busEvent = x.busEvent := by
  rw [executing_frame]
@[simp] theorem executing_lines : (x.executing t n).lines = x.lines := by rw [executing_frame]
@[simp] theorem executing_mem : (x.executing t n).mem = x.mem := by rw [executing_frame]

end

section
variable {s x : State} {q : IssueRequest} {t : Nat}

theorem IssuedAlone.executing_unit (h : IssuedAlone s q t x) (n : Nat) :
    (x.executing t n).unit t = { x.unit t with remaining := n } :=
  unit_setUnit_same x h.nonzero h.inPool _

theorem executing_unit_ne (x : State) {t u : Nat} (hu : u ≠ t) (n : Nat) :
    (x.executing t n).unit u = x.unit u := unit_setUnit_ne x hu _

/-- E1 to E3: the unit of an instruction alone is dispatched in the cycle after its issue. -/
theorem IssuedAlone.dispatched (h : IssuedAlone s q t x) :
    x.dispatched = x.executing t (latency x.cfg x.lines (x.unit t)) := by
  have hready : x.isReady t = true := h.ready
  have hclassified : x.classify = { x with qTbe := [] } := by
    unfold State.classify
    simp only [h.tbe, List.filter_cons, hready, Bool.not_true, Bool.false_eq_true, if_false,
      List.filter_nil, List.append_nil]
  have hwoken : x.classify.wake = { x with qTbe := [] } := by
    rw [hclassified]
    unfold State.wake
    simp only [h.wait, List.filter_nil]
  have hlist : x.readyIssued ++ x.classify.readyWaiters = [t] := by
    rw [classify_readyWaiters, State.readyIssued, h.tbe, h.wait]
    simp only [List.filter_cons, hready, if_true, List.filter_nil, List.append_nil]
  unfold State.dispatched State.dispatchAll
  rw [hwoken, hlist, List.foldl_cons, List.foldl_nil, executing_frame]
  obtain ⟨n, rfl⟩ := Nat.exists_eq_succ_of_ne_zero h.nonzero
  simp [State.dispatchUnit, State.executing, State.setUnit, h.exec, State.unit]

theorem IssuedAlone.tick_executing (h : IssuedAlone s q t x) (n : Nat) :
    (x.executing t n).tick t = x.executing t (n - 1) := by
  have hunit := h.executing_unit n
  unfold State.tick
  rw [hunit]
  obtain ⟨m, rfl⟩ := Nat.exists_eq_succ_of_ne_zero h.nonzero
  simp [State.executing, State.setUnit]

theorem IssuedAlone.executing_inPool (h : IssuedAlone s q t x) (n : Nat) :
    t ≤ (x.executing t n).units.length := by
  have hlength : (x.executing t n).units.length = x.units.length := length_setUnit x t _
  rw [hlength]
  exact h.inPool

theorem IssuedAlone.phases_executing (h : IssuedAlone s q t x) (n : Nat) :
    (x.executing t n).writeback.execute = (x.executing t n).countDown t := by
  have hquiet : (x.executing t n).writeback = x.executing t n :=
    writeback_of_nothing ((executing_busEvent ..).trans h.busEvent)
      ((executing_qResult ..).trans h.result) ((executing_qClear ..).trans h.clear)
  have hdispatched : (x.executing t n).dispatched = x.executing t n :=
    dispatched_of_nothing (executing_qTbe ..) ((executing_qWait ..).trans h.wait)
  rw [hquiet, State.execute, hdispatched]
  rfl

/-- The cycle that dispatches the unit is already the first of its latency. -/
theorem IssuedAlone.phases (h : IssuedAlone s q t x) : x.writeback.execute =
    (x.executing t (latency x.cfg x.lines (x.unit t))).writeback.execute := by
  rw [h.phases_executing, writeback_of_nothing h.busEvent h.result h.clear, State.execute,
    h.dispatched]
  rfl

theorem IssuedAlone.countDown_running (h : IssuedAlone s q t x) (n : Nat) :
    (x.executing t (n + 2)).countDown t = x.executing t (n + 1) := by
  rw [countDown_of_running h.nonzero (h.executing_inPool _), h.tick_executing]
  · rfl
  · rw [h.executing_unit]
    exact Nat.le_add_left 2 n

theorem IssuedAlone.countDown_last (h : IssuedAlone s q t x) {n : Nat} (hn : n ≤ 1) :
    (x.executing t n).countDown t = x.retired t := by
  have hexec : (x.executing t n).qExec.erase t = [] := by
    rw [executing_qExec, List.erase_cons_head]
  have hresult : (x.executing t n).qResult ++ [t] = [t] := by
    rw [executing_qResult, h.result, List.nil_append]
  have hzero : n - 1 = 0 := by omega
  rw [countDown_of_last h.nonzero (h.executing_inPool _), h.tick_executing, hexec, hresult, hzero]
  · rfl
  · rw [h.executing_unit]
    exact hn

/-- No record is fetched until the instruction has completed: the front end is stalled, or the program is at its
end. -/
theorem IssuedAlone.silent (h : IssuedAlone s q t x)
    (hsilent : isBranch q.op = true ∨ s.imem.length ≤ (s.pc + 1).toNat) {y : State}
    (himem : y.imem = s.imem) (hpc : isBranch q.op = false → y.pc = s.pc + 1) :
    y.fetch x.branchStall = none := by
  rw [fetch_eq_none_iff, h.stall, himem]
  cases hb : isBranch q.op with
  | true => exact .inl rfl
  | false =>
    rw [hb] at hsilent
    rw [hpc hb]
    exact hsilent

theorem IssuedAlone.executing_admission (h : IssuedAlone s q t x) (hadm : s.admission = none)
    (n : Nat) : (x.executing t n).admission = none := by
  unfold State.admission at hadm ⊢
  rwa [executing_cfg, executing_imem, h.cfg, h.imem]

theorem IssuedAlone.step_running (h : IssuedAlone s q t x) (hadm : s.admission = none)
    (hsilent : isBranch q.op = true ∨ s.imem.length ≤ (s.pc + 1).toNat) (n : Nat) :
    step (x.executing t (n + 2)) =
      .next (({ x with cycle := x.cycle + 1 } : State).executing t (n + 1)) := by
  have hphases : (x.executing t (n + 2)).writeback.execute = x.executing t (n + 1) := by
    rw [h.phases_executing, h.countDown_running]
  rw [step_of_fetch_none (h.executing_admission hadm _), hphases]
  · cases t <;> rfl
  · rw [hphases, executing_branchStall]
    exact h.silent hsilent ((executing_imem ..).trans h.imem)
      fun _ => (executing_pc ..).trans h.pc

theorem IssuedAlone.completedAs (h : IssuedAlone s q t x) :
    CompletedAs (x.executing t 0) ((x.executing t 0).complete t) t ∧
      ((x.executing t 0).unit t).op = q.op := by
  refine ⟨complete_completedAs _ t, ?_⟩
  rw [h.executing_unit, h.unit]

theorem IssuedAlone.step_last (h : IssuedAlone s q t x) (hadm : s.admission = none)
    (hsilent : isBranch q.op = true ∨ s.imem.length ≤ (s.pc + 1).toNat) {n : Nat} (hn : n ≤ 1) :
    step (x.executing t n) = .next (x.retired t).endCycle := by
  obtain ⟨hcompleted, hop⟩ := h.completedAs
  have hphases : (x.executing t n).writeback.execute = x.retired t := by
    rw [h.phases_executing, h.countDown_last hn]
  rw [step_of_fetch_none (h.executing_admission hadm _), hphases]
  rw [hphases, executing_branchStall]
  exact h.silent hsilent (hcompleted.same.imem.trans ((executing_imem ..).trans h.imem))
    fun hb => (hcompleted.pc (hop ▸ hb)).trans ((executing_pc ..).trans h.pc)

/-- R174, R178: a latency of `n` takes `max n 1` cycles from the dispatch on. -/
theorem IssuedAlone.run_executing (h : IssuedAlone s q t x) (hadm : s.admission = none)
    (hsilent : isBranch q.op = true ∨ s.imem.length ≤ (s.pc + 1).toNat) (n : Nat) :
    ∃ y, IssuedAlone s q t y ∧
      core.run (max n 1) (x.executing t n) = .next (y.retired t).endCycle := by
  obtain hn | ⟨k, rfl⟩ : n ≤ 1 ∨ ∃ k, n = k + 2 := by
    by_cases hn : n ≤ 1
    · exact .inl hn
    · exact .inr ⟨n - 2, by omega⟩
  · refine ⟨x, h, ?_⟩
    rw [max_eq_right hn]
    exact run_succ_of_step (h.step_last hadm hsilent hn) 0
  · induction k generalizing x with
    | zero =>
      have hlater := h.later (x.cycle + 1)
      refine ⟨_, hlater, (run_succ_of_step (h.step_running hadm hsilent 0) 1).trans ?_⟩
      exact run_succ_of_step (hlater.step_last hadm hsilent le_rfl) 0
    | succ k ih =>
      obtain ⟨y, hy, hrun⟩ := ih (h.later (x.cycle + 1))
      refine ⟨y, hy, ?_⟩
      rw [max_eq_left (by omega)] at hrun ⊢
      exact (run_succ_of_step (h.step_running hadm hsilent (k + 1)) (k + 2)).trans hrun

/-- R172, R174: the instruction completes `max L 1` cycles after its issue. -/
theorem IssuedAlone.run (h : IssuedAlone s q t x) (hadm : s.admission = none)
    (hsilent : isBranch q.op = true ∨ s.imem.length ≤ (s.pc + 1).toNat) {n : Nat}
    (hn : latency x.cfg x.lines (x.unit t) = n) :
    ∃ y, IssuedAlone s q t y ∧ core.run (max n 1) x = .next (y.retired t).endCycle := by
  obtain ⟨y, hy, hrun⟩ := h.run_executing hadm hsilent n
  refine ⟨y, hy, ?_⟩
  have hstep : step x = step (x.executing t n) := by
    have hadm' : x.admission = none := by
      unfold State.admission at hadm ⊢
      rwa [h.cfg, h.imem]
    unfold step
    rw [hadm', h.executing_admission hadm, h.phases, hn, executing_branchStall]
  obtain ⟨k, hk⟩ : ∃ k, max n 1 = k + 1 := ⟨max n 1 - 1, by omega⟩
  rw [hk] at hrun ⊢
  obtain ⟨z, hz, hrest⟩ := run_succ_next hrun
  rw [run_succ_of_step (hstep.trans hz), hrest]

end
/-! ### Service and the freeing of the unit -/

theorem step_of_only_writeback {z : State} (hadm : z.admission = none) (htbe : z.qTbe = [])
    (hwait : z.qWait = []) (hexec : z.qExec = []) (hpc : z.imem.length ≤ z.pc.toNat) :
    step z = .next z.writeback.endCycle := by
  have hspec := writeback_spec z
  obtain ⟨-, himem, hpc', -⟩ := writeback_frame z
  have hphases : z.writeback.execute = z.writeback :=
    execute_of_nothing (hspec.tbe.trans htbe) (hspec.wait.trans hwait) (hspec.exec.trans hexec)
  rw [step_of_fetch_none hadm, hphases]
  rw [hphases, fetch_eq_none_iff, himem, hpc']
  exact .inr hpc

/-- The only queued tag is `t`, which awaits its service, and the program is at its end. -/
structure AwaitsService (z : State) (t : Nat) : Prop where
  admitted : z.admission = none
  otherUnits : ∀ u, u ≠ t → z.unit u = FunctionalUnit.reset
  tbe : z.qTbe = []
  wait : z.qWait = []
  exec : z.qExec = []
  result : z.qResult = [t]
  clear : z.qClear = []
  ended : z.imem.length ≤ z.pc.toNat

/-- What is left when the unit `t` of `z` has been serviced and freed. -/
structure Drained (z s' : State) (t : Nat) : Prop where
  units : ∀ u, s'.unit u = FunctionalUnit.reset
  queued : s'.queued = []
  busEvent : s'.busEvent = none
  pc : s'.pc = z.pc
  stall : s'.branchStall = z.branchStall
  reg : ∀ r, s'.reg r = (z.reg r).hear ((z.unit t).published.map (t, ·))
  written : StoreWritten z s'

/-- R164, R163: one cycle services the unit, the next one frees it. -/
theorem AwaitsService.run {z : State} {t : Nat} (h : AwaitsService z t) :
    ∃ s', core.run 2 z = .next s' ∧ Drained z s' t := by
  have hserviced := writeback_spec z
  obtain ⟨hcfg, himem, hpc, hstall, -⟩ := writeback_frame z
  obtain ⟨-, -, -, -, -, hbus⟩ := writeback_of_service h.result (by rw [h.clear]; simp)
  have hfirst : step z = .next z.writeback.endCycle :=
    step_of_only_writeback h.admitted h.tbe h.wait h.exec h.ended
  have htbe : z.writeback.endCycle.qTbe = [] := hserviced.tbe.trans h.tbe
  have hwait : z.writeback.endCycle.qWait = [] := hserviced.wait.trans h.wait
  have hexec : z.writeback.endCycle.qExec = [] := hserviced.exec.trans h.exec
  have hresult : z.writeback.endCycle.qResult = [] := by
    refine hserviced.result.trans ?_
    rw [h.result]
    rfl
  have hclear : z.writeback.endCycle.qClear = [t] := by
    refine hserviced.clear.trans ?_
    rw [h.result]
    rfl
  have hadm : z.writeback.endCycle.admission = none := by
    have hz := h.admitted
    unfold State.admission at hz ⊢
    rwa [endCycle_cfg, endCycle_imem, hcfg, himem]
  have hsecond : step z.writeback.endCycle = .next z.writeback.endCycle.writeback.endCycle :=
    step_of_only_writeback hadm htbe hwait hexec (by
      rw [endCycle_imem, endCycle_pc, himem, hpc]
      exact h.ended)
  have hfreed := writeback_spec z.writeback.endCycle
  obtain ⟨-, -, hpc2, hstall2, -⟩ := writeback_frame z.writeback.endCycle
  have hquiet : z.writeback.endCycle.writeback.busEvent = none := by
    cases he : z.writeback.endCycle.writeback.busEvent with
    | none => rfl
    | some e =>
      obtain ⟨hhead, -⟩ := (hfreed.bus e.1 e.2).mp he
      rw [hresult] at hhead
      cases hhead
  refine ⟨z.writeback.endCycle.writeback.endCycle,
    (run_succ_of_step hfirst 1).trans (run_succ_of_step hsecond 0), fun u => ?_, ?_, hquiet,
    hpc2.trans hpc, hstall2.trans hstall, fun r => ?_, ?_⟩
  · refine (hfreed.unit u).trans ?_
    rw [hclear, hquiet]
    by_cases hu : u = t
    · rw [if_pos (List.mem_singleton.mpr hu)]
    · rw [if_neg (mt List.mem_singleton.mp hu)]
      refine (hserviced.unit u).trans ?_
      rw [h.clear, if_neg (List.not_mem_nil), h.otherUnits u hu]
      exact hear_of_free rfl _
  · simp only [State.queued, endCycle_qTbe, endCycle_qWait, endCycle_qExec, endCycle_qResult,
      endCycle_qClear, List.append_eq_nil_iff]
    refine ⟨⟨⟨⟨hfreed.tbe.trans htbe, hfreed.wait.trans hwait⟩, hfreed.exec.trans hexec⟩, ?_⟩, ?_⟩
    · exact hfreed.result.trans (by rw [hresult]; rfl)
    · exact hfreed.clear.trans (by rw [hresult]; rfl)
  · refine (hfreed.reg r).trans ?_
    rw [hquiet, ← hbus]
    exact hserviced.reg r
  · have hkept : z.writeback.endCycle.writeback.mem = z.writeback.mem ∧
        z.writeback.endCycle.writeback.lines = z.writeback.lines ∧
        z.writeback.endCycle.writeback.warn = z.writeback.warn := by
      obtain ⟨-, hmem, hlines, hwarn⟩ | ⟨u, -, -, -, hhead, -⟩ :=
        writeback_storeWritten z.writeback.endCycle
      · exact ⟨hmem, hlines, hwarn⟩
      · rw [hresult] at hhead
        cases hhead
    obtain ⟨hmem, hlines, hwarn⟩ := hkept
    obtain ⟨hnone, hmem1, hlines1, hwarn1⟩ | ⟨u, ea, w, v, hhead, ha, hmem1, hlines1, hwarn1⟩ :=
      writeback_storeWritten z
    · exact .inl ⟨hnone, hmem.trans hmem1, hlines.trans hlines1, hwarn.trans hwarn1⟩
    · exact .inr ⟨u, ea, w, v, hhead, ha, hmem.trans hmem1, hlines.trans hlines1,
        hwarn.trans hwarn1⟩

end Sys2Proof.Machine
end

section
/-! PROOFS. What an instruction alone leaves at its end (41_scheduler_and_cdb.md R190, R193), by the kind of the
instruction: one that publishes a result, a store, a branch. -/

namespace Sys2Proof.Machine

/-- R20, R35: a run writes neither the configuration nor the program, and counts its cycles. -/
theorem run_inputs {s s' : State} {n : Nat} (h : core.run n s = .next s') :
    s'.cfg = s.cfg ∧ s'.imem = s.imem ∧ s'.cycle = s.cycle + n := by
  induction n generalizing s with
  | zero =>
    obtain rfl : s = s' := Host.Outcome.next.inj h
    exact ⟨rfl, rfl, rfl⟩
  | succ n ih =>
    obtain ⟨s1, hs, hrun⟩ := run_succ_next h
    obtain ⟨hcfg, himem, hcycle⟩ := step_inputs hs
    obtain ⟨hcfg', himem', hcycle'⟩ := ih hrun
    exact ⟨hcfg'.trans hcfg, himem'.trans himem, by omega⟩

/-- R105: a branch has no destination. -/
theorem isBranch_of_hasDest {op : Opcode} (h : hasDest op = true) : isBranch op = false := by
  revert h
  cases op <;> decide

/-- R28: the last record of an admitted program is followed by its end. -/
theorem pc_after_last {s : State} (hadm : s.admission = none)
    (hlast : s.imem.length = s.pc.toNat + 1) : s.imem.length ≤ (s.pc + 1).toNat := by
  have hlength := length_of_admission hadm
  bv_omega

section
variable {s : State} {w : Record} {q : IssueRequest} (hidle : s.Idle) (hs : s.Shaped)
  (hadm : s.admission = none) (hw : s.imem[s.pc.toNat]? = some w)
  (hq : requestOf (decode w) = some q) (hself : ∀ r ∈ (decode w).sources, q.dest ≠ some r)
  {n : Nat} (hn : ∀ t x, IssuedAlone s q t x → latency x.cfg x.lines (x.unit t) = n)
include hidle hs hadm hw hq hself hn

/-- R190: one cycle for the issue, `max n 1` for the execution. -/
theorem run_to_completion (hsilent : isBranch q.op = true ∨ s.imem.length ≤ (s.pc + 1).toNat) :
    ∃ t y, IssuedAlone s q t y ∧ core.run (max n 1 + 1) s = .next (y.retired t).endCycle := by
  obtain ⟨t, x, hstep, hx⟩ := hidle.issue hs hadm hw hq hself
  obtain ⟨y, hy, hrun⟩ := hx.run hadm hsilent (hn t x hx)
  exact ⟨t, y, hy, (run_succ_of_step hstep _).trans hrun⟩

/-- R190: then one cycle for the service and one to free the unit. -/
theorem run_to_end (hbranch : isBranch q.op = false) (hlast : s.imem.length = s.pc.toNat + 1) :
    ∃ t y s', IssuedAlone s q t y ∧ core.run (max n 1 + 3) s = .next s' ∧
      Drained (y.retired t).endCycle s' t := by
  have hend := pc_after_last hadm hlast
  obtain ⟨t, y, hy, hrun⟩ := run_to_completion hidle hs hadm hw hq hself hn (.inr hend)
  obtain ⟨hcompleted, hop⟩ := hy.completedAs
  have hsame := hcompleted.same
  have hcfg : (y.retired t).endCycle.cfg = s.cfg :=
    hsame.cfg.trans ((executing_cfg ..).trans hy.cfg)
  have himem : (y.retired t).endCycle.imem = s.imem :=
    hsame.imem.trans ((executing_imem ..).trans hy.imem)
  have hpc : (y.retired t).endCycle.pc = s.pc + 1 :=
    (hcompleted.pc (hop ▸ hbranch)).trans ((executing_pc ..).trans hy.pc)
  have hawaits : AwaitsService (y.retired t).endCycle t := by
    refine ⟨?_, fun u hu => ?_, hsame.tbe.trans (executing_qTbe ..),
      hsame.wait.trans ((executing_qWait ..).trans hy.wait), rfl, rfl,
      hsame.clear.trans ((executing_qClear ..).trans hy.clear), ?_⟩
    · unfold State.admission at hadm ⊢
      rwa [hcfg, himem]
    · refine (hcompleted.same.otherUnits u hu).trans ?_
      rw [executing_unit_ne y hu]
      exact hy.otherUnits u hu
    · rw [himem, hpc]
      exact hend
  obtain ⟨s', hfinish, hdrained⟩ := hawaits.run
  exact ⟨t, y, s', hy, (run_add hrun 2).trans hfinish, hdrained⟩

end

section
variable {s s' y : State} {q : IssueRequest} {t : Nat}

theorem IssuedAlone.reg_retired (h : IssuedAlone s q t y) (r : Reg) :
    (y.retired t).endCycle.reg r =
      if q.dest = some r then { s.reg r with producer := t } else s.reg r := by
  have hsame := h.completedAs.1.same
  exact (reg_congr (s := y) (s' := (y.retired t).endCycle) (hsame.gpr.trans (executing_gpr ..))
    (hsame.fpr.trans (executing_fpr ..)) r).trans (h.registers r)

theorem IssuedAlone.mem_retired (h : IssuedAlone s q t y) :
    (y.retired t).endCycle.mem = s.mem :=
  h.completedAs.1.same.mem.trans ((executing_mem ..).trans h.mem)

/-- The fields that `EndsAlone` names, at the end of a run that drained the machine. -/
theorem Drained.endsAlone (h : Drained (y.retired t).endCycle s' t) (hy : IssuedAlone s q t y)
    (hbranch : isBranch q.op = false) {n : Nat} (hrun : core.run n s = .next s')
    (hreg : ∀ r, (s'.reg r).producer = 0) {warn : Warnings} (hwarn : s'.warn = warn) :
    EndsAlone s s' n (s.pc + 1) warn := by
  obtain ⟨hcompleted, hop⟩ := hy.completedAs
  obtain ⟨hcfg, himem, hcycle⟩ := run_inputs hrun
  have hb : isBranch ((y.executing t 0).unit t).op = false := hop ▸ hbranch
  refine ⟨⟨h.units, h.queued, hreg, h.stall.trans ?_⟩, h.pc.trans ?_, hwarn, h.busEvent, hcycle,
    hcfg, himem⟩
  · refine hcompleted.stall.trans ?_
    rw [hb, executing_branchStall]
    exact hy.stall.trans hbranch
  · exact (hcompleted.pc hb).trans ((executing_pc ..).trans hy.pc)

/-- R165, R166: the destination takes the published value, every other register stays. -/
theorem IssuedAlone.reg_published (h : IssuedAlone s q t y) (hidle : s.Idle) {d : Reg}
    (hd : q.dest = some d) (v : Word) (r : Reg) :
    ((y.retired t).endCycle.reg r).hear (some (t, v)) =
      if r = d then { value := v, producer := 0 } else s.reg r := by
  rw [h.reg_retired, hd]
  by_cases hr : r = d
  · subst hr
    rw [if_pos rfl, if_pos rfl]
    exact if_pos rfl
  · rw [if_neg (fun he => hr (Option.some.inj he).symm), if_neg hr]
    refine if_neg fun hproducer => h.nonzero ?_
    rw [← hproducer, hidle.noProducer]

end

section
variable {s : State} {w : Record} {q : IssueRequest} (hidle : s.Idle) (hs : s.Shaped)
  (hadm : s.admission = none) (hw : s.imem[s.pc.toNat]? = some w)
  (hq : requestOf (decode w) = some q) (hself : ∀ r ∈ (decode w).sources, q.dest ≠ some r)
  {n : Nat} (hn : ∀ t x, IssuedAlone s q t x → latency x.cfg x.lines (x.unit t) = n)
  (hlast : s.imem.length = s.pc.toNat + 1)
include hidle hs hadm hw hq hself hn hlast

/-- R190 for an instruction with a destination, given the result that its unit takes at its completion. -/
theorem run_publishes {d : Reg} (hd : q.dest = some d) {v : Word}
    (hv : ∀ t y, IssuedAlone s q t y →
      (((y.executing t 0).complete t).unit t).result = some v) :
    ∃ t y s', IssuedAlone s q t y ∧ core.run (max n 1 + 3) s = .next s' ∧
      EndsAlone s s' (max n 1 + 3) (s.pc + 1) ((y.executing t 0).complete t).warn ∧
      (∀ r, s'.reg r = if r = d then { value := v, producer := 0 } else s.reg r) ∧
      s'.mem = s.mem ∧ s'.lines = ((y.executing t 0).complete t).lines := by
  obtain ⟨hopcode, -, hdest, hhas, -⟩ := requestOf_spec hq
  have hhas' : hasDest q.op = true := by rw [hopcode, ← hhas, ← hdest, hd]; rfl
  have hbranch := isBranch_of_hasDest hhas'
  obtain ⟨t, y, s', hy, hrun, hdrained⟩ :=
    run_to_end hidle hs hadm hw hq hself hn hbranch hlast
  obtain ⟨hcompleted, hop⟩ := hy.completedAs
  have hop' : (((y.executing t 0).complete t).unit t).op = q.op := (congrArg FunctionalUnit.op hcompleted.unit :).trans hop
  have hpublished : (((y.retired t).endCycle).unit t).published = some v :=
    published_eq_some_iff.mpr ⟨hop' ▸ hhas', hv t y hy⟩
  have hreg : ∀ r, s'.reg r = if r = d then { value := v, producer := 0 } else s.reg r :=
    fun r => by
      rw [hdrained.reg, hpublished]
      exact hy.reg_published hidle hd v r
  have hkept : s'.mem = (y.retired t).endCycle.mem ∧
      s'.lines = (y.retired t).endCycle.lines ∧ s'.warn = (y.retired t).endCycle.warn := by
    obtain ⟨-, hkept⟩ | ⟨u, ea, width, x, hhead, ha, -⟩ := hdrained.written
    · exact hkept
    · obtain rfl : t = u := Option.some.inj hhead
      rw [storeAccess_of_hasDest (by exact hop' ▸ hhas')] at ha
      cases ha
  obtain ⟨hmem, hlines, hwarn⟩ := hkept
  refine ⟨t, y, s', hy, hrun, hdrained.endsAlone hy hbranch hrun (fun r => ?_) hwarn, hreg,
    hmem.trans hy.mem_retired, hlines⟩
  rw [hreg]
  split
  · rfl
  · exact hidle.noProducer r

end
end Sys2Proof.Machine
end

section
/-! PROOFS. The four kinds of run of one instruction alone (41_scheduler_and_cdb.md R190, R193). -/

namespace Sys2Proof.Machine

theorem not_mem_sources_of_not_selfDependent {i : Instr} (h : selfDependent i = false) :
    ∀ r ∈ i.sources, i.dest ≠ some r := by
  intro r hr hd
  unfold selfDependent at h
  rw [hd] at h
  exact absurd hr (by simpa using h)

section
variable {s x : State} {q : IssueRequest} {t : Nat}

/-- The unit of an instruction alone, when its latency has run out. -/
theorem IssuedAlone.unit_at_end (h : IssuedAlone s q t x) : (x.executing t 0).unit t =
    { busy := true, op := q.op, j := .resolved (s.sourceValue q.j),
      k := .resolved (s.sourceValue q.k), data := .resolved (s.sourceValue q.data),
      imm := sext64 q.imm, target := q.target, remaining := 0, result := none,
      squashed := false } := by
  rw [h.executing_unit, h.unit]

theorem IssuedAlone.result_of_setResult (h : IssuedAlone s q t x) {z : State}
    (hz : z.units.length = (x.executing t 0).units.length) (v : Word) :
    ((z.setResult t v).unit t).result = some v :=
  (setResult_unit z t v).2 h.nonzero (hz ▸ h.executing_inPool 0)

/-! ### Arithmetic -/

/-- R200, R172: what issue and dispatch make of an arithmetic instruction. -/
theorem request_of_operandValues {i : Instr} {a b : Word} (h : s.operandValues i = some (a, b)) :
    ∃ q, requestOf i = some q ∧ q.op = i.opcode ∧ s.sourceValue q.j = a ∧ s.sourceValue q.k = b ∧
      ∀ c lines u, u.op = q.op → latency c lines u = arithmeticLatency c i.opcode := by
  cases i <;> simp only [State.operandValues, Option.some.injEq, Prod.mk.injEq, reduceCtorEq] at h
  all_goals
    obtain ⟨rfl, rfl⟩ := h
    exact ⟨_, rfl, rfl, rfl, rfl, fun c lines u hu => by unfold latency; rw [hu]; rfl⟩

theorem IssuedAlone.complete_arithmetic (h : IssuedAlone s q t x) {a b v : Word}
    (ha : s.sourceValue q.j = a) (hb : s.sourceValue q.k = b)
    (hv : arithmeticResult s.cfg q.op a b = some v) : (x.executing t 0).complete t =
      (if arithmeticWarns s.cfg q.op a b then (x.executing t 0).warnOn .arithmetic
        else x.executing t 0).setResult t v := by
  have hu := h.unit_at_end
  have hcfg : (x.executing t 0).cfg = s.cfg := (executing_cfg ..).trans h.cfg
  have hop : ((x.executing t 0).unit t).op = q.op := by rw [hu]
  rw [Machine.complete_arithmetic (a := a) (b := b) (v := v) (by rw [hu, ha]) (by rw [hu, hb])
    (by rw [hop, hcfg, hv]), hop, hcfg]

/-! ### Accesses -/

theorem IssuedAlone.accessTerm (h : IssuedAlone s q t x) (ea : Word) :
    x.accessTerm ea = s.accessTerm ea := by
  unfold State.accessTerm
  rw [h.cfg, h.lines]

/-- R172: an access waits for its base latency and for the hit or miss term of its address. -/
theorem IssuedAlone.latency_load (h : IssuedAlone s q t x) (hop : q.op = .lw ∨ q.op = .ld) :
    latency x.cfg x.lines (x.unit t) =
      s.cfg.latLoad + s.accessTerm (s.sourceValue q.j + sext64 q.imm) := by
  have hterm := cacheTerm_of_base (s := x) (u := x.unit t) (base := s.sourceValue q.j)
    (by rw [h.unit])
  have himm : (x.unit t).imm = sext64 q.imm := by rw [h.unit]
  have hunit : (x.unit t).op = q.op := by rw [h.unit]
  rw [himm, h.accessTerm] at hterm
  unfold latency
  rw [hunit, hterm, h.cfg]
  obtain hop | hop := hop <;> rw [hop]

theorem IssuedAlone.latency_store (h : IssuedAlone s q t x) (hop : q.op = .sw ∨ q.op = .sd) :
    latency x.cfg x.lines (x.unit t) =
      s.cfg.latStore + s.accessTerm (s.sourceValue q.j + sext64 q.imm) := by
  have hterm := cacheTerm_of_base (s := x) (u := x.unit t) (base := s.sourceValue q.j)
    (by rw [h.unit])
  have himm : (x.unit t).imm = sext64 q.imm := by rw [h.unit]
  have hunit : (x.unit t).op = q.op := by rw [h.unit]
  rw [himm, h.accessTerm] at hterm
  unfold latency
  rw [hunit, hterm, h.cfg]
  obtain hop | hop := hop <;> rw [hop]

theorem IssuedAlone.accessInBounds_iff (h : IssuedAlone s q t x) (ea : Word) (n : Nat) :
    (x.executing t 0).accessInBounds ea n ↔ s.accessInBounds ea n := by
  unfold State.accessInBounds
  rw [executing_cfg, h.cfg]

theorem IssuedAlone.memoryValue (h : IssuedAlone s q t x) (p n : Nat) :
    (x.executing t 0).memoryValue p n = s.memoryValue p n := by
  unfold State.memoryValue
  rw [executing_cfg, executing_mem, h.cfg, h.mem]

theorem IssuedAlone.cacheInv (h : IssuedAlone s q t x) (hcache : s.CacheInv) :
    (x.executing t 0).CacheInv :=
  cacheInv_congr ((executing_cfg ..).trans h.cfg) ((executing_mem ..).trans h.mem)
    ((executing_lines ..).trans h.lines) hcache

theorem IssuedAlone.complete_load (h : IssuedAlone s q t x) {width : Width}
    (hcomplete : ∀ (s : State) (t : Nat), (s.unit t).op = q.op →
      s.complete t = s.completeLoad t width) :
    (x.executing t 0).complete t =
      ((x.executing t 0).memRead (s.sourceValue q.j + sext64 q.imm) width).2.setResult t
        ((x.executing t 0).memRead (s.sourceValue q.j + sext64 q.imm) width).1 := by
  have hu := h.unit_at_end
  rw [hcomplete _ _ (by rw [hu]), completeLoad_of_base (base := s.sourceValue q.j) (by rw [hu]), hu]

theorem IssuedAlone.storeAccess_retired (h : IssuedAlone s q t x) {width : Width}
    (hop : q.op = .sw ∧ width = .four ∨ q.op = .sd ∧ width = .eight) :
    (x.executing t 0).complete t = x.executing t 0 ∧
      ((x.retired t).endCycle.unit t).storeAccess =
        some (s.sourceValue q.j + sext64 q.imm, width, s.sourceValue q.data) := by
  have hu := h.unit_at_end
  have hunit : ((x.executing t 0).unit t).op = q.op := by rw [hu]
  have hcomplete : (x.executing t 0).complete t = x.executing t 0 := by
    have hstore : (x.executing t 0).complete t = (x.executing t 0).completeStore t := by
      unfold State.complete
      rw [hunit]
      obtain ⟨hop, -⟩ | ⟨hop, -⟩ := hop <;> rw [hop] <;> rfl
    rw [hstore, completeStore_of_resolved (base := s.sourceValue q.j) (v := s.sourceValue q.data)
      (by rw [hu]) (by rw [hu])]
  refine ⟨hcomplete, ?_⟩
  have hsame : (x.retired t).endCycle.unit t = (x.executing t 0).unit t :=
    (congrArg (fun z : State => z.unit t) hcomplete :)
  rw [hsame, hu]
  obtain ⟨hop, rfl⟩ | ⟨hop, rfl⟩ := hop <;> rw [hop] <;> rfl

/-- R167: the service of the store makes the access that the idle machine `s` says. -/
theorem IssuedAlone.written_of_store (h : IssuedAlone s q t x) {width : Width}
    (hop : q.op = .sw ∧ width = .four ∨ q.op = .sd ∧ width = .eight) {s' : State}
    (hwritten : StoreWritten (x.retired t).endCycle s') {s1 : State}
    (hs1 : s1 = s.memWrite (s.sourceValue q.j + sext64 q.imm) width (s.sourceValue q.data)) :
    s'.mem = s1.mem ∧ s'.lines = s1.lines ∧ s'.warn = s1.warn := by
  subst hs1
  obtain ⟨hcomplete, haccess⟩ := h.storeAccess_retired hop
  have hcfg : (x.retired t).endCycle.cfg = s.cfg :=
    (congrArg State.cfg hcomplete :).trans ((executing_cfg ..).trans h.cfg)
  have hlines : (x.retired t).endCycle.lines = s.lines :=
    (congrArg State.lines hcomplete :).trans ((executing_lines ..).trans h.lines)
  have hwarn : (x.retired t).endCycle.warn = s.warn :=
    (congrArg State.warn hcomplete :).trans ((executing_warn ..).trans h.warn)
  have hclear : (x.retired t).endCycle.qClear = [] :=
    (congrArg State.qClear hcomplete :).trans ((executing_qClear ..).trans h.clear)
  have hsame := memWrite_congr hcfg h.mem_retired hlines hwarn
    (s.sourceValue q.j + sext64 q.imm) width (s.sourceValue q.data)
  obtain ⟨hnone, -⟩ | ⟨u, ea, width', v, hhead, ha, hmem', hlines', hwarn'⟩ := hwritten
  · rw [hnone t rfl (hclear ▸ List.not_mem_nil)] at haccess
    cases haccess
  · obtain rfl : t = u := Option.some.inj hhead
    rw [haccess] at ha
    cases ha
    exact ⟨hmem'.trans hsame.1, hlines'.trans hsame.2.1, hwarn'.trans hsame.2.2⟩

/-- A store publishes nothing, so every register is as it was on the idle machine. -/
theorem IssuedAlone.reg_store (h : IssuedAlone s q t x) (hdest : q.dest = none)
    (hhas : hasDest q.op = false) (r : Reg) :
    ((x.retired t).endCycle.reg r).hear
      (((x.retired t).endCycle.unit t).published.map (t, ·)) = s.reg r := by
  have hop : ((x.retired t).endCycle.unit t).op = q.op :=
    (congrArg FunctionalUnit.op h.completedAs.1.unit :).trans h.completedAs.2
  have hpublished : ((x.retired t).endCycle.unit t).published = none := by
    cases hp : ((x.retired t).endCycle.unit t).published with
    | none => rfl
    | some v =>
      have hdestOp := (published_eq_some_iff.mp hp).1
      rw [hop, hhas] at hdestOp
      cases hdestOp
  rw [hpublished, h.reg_retired, hdest]
  rfl

end

/-- R190 for a store: what the idle machine's own access would write is written. -/
theorem run_stores {s : State} {w : Record} {q : IssueRequest} (hidle : s.Idle) (hs : s.Shaped)
    (hadm : s.admission = none) (hw : s.imem[s.pc.toNat]? = some w)
    (hq : requestOf (decode w) = some q) (hlast : s.imem.length = s.pc.toNat + 1) {width : Width}
    (hop : q.op = .sw ∧ width = .four ∨ q.op = .sd ∧ width = .eight) :
    let ea := s.sourceValue q.j + sext64 q.imm
    let written := s.memWrite ea width (s.sourceValue q.data)
    ∃ s', core.run (max (s.cfg.latStore + s.accessTerm ea) 1 + 3) s = .next s' ∧
      EndsAlone s s' (max (s.cfg.latStore + s.accessTerm ea) 1 + 3) (s.pc + 1) written.warn ∧
      (∀ r, s'.reg r = s.reg r) ∧ s'.mem = written.mem ∧ s'.lines = written.lines := by
  intro ea written
  have hop' : q.op = .sw ∨ q.op = .sd := hop.imp And.left And.left
  have hbranch : isBranch q.op = false := by obtain h | h := hop' <;> rw [h] <;> rfl
  have hhas : hasDest q.op = false := by obtain h | h := hop' <;> rw [h] <;> rfl
  obtain ⟨hopcode, -, hqdest, hdestHas, -⟩ := requestOf_spec hq
  have hdest : q.dest = none := by
    rw [← hopcode, hhas, ← hqdest] at hdestHas
    simpa using hdestHas
  obtain ⟨t, y, s', hy, hrun, hdrained⟩ := run_to_end hidle hs hadm hw hq (by simp [hdest])
    (fun t x hx => hx.latency_store hop') hbranch hlast
  obtain ⟨hmem, hlines, hwarn⟩ := hy.written_of_store hop hdrained.written rfl
  have hreg : ∀ r, s'.reg r = s.reg r := fun r =>
    (hdrained.reg r).trans (hy.reg_store hdest hhas r)
  exact ⟨s', hrun, hdrained.endsAlone hy hbranch hrun
    (fun r => (congrArg Register.producer (hreg r)).trans (hidle.noProducer r)) hwarn, hreg, hmem,
    hlines⟩

end Sys2Proof.Machine

namespace Sys2Proof
open Machine

/-- Settles O55: the run of an instruction that publishes, with the result of its completion. -/
theorem arithmeticRunsToItsResult : Obligations.ArithmeticRunsToItsResult := by
  intro s w i d a b v hidle hs hadm hw hi hlast hself hdest hvalues hresult
  subst hi
  obtain ⟨q, hq, hop, ha, hb, hlatency⟩ := request_of_operandValues hvalues
  obtain ⟨-, -, hqdest, -⟩ := requestOf_spec hq
  have hdest' : q.dest = some d := hqdest.trans hdest
  have hresult' : arithmeticResult s.cfg q.op a b = some v := hop ▸ hresult
  obtain ⟨t, y, s', hy, hrun, hends, hreg, hmem, hlines⟩ := run_publishes (v := v)
    (n := arithmeticLatency s.cfg (decode w).opcode) hidle hs hadm hw hq
    (hqdest ▸ not_mem_sources_of_not_selfDependent hself)
    (fun t x hx => by rw [hlatency _ _ _ (by rw [hx.unit]), hx.cfg]) hlast hdest'
    (fun t y hy => by
      rw [hy.complete_arithmetic ha hb hresult']
      exact hy.result_of_setResult (by split <;> rfl) v)
  have hwarn : ((y.executing t 0).complete t).warn =
      if arithmeticWarns s.cfg (decode w).opcode a b then s.warn.raise .arithmetic else s.warn := by
    rw [hy.complete_arithmetic ha hb hresult', setResult_warn, hop]
    split
    · exact congrArg (Warnings.raise · .arithmetic) ((executing_warn ..).trans hy.warn)
    · exact (executing_warn ..).trans hy.warn
  refine ⟨s', hrun, hwarn ▸ hends, hreg, hmem, hlines.trans ?_⟩
  rw [hy.complete_arithmetic ha hb hresult', setResult_lines]
  split <;> exact (executing_lines ..).trans hy.lines

/-- Settles O56: the run of an instruction that publishes, whose result is what its read of memory gives. -/
theorem loadRunsToItsResult : Obligations.LoadRunsToItsResult := by
  intro s w d base imm target n hidle hs hcache hadm hw hi hlast hne ea cycles
  have hconfig := configAdmissible_of_admission hadm
  obtain ⟨q, hq, hdest, hbase, himm, hself, hop⟩ : ∃ q, requestOf (decode w) = some q ∧
      q.dest = some d ∧ s.sourceValue q.j = (s.reg base).value ∧ q.imm = imm ∧
      (∀ r ∈ (decode w).sources, q.dest ≠ some r) ∧
      (q.op = .lw ∧ n = 4 ∨ q.op = .ld ∧ n = 8) := by
    obtain ⟨hi, rfl⟩ | ⟨hi, rfl⟩ := hi <;> rw [hi] <;>
      refine ⟨_, rfl, rfl, rfl, rfl, fun r hr he => hne ?_, ?_⟩
    · rw [Option.some.inj he, List.mem_singleton.mp hr]
    · exact .inl ⟨rfl, rfl⟩
    · rw [Option.some.inj he, List.mem_singleton.mp hr]
    · exact .inr ⟨rfl, rfl⟩
  obtain ⟨width, hwidth, hcompletes⟩ := complete_of_load hop
  have hea : s.sourceValue q.j + sext64 q.imm = ea := by rw [hbase, himm]
  have hlatency : ∀ t x, IssuedAlone s q t x →
      latency x.cfg x.lines (x.unit t) = s.cfg.latLoad + s.accessTerm ea := fun t x hx => by
    rw [hx.latency_load (hop.imp And.left And.left), hea]
  have hcomplete := fun t x (hx : IssuedAlone s q t x) => hx.complete_load hcompletes
  rw [hea] at hcomplete
  subst hwidth
  constructor
  · intro hin
    have hvalue : ∀ t x, IssuedAlone s q t x →
        ((x.executing t 0).memRead ea width).1 = s.memoryValue ea.toNat width.bytes :=
      fun t x hx => by
        rw [memRead_value ((executing_cfg x t 0).trans hx.cfg ▸ hconfig) (hx.cacheInv hcache)
          ((hx.accessInBounds_iff ea _).mpr hin), hx.memoryValue]
    obtain ⟨t, y, s', hy, hrun, hends, hreg, hmem, hlines⟩ := run_publishes
      (v := s.memoryValue ea.toNat width.bytes) hidle hs hadm hw hq hself hlatency hlast hdest
      (fun t y hy => by
        rw [hcomplete t y hy, hvalue t y hy]
        exact hy.result_of_setResult (by rw [memRead_units]) _)
    have hin' := (hy.accessInBounds_iff ea width.bytes).mpr hin
    rw [hcomplete t y hy, setResult_warn, memRead_frame hin', executing_warn, hy.warn] at hends
    rw [hcomplete t y hy, setResult_lines] at hlines
    have hcfg' : (y.executing t 0).cfg = s.cfg := (executing_cfg ..).trans hy.cfg
    have hread := memRead_cacheInv (hcfg' ▸ hconfig) (hy.cacheInv hcache) hin'
    refine ⟨s', hrun, hends, hreg, hmem, cacheInv_congr ?_ ?_ hlines hread⟩
    · rw [memRead_cfg, hcfg', hends.cfg]
    · rw [memRead_mem, executing_mem, hy.mem, hmem]
  · intro hout
    have hread : ∀ t x, IssuedAlone s q t x → (x.executing t 0).memRead ea width =
        (0, (x.executing t 0).warnOn .outOfRange) := fun t x hx =>
      memRead_outOfBounds (mt (hx.accessInBounds_iff ea _).mp hout)
    obtain ⟨t, y, s', hy, hrun, hends, hreg, hmem, hlines⟩ := run_publishes (v := 0) hidle hs hadm
      hw hq hself hlatency hlast hdest (fun t y hy => by
        rw [hcomplete t y hy, hread t y hy]
        exact hy.result_of_setResult (z := (y.executing t 0).warnOn .outOfRange) rfl 0)
    rw [hcomplete t y hy, hread t y hy, setResult_warn] at hends
    rw [hcomplete t y hy, hread t y hy, setResult_lines] at hlines
    have hwarn : ((y.executing t 0).warnOn .outOfRange).warn = s.warn.raise .outOfRange :=
      congrArg (Warnings.raise · .outOfRange) ((executing_warn ..).trans hy.warn)
    exact ⟨s', hrun, hwarn ▸ hends, hreg, hmem, hlines.trans ((executing_lines ..).trans hy.lines)⟩

/-- Settles O57: the run of a store, with what its one write does in and out of bounds. -/
theorem storeRunsToItsWrite : Obligations.StoreRunsToItsWrite := by
  intro s w base data imm target n hidle hs hcache hadm hw hi hlast ea cycles
  have hconfig := configAdmissible_of_admission hadm
  obtain ⟨q, hq, hbase, hdata, himm, width, hwidth, hop⟩ : ∃ q,
      requestOf (decode w) = some q ∧ s.sourceValue q.j = (s.reg base).value ∧
      s.sourceValue q.data = (s.reg data).value ∧ q.imm = imm ∧ ∃ width : Width, width.bytes = n ∧
      (q.op = .sw ∧ width = .four ∨ q.op = .sd ∧ width = .eight) := by
    obtain ⟨hi, rfl⟩ | ⟨hi, rfl⟩ := hi <;> rw [hi]
    · exact ⟨_, rfl, rfl, rfl, rfl, .four, rfl, .inl ⟨rfl, rfl⟩⟩
    · exact ⟨_, rfl, rfl, rfl, rfl, .eight, rfl, .inr ⟨rfl, rfl⟩⟩
  have hea : s.sourceValue q.j + sext64 q.imm = ea := by rw [hbase, himm]
  obtain ⟨s', hrun, hends, hreg, hmem, hlines⟩ := run_stores hidle hs hadm hw hq hlast hop
  rw [hea, hdata] at hends hmem hlines
  rw [hea] at hrun
  subst hwidth
  constructor
  · intro hin
    rw [memWrite_frame (s.reg data).value hin] at hends
    have hcache' := memWrite_cacheInv hconfig hcache hin (s.reg data).value
    refine ⟨s', hrun, hends, hreg, cacheInv_congr ?_ hmem hlines hcache', fun p => ?_⟩
    · rw [memWrite_cfg, hends.cfg]
    · rw [hmem, memWrite_read hconfig hcache hin]
  · intro hout
    rw [memWrite_outOfBounds _ hout] at hmem hlines hends
    exact ⟨s', hrun, hends, hreg, hmem, hlines⟩

/-- Settles O58: a branch stalls the front end until its completion, which sets the pc. -/
theorem branchRunsToItsTarget : Obligations.BranchRunsToItsTarget := by
  intro s w a b imm target isBeq hidle hs hadm hw hi
  obtain ⟨q, hq, hdest, ha, hb, htarget, hop⟩ : ∃ q, requestOf (decode w) = some q ∧
      q.dest = none ∧ s.sourceValue q.j = (s.reg a).value ∧ s.sourceValue q.k = (s.reg b).value ∧
      q.target = target ∧ q.op = if isBeq then .beq else .bne := by
    cases isBeq <;> rw [hi] <;> exact ⟨_, rfl, rfl, rfl, rfl, rfl, rfl⟩
  have hbranch : isBranch q.op = true := by rw [hop]; cases isBeq <;> rfl
  obtain ⟨t, y, hy, hrun⟩ := run_to_completion (n := s.cfg.latIntAdd) hidle hs hadm hw hq
    (by simp [hdest]) (fun t x hx => by
      have hunit : (x.unit t).op = q.op := by rw [hx.unit]
      unfold latency
      rw [hunit, hop, hx.cfg]
      cases isBeq <;> rfl) (.inl hbranch)
  have hu := hy.unit_at_end
  have hpc : (y.executing t 0).pc = s.pc + 1 := (executing_pc ..).trans hy.pc
  have hcomplete : (y.executing t 0).complete t = { y.executing t 0 with
      pc := if isBeq = decide ((s.reg a).value = (s.reg b).value) then target else s.pc + 1
      branchStall := false } := by
    cases isBeq with
    | true =>
      rw [complete_beq (a := (s.reg a).value) (b := (s.reg b).value) (by rw [hu, ha])
        (by rw [hu, hb]) (by rw [hu, hop]; rfl), hu, hpc, htarget]
      simp only [eq_comm (a := true), decide_eq_true_eq]
    | false =>
      rw [complete_bne (a := (s.reg a).value) (b := (s.reg b).value) (by rw [hu, ha])
        (by rw [hu, hb]) (by rw [hu, hop]; rfl), hu, hpc, htarget]
      by_cases hab : (s.reg a).value = (s.reg b).value <;> simp [hab]
  refine ⟨_, hrun, ?_⟩
  unfold State.retired
  rw [hcomplete]
  refine ⟨rfl, rfl, fun r => ?_, (executing_mem ..).trans hy.mem, (executing_lines ..).trans hy.lines,
    (executing_warn ..).trans hy.warn, ?_, rfl⟩
  · refine (reg_congr (s := y) (executing_gpr ..) (executing_fpr ..) r).trans ?_
    rw [hy.registers, hdest]
    rfl
  · simp [hy.wait]

end Sys2Proof
end

section
/-! PROOFS. The reference numerics (43_fp_arith.md R226): the fields of a pattern, and the rounding. -/

namespace Sys2Proof.Machine

/-! ### The fields of a pattern -/

/-- Bit 63 is the sign, the rest is the magnitude. -/
theorem toNat_eq_sign_add (w : Word) :
    w.toNat = (w.getLsbD 63).toNat * 2 ^ 63 + w.toNat % 2 ^ 63 := by
  have hw := w.isLt
  have hbit : (w.getLsbD 63).toNat = w.toNat / 2 ^ 63 := by
    unfold BitVec.getLsbD
    rw [Nat.testBit_eq_decide_div_mod_eq]
    by_cases h : w.toNat / 2 ^ 63 % 2 = 1
    · rw [decide_eq_true h, Bool.toNat_true]
      omega
    · rw [decide_eq_false h, Bool.toNat_false]
      omega
  rw [hbit]
  omega

/-- R226: what a pattern of this sign and magnitude stands for. -/
theorem fpUnpack_of_toNat {w : Word} {neg : Bool} {mag : Nat}
    (hw : w.toNat = neg.toNat * 2 ^ 63 + mag) (hmag : mag < 2 ^ 63) : fpUnpack w =
      if mag / 2 ^ 52 = 2047 then (if mag % 2 ^ 52 = 0 then .infinity neg else .nan)
      else if mag / 2 ^ 52 = 0 then .finite neg (mag % 2 ^ 52) (-1074)
      else .finite neg (2 ^ 52 + mag % 2 ^ 52) ((mag / 2 ^ 52 : Nat) - 1075) := by
  have hsign : w.getLsbD 63 = neg := by
    have h := toNat_eq_sign_add w
    cases hb : w.getLsbD 63 <;> cases neg <;> simp only [hb, Bool.toNat_true, Bool.toNat_false] at *
      <;> omega
  have hexp : (w.extractLsb' 52 11).toNat = mag / 2 ^ 52 := by
    rw [BitVec.extractLsb'_toNat, Nat.shiftRight_eq_div_pow, hw]
    cases neg <;> simp only [Bool.toNat_true, Bool.toNat_false] <;> omega
  have hfrac : (w.extractLsb' 0 52).toNat = mag % 2 ^ 52 := by
    rw [BitVec.extractLsb'_toNat, Nat.shiftRight_zero, hw]
    cases neg <;> simp only [Bool.toNat_true, Bool.toNat_false] <;> omega
  unfold fpUnpack
  simp only [hsign, hexp, hfrac]

/-- A sign and a magnitude put together. -/
theorem toNat_fpZero_or (neg : Bool) {x : Word} (hx : x.toNat < 2 ^ 63) :
    (fpZero neg ||| x).toNat = neg.toNat * 2 ^ 63 + x.toNat := by
  have hzero : (fpZero neg).toNat = 2 ^ 63 * neg.toNat := by cases neg <;> rfl
  rw [BitVec.toNat_or, hzero, ← Nat.two_pow_add_eq_or_of_lt hx, Nat.mul_comm]

theorem toNat_fpZero (neg : Bool) : (fpZero neg).toNat = neg.toNat * 2 ^ 63 := by
  cases neg <;> rfl

theorem toNat_fpInfinity (neg : Bool) :
    (fpInfinity neg).toNat = neg.toNat * 2 ^ 63 + 2047 * 2 ^ 52 :=
  toNat_fpZero_or neg (x := 0x7FF0000000000000#64) (by decide)

theorem fpUnpack_fpInfinity (neg : Bool) : fpUnpack (fpInfinity neg) = .infinity neg := by
  rw [fpUnpack_of_toNat (toNat_fpInfinity neg) (by decide)]
  rfl

/-- R226: every NaN that an operation produces is a NaN. -/
theorem fpUnpack_fpNan (op : NumOp) (a b : Word) : fpUnpack (fpNan op a b) = .nan := by
  obtain ⟨neg, fr, hlt, hpos, hw⟩ : ∃ (neg : Bool) (fr : Word), fr.toNat < 2 ^ 52 ∧
      fr.toNat ≠ 0 ∧ fpNan op a b = fpZero neg ||| (0x7FF0000000000000#64 ||| fr) := by
    unfold fpNan
    simp only [BitVec.or_assoc]
    split
    · exact ⟨_, _, by decide, by decide, rfl⟩
    · rename_i hfr
      refine ⟨_, _, ?_, fun hz => hfr ?_, rfl⟩
      · rw [BitVec.toNat_setWidth_of_le (by decide)]
        exact BitVec.isLt _
      · rw [BitVec.toNat_setWidth_of_le (by decide)] at hz
        exact BitVec.eq_of_toNat_eq hz
  have hmag : (0x7FF0000000000000#64 ||| fr).toNat = 2047 * 2 ^ 52 + fr.toNat := by
    rw [BitVec.toNat_or]
    exact (Nat.two_pow_add_eq_or_of_lt hlt 2047).symm
  have htoNat := toNat_fpZero_or neg (x := 0x7FF0000000000000#64 ||| fr) (by omega)
  rw [← hw, hmag] at htoNat
  rw [fpUnpack_of_toNat htoNat (by omega), if_pos (by omega), if_neg (by omega)]

/-! ### Rounding to a place -/

theorem two_pow_pred {k : Nat} (hk : 1 ≤ k) : 2 ^ k = 2 * 2 ^ (k - 1) := by
  rw [← Nat.pow_succ']
  congr 1
  omega

/-- The rounding goes down or up by the remainder, the tie, the sticky bit and the parity. -/
theorem roundShift_cases (n k : Nat) (sticky : Bool) :
    roundShift n k sticky = n / 2 ^ k + 1 ∧ (2 ^ (k - 1) < n % 2 ^ k ∨
      n % 2 ^ k = 2 ^ (k - 1) ∧ (sticky = true ∨ n / 2 ^ k % 2 = 1)) ∨
    roundShift n k sticky = n / 2 ^ k ∧ (n % 2 ^ k < 2 ^ (k - 1) ∨
      n % 2 ^ k = 2 ^ (k - 1) ∧ sticky = false ∧ n / 2 ^ k % 2 = 0) := by
  unfold roundShift
  simp only [Bool.and_eq_true, Bool.or_eq_true, beq_iff_eq, decide_eq_true_eq]
  split
  · rename_i h
    exact .inl ⟨rfl, h⟩
  · rename_i h
    refine .inr ⟨rfl, ?_⟩
    push Not at h
    obtain ⟨hle, htie⟩ := h
    by_cases heq : n % 2 ^ k = 2 ^ (k - 1)
    · obtain ⟨hsticky, hodd⟩ := htie heq
      exact .inr ⟨heq, by simpa using hsticky, by omega⟩
    · exact .inl (by omega)

theorem roundShift_nearest {n k : Nat} (hk : 1 ≤ k) :
    2 * (n - roundShift n k false * 2 ^ k) ≤ 2 ^ k ∧
    2 * (roundShift n k false * 2 ^ k - n) ≤ 2 ^ k ∧
    (2 * (n - roundShift n k false * 2 ^ k) = 2 ^ k ∨
      2 * (roundShift n k false * 2 ^ k - n) = 2 ^ k → roundShift n k false % 2 = 0) := by
  have hhalf := two_pow_pred hk
  have hdiv := Nat.div_add_mod n (2 ^ k)
  have hmod := Nat.mod_lt n (Nat.two_pow_pos k)
  rw [Nat.mul_comm] at hdiv
  obtain ⟨hr, h⟩ | ⟨hr, h⟩ := roundShift_cases n k false
  · rw [hr, Nat.add_mul, Nat.one_mul]
    simp only [Bool.false_eq_true, false_or] at h
    refine ⟨by omega, by omega, fun htie => by omega⟩
  · rw [hr]
    refine ⟨by omega, by omega, fun htie => by omega⟩

theorem roundShift_sticky_nearest {n k : Nat} (hk : 1 ≤ k) :
    2 * (n + 1 - roundShift n k true * 2 ^ k) ≤ 2 ^ k ∧
    2 * (roundShift n k true * 2 ^ k - n) ≤ 2 ^ k := by
  have hhalf := two_pow_pred hk
  have hdiv := Nat.div_add_mod n (2 ^ k)
  have hmod := Nat.mod_lt n (Nat.two_pow_pos k)
  rw [Nat.mul_comm] at hdiv
  obtain ⟨hr, h⟩ | ⟨hr, h⟩ := roundShift_cases n k true
  · rw [hr, Nat.add_mul, Nat.one_mul]
    omega
  · rw [hr]
    simp only [Bool.true_eq_false, false_and, and_false, or_false] at h
    omega

/-! ### Rounding of a number -/

/-- The place to which `n * 2^e` is rounded: 52 below its leading bit, but not below -1074. -/
def fpPlace (n : Nat) (e : Int) : Int := max (e + (n.log2 : Int) - 52) (-1074)

/-- `n * 2^e`, rounded, in units of its place. -/
def fpSignificand (n : Nat) (e : Int) (sticky : Bool) : Nat :=
  if fpPlace n e ≤ e then n * 2 ^ (e - fpPlace n e).toNat
  else roundShift n (fpPlace n e - e).toNat sticky

/-- Exponent and fraction, side by side. -/
def fpMagnitude (n : Nat) (e : Int) (sticky : Bool) : Nat :=
  (fpPlace n e + 1074).toNat * 2 ^ 52 + fpSignificand n e sticky

theorem fpRound_zero (neg : Bool) (e : Int) (sticky : Bool) : fpRound neg 0 e sticky = fpZero neg :=
  if_pos rfl

theorem fpRound_of_ne_zero {n : Nat} (hn : n ≠ 0) (neg : Bool) (e : Int) (sticky : Bool) :
    fpRound neg n e sticky = if 2047 * 2 ^ 52 ≤ fpMagnitude n e sticky then fpInfinity neg
      else fpZero neg ||| BitVec.ofNat 64 (fpMagnitude n e sticky) := if_neg hn

/-- The pattern depends on the place and the significand alone. -/
theorem fpRound_congr {n n' : Nat} {e e' : Int} {sticky sticky' : Bool} (hn : n ≠ 0) (hn' : n' ≠ 0)
    (hplace : fpPlace n e = fpPlace n' e')
    (hsig : fpSignificand n e sticky = fpSignificand n' e' sticky') (neg : Bool) :
    fpRound neg n e sticky = fpRound neg n' e' sticky' := by
  rw [fpRound_of_ne_zero hn, fpRound_of_ne_zero hn']
  unfold fpMagnitude
  rw [hplace, hsig]

theorem fpPlace_ge (n : Nat) (e : Int) : -1074 ≤ fpPlace n e := le_max_right _ _

theorem fpPlace_ge_leading (n : Nat) (e : Int) : e + (n.log2 : Int) - 52 ≤ fpPlace n e :=
  le_max_left _ _

theorem fpPlace_of_normal {n : Nat} {e : Int} (h : -1074 < fpPlace n e) :
    fpPlace n e = e + (n.log2 : Int) - 52 := by
  unfold fpPlace at h ⊢
  omega

theorem div_pow_le_roundShift (n k : Nat) (sticky : Bool) :
    n / 2 ^ k ≤ roundShift n k sticky ∧ roundShift n k sticky ≤ n / 2 ^ k + 1 := by
  obtain ⟨hr, -⟩ | ⟨hr, -⟩ := roundShift_cases n k sticky <;> omega

theorem fpSignificand_le (n : Nat) (e : Int) (sticky : Bool) :
    fpSignificand n e sticky ≤ 2 ^ 53 := by
  have hleading := fpPlace_ge_leading n e
  have hlt : n < 2 ^ (n.log2 + 1) := Nat.lt_log2_self
  unfold fpSignificand
  split
  · rename_i hle
    calc n * 2 ^ (e - fpPlace n e).toNat
        ≤ 2 ^ (n.log2 + 1) * 2 ^ (e - fpPlace n e).toNat := Nat.mul_le_mul_right _ hlt.le
      _ = 2 ^ (n.log2 + 1 + (e - fpPlace n e).toNat) := (Nat.pow_add ..).symm
      _ ≤ 2 ^ 53 := Nat.pow_le_pow_right (by decide) (by omega)
  · rename_i hgt
    have hquotient : n / 2 ^ (fpPlace n e - e).toNat < 2 ^ 53 := by
      rw [Nat.div_lt_iff_lt_mul (Nat.two_pow_pos _), ← Nat.pow_add]
      exact hlt.trans_le (Nat.pow_le_pow_right (by decide) (by omega))
    have hup := (div_pow_le_roundShift n (fpPlace n e - e).toNat sticky).2
    omega

section
variable {n : Nat} (hn : n ≠ 0) (e : Int) (sticky : Bool)
include hn

theorem le_fpSignificand (hnormal : -1074 < fpPlace n e) :
    2 ^ 52 ≤ fpSignificand n e sticky := by
  have hplace := fpPlace_of_normal hnormal
  have hge : 2 ^ n.log2 ≤ n := Nat.log2_self_le hn
  unfold fpSignificand
  split
  · rename_i hle
    calc 2 ^ 52 = 2 ^ (n.log2 + (e - fpPlace n e).toNat) := by congr 1; omega
      _ = 2 ^ n.log2 * 2 ^ (e - fpPlace n e).toNat := Nat.pow_add ..
      _ ≤ n * 2 ^ (e - fpPlace n e).toNat := Nat.mul_le_mul_right _ hge
  · rename_i hgt
    have hquotient : 2 ^ 52 ≤ n / 2 ^ (fpPlace n e - e).toNat := by
      rw [Nat.le_div_iff_mul_le (Nat.two_pow_pos _), ← Nat.pow_add]
      refine le_trans (le_of_eq ?_) hge
      congr 1
      omega
    exact hquotient.trans (div_pow_le_roundShift n _ sticky).1

/-- R226: the result overflows exactly from `2^1024` on. -/
theorem fpMagnitude_overflow_iff : 2047 * 2 ^ 52 ≤ fpMagnitude n e sticky ↔
    971 < fpPlace n e ∨ fpPlace n e = 971 ∧ fpSignificand n e sticky = 2 ^ 53 := by
  have hge := fpPlace_ge n e
  have hle := fpSignificand_le n e sticky
  have hnormal := le_fpSignificand hn e sticky
  unfold fpMagnitude
  omega

theorem toNat_fpRound (neg : Bool) : (fpRound neg n e sticky).toNat =
    neg.toNat * 2 ^ 63 + min (fpMagnitude n e sticky) (2047 * 2 ^ 52) := by
  rw [fpRound_of_ne_zero hn]
  split
  · rename_i h
    rw [toNat_fpInfinity, min_eq_right h]
  · rename_i h
    have hmag : (BitVec.ofNat 64 (fpMagnitude n e sticky)).toNat = fpMagnitude n e sticky := by
      rw [BitVec.toNat_ofNat]
      omega
    rw [toNat_fpZero_or neg (by omega), hmag, min_eq_left (by omega)]

theorem fpUnpack_fpRound_overflow (neg : Bool) (h : 2047 * 2 ^ 52 ≤ fpMagnitude n e sticky) :
    fpUnpack (fpRound neg n e sticky) = .infinity neg := by
  rw [fpRound_of_ne_zero hn, if_pos h, fpUnpack_fpInfinity]

/-- R226: the pattern stands for exactly the rounded value; a significand that was rounded up to `2^53` is
`2^52` at the next place. -/
theorem fpUnpack_fpRound_finite (neg : Bool) (h : fpMagnitude n e sticky < 2047 * 2 ^ 52) :
    ∃ m f, fpUnpack (fpRound neg n e sticky) = .finite neg m f ∧
      (m = fpSignificand n e sticky ∧ f = fpPlace n e ∨
        2 * m = fpSignificand n e sticky ∧ f = fpPlace n e + 1) := by
  have hge := fpPlace_ge n e
  have hle := fpSignificand_le n e sticky
  have hnormal := le_fpSignificand hn e sticky
  have htoNat := toNat_fpRound hn e sticky neg
  rw [min_eq_left h.le] at htoNat
  rw [fpUnpack_of_toNat htoNat (by omega), if_neg (by omega)]
  have hmag : fpMagnitude n e sticky =
    (fpPlace n e + 1074).toNat * 2 ^ 52 + fpSignificand n e sticky := rfl
  generalize fpMagnitude n e sticky = mag at *
  split
  · exact ⟨_, _, rfl, .inl ⟨by omega, by omega⟩⟩
  · refine ⟨_, _, rfl, ?_⟩
    by_cases hcarry : fpSignificand n e sticky = 2 ^ 53
    · exact .inr ⟨by omega, by omega⟩
    · exact .inl ⟨by omega, by omega⟩

end

/-- R226: a finite value that a pattern stands for rounds to that pattern. -/
theorem fpRound_fpUnpack {w : Word} {neg : Bool} {m : Nat} {e : Int}
    (h : fpUnpack w = .finite neg m e) : fpRound neg m e false = w := by
  have hw := toNat_eq_sign_add w
  have hmag : w.toNat % 2 ^ 63 < 2 ^ 63 := Nat.mod_lt _ (by decide)
  rw [fpUnpack_of_toNat hw hmag] at h
  generalize w.toNat % 2 ^ 63 = mag at *
  have hvalue : mag / 2 ^ 52 ≠ 2047 ∧ w.getLsbD 63 = neg ∧
      (mag / 2 ^ 52 = 0 ∧ m = mag % 2 ^ 52 ∧ e = -1074 ∨
        mag / 2 ^ 52 ≠ 0 ∧ m = 2 ^ 52 + mag % 2 ^ 52 ∧ e = (mag / 2 ^ 52 : Nat) - 1075) := by
    split at h
    · split at h <;> cases h
    · rename_i hfinite
      split at h <;> rename_i hexp <;> cases h
      · exact ⟨hfinite, rfl, .inl ⟨hexp, rfl, rfl⟩⟩
      · exact ⟨hfinite, rfl, .inr ⟨hexp, rfl, rfl⟩⟩
  obtain ⟨hfinite, hneg, hm⟩ := hvalue
  apply BitVec.eq_of_toNat_eq
  rw [hw, hneg]
  by_cases hzero : m = 0
  · rw [hzero, fpRound_zero, toNat_fpZero]
    omega
  · have hplace : fpPlace m e = e := by
      have hlog : m.log2 ≤ 52 ∧ (mag / 2 ^ 52 ≠ 0 → m.log2 = 52) := by
        refine ⟨Nat.lt_succ_iff.mp ((Nat.log2_lt hzero).mpr (by omega)), fun hexp => ?_⟩
        exact (Nat.log2_eq_iff hzero).mpr ⟨by omega, by omega⟩
      unfold fpPlace
      omega
    have hsig : fpSignificand m e false = m := by
      unfold fpSignificand
      rw [hplace, if_pos le_rfl, sub_self]
      exact Nat.mul_one m
    rw [toNat_fpRound hzero]
    unfold fpMagnitude
    rw [hplace, hsig]
    omega

end Sys2Proof.Machine

namespace Sys2Proof
open Machine

/-- Settles O26: the nearest multiple by the cases of the rounding; the pattern by its sign and magnitude. -/
theorem referenceRoundsToNearestEven : Obligations.ReferenceRoundsToNearestEven := by
  refine ⟨fun n k hk => ?_, fun neg n e sticky hn => ?_, fpRound_zero,
    fun w neg m e h => fpRound_fpUnpack h⟩
  · obtain ⟨hbelow, habove, heven⟩ := roundShift_nearest (n := n) hk
    exact ⟨hbelow, habove, heven, roundShift_sticky_nearest hk⟩
  · intro q m magnitude _
    exact ⟨toNat_fpRound hn e sticky neg, fpMagnitude_overflow_iff hn e sticky,
      fpUnpack_fpRound_overflow hn e sticky neg, fpUnpack_fpRound_finite hn e sticky neg⟩

end Sys2Proof
end

section
/-! PROOFS. The results of the reference numerics on finite operands (43_fp_arith.md R226): each is one rounding of
the exact result, whatever the number of places it is written with. -/

namespace Sys2Proof.Machine

/-! ### More places do not change a rounding -/

/-- `n * 2^j + r` stands `j` places below `n`: cut off there, `r` matters only as "not exact". -/
theorem roundShift_refine {n j r k : Nat} (hr : r < 2 ^ j) (hk : 1 ≤ k) (sticky : Bool) :
    roundShift (n * 2 ^ j + r) (k + j) sticky =
      roundShift n k (decide (r ≠ 0) || sticky) := by
  have hpow : 2 ^ (k + j) = 2 ^ j * 2 ^ k := by rw [Nat.pow_add, Nat.mul_comm]
  have hhalf : 2 ^ (k + j - 1) = 2 ^ (k - 1) * 2 ^ j := by
    rw [← Nat.pow_add]
    congr 1
    omega
  have hquotient : (n * 2 ^ j + r) / 2 ^ j = n := by
    rw [Nat.mul_comm, Nat.mul_add_div (Nat.two_pow_pos j), Nat.div_eq_of_lt hr, Nat.add_zero]
  have hdiv : (n * 2 ^ j + r) / 2 ^ (k + j) = n / 2 ^ k := by
    rw [hpow, ← Nat.div_div_eq_div_mul, hquotient]
  have hmod : (n * 2 ^ j + r) % 2 ^ (k + j) = n % 2 ^ k * 2 ^ j + r := by
    rw [hpow, Nat.mod_mul, hquotient, Nat.mul_comm n, Nat.mul_add_mod, Nat.mod_eq_of_lt hr]
    ring
  unfold roundShift
  rw [hdiv, hmod, hhalf]
  generalize n % 2 ^ k = low
  generalize 2 ^ (k - 1) = half
  have hiff : (half * 2 ^ j < low * 2 ^ j + r ∨
        low * 2 ^ j + r = half * 2 ^ j ∧ (sticky = true ∨ n / 2 ^ k % 2 = 1)) ↔
      (half < low ∨ low = half ∧ ((r ≠ 0 ∨ sticky = true) ∨ n / 2 ^ k % 2 = 1)) := by
    obtain hlt | heq | hgt := Nat.lt_trichotomy low half
    · have hstep : (low + 1) * 2 ^ j ≤ half * 2 ^ j := Nat.mul_le_mul_right _ hlt
      rw [Nat.add_mul, Nat.one_mul] at hstep
      omega
    · subst heq
      by_cases hzero : r = 0 <;> simp [hzero, Nat.pos_iff_ne_zero]
    · have hstep : (half + 1) * 2 ^ j ≤ low * 2 ^ j := Nat.mul_le_mul_right _ hgt
      rw [Nat.add_mul, Nat.one_mul] at hstep
      omega
  simp only [Bool.or_eq_true, Bool.and_eq_true, beq_iff_eq, decide_eq_true_eq, hiff]

theorem log2_shift {n : Nat} (hn : n ≠ 0) {j r : Nat} (hr : r < 2 ^ j) :
    (n * 2 ^ j + r).log2 = n.log2 + j := by
  have hpos := Nat.two_pow_pos j
  have hge : 2 ^ n.log2 ≤ n := Nat.log2_self_le hn
  have hlt : n + 1 ≤ 2 ^ (n.log2 + 1) := Nat.lt_log2_self
  have hne : n * 2 ^ j + r ≠ 0 := by
    have := Nat.mul_pos (Nat.pos_of_ne_zero hn) hpos
    omega
  refine (Nat.log2_eq_iff hne).mpr ⟨?_, ?_⟩
  · rw [Nat.pow_add]
    exact le_add_right (Nat.mul_le_mul_right _ hge)
  · calc n * 2 ^ j + r < n * 2 ^ j + 2 ^ j := Nat.add_lt_add_left hr _
      _ = (n + 1) * 2 ^ j := by ring
      _ ≤ 2 ^ (n.log2 + 1) * 2 ^ j := Nat.mul_le_mul_right _ hlt
      _ = 2 ^ (n.log2 + j + 1) := by rw [← Nat.pow_add]; congr 1; omega

theorem fpPlace_shift {n : Nat} (hn : n ≠ 0) {j r : Nat} (hr : r < 2 ^ j) (e : Int) :
    fpPlace (n * 2 ^ j + r) (e - j) = fpPlace n e := by
  unfold fpPlace
  rw [log2_shift hn hr]
  congr 1
  omega

/-- A number that is wider than a significand rounds alike when more of its places are given. -/
theorem fpRound_refine {n : Nat} (hwide : 53 ≤ n.log2) {j r : Nat} (hr : r < 2 ^ j) (neg : Bool)
    (e : Int) (sticky : Bool) : fpRound neg (n * 2 ^ j + r) (e - j) sticky =
      fpRound neg n e (decide (r ≠ 0) || sticky) := by
  have hn : n ≠ 0 := by
    rintro rfl
    simp at hwide
  have hleading := fpPlace_ge_leading n e
  have hne : n * 2 ^ j + r ≠ 0 := by
    have := Nat.mul_pos (Nat.pos_of_ne_zero hn) (Nat.two_pow_pos j)
    omega
  refine fpRound_congr hne hn (fpPlace_shift hn hr e) ?_ neg
  unfold fpSignificand
  rw [fpPlace_shift hn hr, if_neg (by omega), if_neg (by omega)]
  have hshift : (fpPlace n e - (e - j)).toNat = (fpPlace n e - e).toNat + j := by omega
  rw [hshift, roundShift_refine hr (by omega)]

/-- An exact number rounds alike over every exponent at which it is written. -/
theorem fpRound_scale (neg : Bool) (n j : Nat) (e : Int) :
    fpRound neg (n * 2 ^ j) (e - j) false = fpRound neg n e false := by
  by_cases hn : n = 0
  · rw [hn, Nat.zero_mul, fpRound_zero, fpRound_zero]
  have hr : 0 < 2 ^ j := Nat.two_pow_pos j
  have hne : n * 2 ^ j ≠ 0 := Nat.mul_ne_zero hn hr.ne'
  have hplace : fpPlace (n * 2 ^ j) (e - j) = fpPlace n e := fpPlace_shift hn hr e
  refine fpRound_congr hne hn hplace ?_ neg
  unfold fpSignificand
  rw [hplace]
  obtain hlow | ⟨hmid, hle⟩ | hhigh : fpPlace n e ≤ e - j ∨
      e - j < fpPlace n e ∧ fpPlace n e ≤ e ∨ e < fpPlace n e := by omega
  · have hshift : (e - fpPlace n e).toNat = j + (e - j - fpPlace n e).toNat := by omega
    rw [if_pos hlow, if_pos (by omega), hshift, Nat.pow_add, Nat.mul_assoc]
  · have hshift : j = (e - fpPlace n e).toNat + (fpPlace n e - (e - j)).toNat := by omega
    have hk : 1 ≤ (fpPlace n e - (e - j)).toNat := by omega
    rw [if_neg (by omega), if_pos hle]
    generalize (fpPlace n e - (e - j)).toNat = k at *
    have hsplit : n * 2 ^ j = n * 2 ^ (e - fpPlace n e).toNat * 2 ^ k := by
      rw [Nat.mul_assoc, ← Nat.pow_add, ← hshift]
    have hzero : n * 2 ^ j % 2 ^ k = 0 := by rw [hsplit, Nat.mul_mod_left]
    have hquotient : n * 2 ^ j / 2 ^ k = n * 2 ^ (e - fpPlace n e).toNat := by
      rw [hsplit, Nat.mul_div_cancel _ (Nat.two_pow_pos k)]
    have hhalf := Nat.two_pow_pos (k - 1)
    obtain ⟨-, h⟩ | ⟨hdown, -⟩ := roundShift_cases (n * 2 ^ j) k false
    · omega
    · rw [hdown, hquotient]
  · have hshift : (fpPlace n e - (e - j)).toNat = (fpPlace n e - e).toNat + j := by omega
    rw [if_neg (by omega), if_neg (by omega), hshift]
    exact roundShift_refine (r := 0) hr (by omega) false

/-! ### Finite operands -/

/-- R226: a finite significand has at most 53 bits. -/
theorem significand_lt {w : Word} {neg : Bool} {m : Nat} {e : Int}
    (h : fpUnpack w = .finite neg m e) : m < 2 ^ 53 := by
  unfold fpUnpack at h
  have hfr := (w.extractLsb' 0 52).isLt
  simp only at h
  split at h
  · split at h <;> cases h
  · split at h <;> cases h <;> omega

/-- The quotient of two significands, cut to 110 places, is wide enough to be refined. -/
theorem quotient_wide {m n : Nat} (hm : m ≠ 0) (hn : n ≠ 0) (hlt : n < 2 ^ 53) :
    53 ≤ (m * 2 ^ 110 / n).log2 := by
  have hge : 2 ^ 53 ≤ m * 2 ^ 110 / n := by
    rw [Nat.le_div_iff_mul_le (Nat.pos_of_ne_zero hn)]
    calc 2 ^ 53 * n ≤ 2 ^ 53 * 2 ^ 53 := Nat.mul_le_mul_left _ hlt.le
      _ ≤ 1 * 2 ^ 110 := by norm_num
      _ ≤ m * 2 ^ 110 := Nat.mul_le_mul_right _ (Nat.pos_of_ne_zero hm)
  exact (Nat.le_log2 ((Nat.two_pow_pos 53).trans_le hge).ne').mpr hge

/-- A quotient cut to `j` more places: its own quotient by `2^j` is the shorter one, and "not exact" is a
remainder in either cut. -/
theorem quotient_refine (x j : Nat) {n : Nat} (hn : n ≠ 0) :
    x * 2 ^ j / n / 2 ^ j = x / n ∧
      (x % n ≠ 0 ↔ x * 2 ^ j / n % 2 ^ j ≠ 0 ∨ x * 2 ^ j % n ≠ 0) := by
  have hpos := Nat.two_pow_pos j
  refine ⟨by rw [Nat.div_div_eq_div_mul, Nat.mul_div_mul_right _ _ hpos], ?_⟩
  rw [← not_iff_not]
  push Not
  simp only [← Nat.dvd_iff_mod_eq_zero]
  constructor
  · rintro ⟨c, rfl⟩
    have hshift : n * c * 2 ^ j = n * (c * 2 ^ j) := Nat.mul_assoc ..
    rw [hshift, Nat.mul_div_cancel_left _ (Nat.pos_of_ne_zero hn)]
    exact ⟨Nat.dvd_mul_left .., Nat.dvd_mul_right ..⟩
  · rintro ⟨⟨c, hc⟩, hdvd⟩
    refine ⟨c, Nat.eq_of_mul_eq_mul_right hpos ?_⟩
    rw [← Nat.mul_div_cancel' hdvd, hc]
    ring

section
variable {a b : Word} {s t : Bool} {m n : Nat} {e f : Int} (ha : fpUnpack a = .finite s m e)
  (hb : fpUnpack b = .finite t n f)
include ha hb

theorem ieeeMul_of_finite : ieeeMul a b = fpRound (s != t) (m * n) (e + f) false := by
  unfold ieeeMul
  rw [ha, hb]

theorem ieeeDiv_of_finite (hn : n ≠ 0) {k : Nat} (hk : 110 ≤ k) : ieeeDiv a b =
    fpRound (s != t) (m * 2 ^ k / n) (e - f - k) (decide (m * 2 ^ k % n ≠ 0)) := by
  have hdiv : ieeeDiv a b = fpRound (s != t) (m * 2 ^ 110 / n) (e - f - 110)
      (decide (m * 2 ^ 110 % n ≠ 0)) := by
    have hremainder : (m * 2 ^ 110 % n != 0) = decide (m * 2 ^ 110 % n ≠ 0) := by
      rw [Bool.eq_iff_iff, bne_iff_ne, decide_eq_true_iff]
    unfold ieeeDiv
    rw [ha, hb]
    simp only [if_neg hn, hremainder]
  rw [hdiv]
  by_cases hm : m = 0
  · simp only [hm, Nat.zero_mul, Nat.zero_div, fpRound_zero]
  obtain ⟨j, rfl⟩ := Nat.exists_eq_add_of_le hk
  obtain ⟨hquotient, hexact⟩ := quotient_refine (m * 2 ^ 110) j hn
  have hsplit := Nat.div_add_mod' (m * 2 ^ 110 * 2 ^ j / n) (2 ^ j)
  rw [hquotient] at hsplit
  have hplaces : e - f - ((110 + j : Nat) : Int) = e - f - 110 - j := by push_cast; ring
  have hsticky : decide (m * 2 ^ 110 % n ≠ 0) =
      (decide (m * 2 ^ 110 * 2 ^ j / n % 2 ^ j ≠ 0) || decide (m * 2 ^ 110 * 2 ^ j % n ≠ 0)) := by
    rw [← Bool.decide_or]
    exact decide_eq_decide.mpr hexact
  rw [hplaces, Nat.pow_add, ← Nat.mul_assoc, hsticky,
    ← fpRound_refine (quotient_wide hm hn (significand_lt hb)) (Nat.mod_lt _ (Nat.two_pow_pos j)),
    hsplit]

end

theorem signedInt_scale (neg : Bool) (m : Nat) {e g h : Int} (hg : g ≤ h) (hh : h ≤ e) :
    signedInt neg (m * 2 ^ (e - g).toNat) =
      signedInt neg (m * 2 ^ (e - h).toNat) * 2 ^ (h - g).toNat := by
  have hshift : (e - g).toNat = (e - h).toNat + (h - g).toNat := by omega
  rw [hshift, Nat.pow_add, ← Nat.mul_assoc]
  unfold signedInt
  split <;> push_cast <;> ring

/-- The rounding of an exact signed number at place `g`; an exact 0 has the sign `zero`. -/
def fpRoundInt (zero : Bool) (x : Int) (g : Int) : Word :=
  if x = 0 then fpZero zero else fpRound (decide (x < 0)) x.natAbs g false

/-- It does not depend on the exponent at which the number is written. -/
theorem fpRoundInt_scale (zero : Bool) (x : Int) {g h : Int} (hg : g ≤ h) :
    fpRoundInt zero (x * 2 ^ (h - g).toNat) g = fpRoundInt zero x h := by
  have hpos : (0 : Int) < 2 ^ (h - g).toNat := by positivity
  have hscale := fpRound_scale (decide (x < 0)) x.natAbs (h - g).toNat h
  have hplace : h - ((h - g).toNat : Int) = g := by omega
  rw [hplace] at hscale
  have hzero : x * 2 ^ (h - g).toNat = 0 ↔ x = 0 := by simp [hpos.ne']
  have hneg : x * 2 ^ (h - g).toNat < 0 ↔ x < 0 := by
    rw [mul_neg_iff]
    constructor
    · rintro (⟨-, hlt⟩ | ⟨hlt, -⟩) <;> omega
    · exact fun hlt => .inr ⟨hlt, hpos⟩
  have habs : (x * 2 ^ (h - g).toNat).natAbs = x.natAbs * 2 ^ (h - g).toNat := by
    rw [Int.natAbs_mul, Int.natAbs_pow]
    rfl
  unfold fpRoundInt
  simp only [hzero, hneg, habs, hscale]

/-- R226: a sum is taken exactly, over any common exponent, and rounded once. -/
theorem fpAddValues_of_finite (op : NumOp) (a b : Word) (s t : Bool) (m n : Nat) {e f g : Int}
    (he : g ≤ e) (hf : g ≤ f) :
    fpAddValues op a b (.finite s m e) (.finite t n f) =
      fpRoundInt (s && t)
        (signedInt s (m * 2 ^ (e - g).toNat) + signedInt t (n * 2 ^ (f - g).toNat)) g := by
  have hg : g ≤ min e f := le_min he hf
  rw [signedInt_scale s m hg (min_le_left e f), signedInt_scale t n hg (min_le_right e f),
    ← add_mul, fpRoundInt_scale _ _ hg]
  unfold fpAddValues fpRoundInt
  simp only
  split
  · rename_i hzero
    rw [hzero]
    exact fpRound_zero _ _ _
  · rfl

theorem signedInt_not (neg : Bool) (m : Nat) : signedInt (!neg) m = -signedInt neg m := by
  cases neg <;> simp [signedInt]

/-- R226: the product commutes, unless it is a NaN, whose pattern is left open. -/
theorem ieeeMul_comm {a b : Word} (h : fpUnpack (ieeeMul a b) ≠ .nan) :
    ieeeMul a b = ieeeMul b a := by
  have hsign : ∀ s t : Bool, (s != t) = (t != s) := by decide
  unfold ieeeMul at h ⊢
  cases ha : fpUnpack a with
  | nan => simp only [ha, fpUnpack_fpNan, ne_eq, not_true_eq_false] at h
  | infinity s =>
    cases hb : fpUnpack b with
    | nan => simp only [ha, hb, fpUnpack_fpNan, ne_eq, not_true_eq_false] at h
    | infinity t => simp only [hsign s t]
    | finite t n f =>
      simp only [ha, hb] at h ⊢
      split
      · rename_i hn
        rw [if_pos hn, fpUnpack_fpNan] at h
        exact absurd rfl h
      · rw [hsign]
  | finite s m e =>
    cases hb : fpUnpack b with
    | nan => simp only [ha, hb, fpUnpack_fpNan, ne_eq, not_true_eq_false] at h
    | infinity t =>
      simp only [ha, hb] at h ⊢
      split
      · rename_i hm
        rw [if_pos hm, fpUnpack_fpNan] at h
        exact absurd rfl h
      · rw [hsign]
    | finite t n f => simp only [hsign s t, Nat.mul_comm m n, add_comm e f]

theorem ieeeIsZero_iff (b : Word) :
    ieeeIsZero b = true ↔ b = 0 ∨ b = 0x8000000000000000#64 := by
  have hmag : ieeeIsZero b = true ↔ b.toNat % 2 ^ 63 = 0 := by
    unfold ieeeIsZero
    rw [beq_iff_eq, ← BitVec.toNat_inj, BitVec.extractLsb'_toNat, Nat.shiftRight_zero]
    rfl
  have hb := b.isLt
  rw [hmag, ← BitVec.toNat_inj, ← BitVec.toNat_inj]
  change _ ↔ b.toNat = 0 ∨ b.toNat = 2 ^ 63
  omega

end Sys2Proof.Machine

namespace Sys2Proof
open Machine

/-- Settles O27: a rounding does not depend on how many places its exact argument is written with. -/
theorem referenceProductCommutes : Obligations.ReferenceProductCommutes := by
  refine ⟨fun a b s t m n e f ha hb => ⟨ieeeMul_of_finite ha hb,
    fun hn k hk => ieeeDiv_of_finite ha hb hn hk, fun g he hf => ?_⟩,
    fun a b h => ieeeMul_comm h, ieeeIsZero_iff⟩
  intro x y
  constructor
  · unfold ieeeAdd
    rw [ha, hb]
    exact fpAddValues_of_finite .add a b s t m n he hf
  · unfold ieeeSub
    rw [ha, hb]
    refine (fpAddValues_of_finite .sub a b s (!t) m n he hf).trans ?_
    rw [signedInt_not, ← sub_eq_add_neg]
    rfl

end Sys2Proof
end
